-- ==== Sys2Proof/Word.lean ====
section
/-!
DEFINITION. Bytes and 16-bit words (spec/00_scope.md R6, R7).
-/
namespace Sys2Proof

/-- A byte, 0..255: a stack cell, a bus datum, a device byte (R6, "values in 0..255"). -/
abbrev Byte := BitVec 8

/-- A 16-bit value: the program counter and every bus address (R6). Addition wraps modulo 0x10000. -/
abbrev Word := BitVec 16

end Sys2Proof
end

