-- ==== Sys2Proof/Syntax.lean ====
section
/-!
DEFINITION. The instructions: one constructor per row of spec/opcode_table.json (spec/30_encoding.md R97, R100).
-/
namespace Sys2Proof

/-- An instruction with its operands. `SYS` is its two services `trace` and `puts` (R100); `cmpReserved` is the
reserved opcode 0x46, which has no effect but its fault (R99, R147). -/
inductive Instr where
  -- system/control
  | nop
  | trace
  | puts
  | halt
  -- stack
  | drop
  | dup
  | swap
  | overCopy
  | rot
  -- literal/addressing
  | ld8
  | st8
  | ld16
  | st16
  | lit (imm : Byte)
  | lit2 (imm : Word)
  -- ALU
  | add
  | sub
  | and
  | or
  | xor
  | not
  | cmpReserved
  -- control flow
  | jmp (target : Word)
  | call (target : Word)
  | ret
  | retz
  | bra (off : Byte)
  -- I/O and timing
  | tor
  | fromr
  | waitvb
  deriving DecidableEq, Repr

end Sys2Proof
end

