-- ==== Sys2Proof/Decode.lean ====
section
/-!
DEFINITION. The decoder and the encoder (spec/30_encoding.md), the byte-order and sign-extension helpers they
and the meanings use, and the host's `decodeTableWord`.
-/
namespace Sys2Proof

/-- `hi ++ lo`: the 16-bit value with `hi` in bits 15:8 (R7, R93, R96). -/
def joinBytes (hi lo : Byte) : Word := hi ++ lo

/-- Bits 15:8 of a word. -/
def hiByte (w : Word) : Byte := w.extractLsb' 8 8

/-- Bits 7:0 of a word. -/
def loByte (w : Word) : Byte := w.extractLsb' 0 8

/-- `sext_16` (R8): two's-complement sign extension from 8 to 16 bits. -/
def sext16 (b : Byte) : Word := b.signExtend 16

/-! ## The opcode map -/

/-- How an opcode byte goes on: what its operand bytes are (R91). -/
inductive Shape where
  /-- Format `Z`: the instruction is complete. -/
  | complete (i : Instr)
  /-- Formats `I8` and `S8`: one operand byte. -/
  | byte (mk : Byte → Instr)
  /-- Format `I16`: two operand bytes, the low byte first. -/
  | word (mk : Word → Instr)
  /-- Format `SUB`: one service byte (R100). -/
  | service
  /-- No row of the map has this opcode (R98). -/
  | illegal

/-- The opcode map (R97). -/
def opcodeMap (op : Byte) : Shape :=
  match op.toNat with
  | 0x00 => .complete .nop
  | 0x01 => .service
  | 0x02 => .complete .halt
  | 0x20 => .complete .drop
  | 0x21 => .complete .dup
  | 0x22 => .complete .swap
  | 0x23 => .complete .overCopy
  | 0x24 => .complete .rot
  | 0x30 => .complete .ld8
  | 0x31 => .complete .st8
  | 0x32 => .complete .ld16
  | 0x33 => .complete .st16
  | 0x34 => .byte .lit
  | 0x35 => .word .lit2
  | 0x40 => .complete .add
  | 0x41 => .complete .sub
  | 0x42 => .complete .and
  | 0x43 => .complete .or
  | 0x44 => .complete .xor
  | 0x45 => .complete .not
  | 0x46 => .complete .cmpReserved
  | 0x50 => .word .jmp
  | 0x51 => .word .call
  | 0x52 => .complete .ret
  | 0x53 => .complete .retz
  | 0x54 => .byte .bra
  | 0x60 => .complete .tor
  | 0x61 => .complete .fromr
  | 0x62 => .complete .waitvb
  | _ => .illegal

/-- The service map of `SYS` (R100). -/
def serviceMap (sub : Byte) : Option Instr :=
  match sub.toNat with
  | 0x10 => some .trace
  | 0x11 => some .puts
  | _ => none

/-! ## Decoding -/

/-- Why bytes decode to no instruction; `ε` is what the source of the bytes says when it has no byte. -/
inductive Reject (ε : Type) where
  /-- There is no opcode byte. -/
  | noOpcode (e : ε)
  /-- The opcode byte `op` is read, but an operand byte is missing. -/
  | noOperand (op : Byte) (e : ε)
  /-- No row of the opcode map has `op` (R98). -/
  | illegalOpcode (op : Byte)
  /-- `SYS` (opcode byte `op`) with an unknown service (R100). -/
  | illegalService (op sub : Byte)
  deriving DecidableEq, Repr

/-- Decode from any source of bytes: `get k` is byte `k` of the instruction. Bytes are asked for in address
order, and no operand byte is asked for before the opcode is known to be legal (R90, R98, R101). -/
def decodeFrom {ε : Type} (get : Nat → Except ε Byte) : Except (Reject ε) Instr :=
  match get 0 with
  | .error e => .error (.noOpcode e)
  | .ok op =>
    match opcodeMap op with
    | .illegal => .error (.illegalOpcode op)
    | .complete i => .ok i
    | .byte mk =>
      match get 1 with
      | .error e => .error (.noOperand op e)
      | .ok b1 => .ok (mk b1)
    | .service =>
      match get 1 with
      | .error e => .error (.noOperand op e)
      | .ok sub =>
        match serviceMap sub with
        | some i => .ok i
        | none => .error (.illegalService op sub)
    | .word mk =>
      match get 1 with
      | .error e => .error (.noOperand op e)
      | .ok b1 =>
        match get 2 with
        | .error e => .error (.noOperand op e)
        | .ok b2 => .ok (mk (joinBytes b2 b1))

/-- Byte `k` of a list, or the number of the missing byte. -/
def byteOf (bs : List Byte) (k : Nat) : Except Nat Byte :=
  match bs[k]? with
  | some b => .ok b
  | none => .error k

/-- The length in bytes: 1, 2 or 3 (R91, R101). -/
def Instr.length : Instr → Nat
  | .trace | .puts | .lit _ | .bra _ => 2
  | .lit2 _ | .jmp _ | .call _ => 3
  | _ => 1

/-- Decode the front of a list of bytes: the instruction and the bytes after it, or why there is none. -/
def decode (bs : List Byte) : Except (Reject Nat) (Instr × List Byte) :=
  match decodeFrom (byteOf bs) with
  | .ok i => .ok (i, bs.drop i.length)
  | .error e => .error e

/-! ## Encoding -/

/-- The opcode byte (R97). -/
def Instr.opcode : Instr → Byte
  | .nop => 0x00
  | .trace => 0x01
  | .puts => 0x01
  | .halt => 0x02
  | .drop => 0x20
  | .dup => 0x21
  | .swap => 0x22
  | .overCopy => 0x23
  | .rot => 0x24
  | .ld8 => 0x30
  | .st8 => 0x31
  | .ld16 => 0x32
  | .st16 => 0x33
  | .lit _ => 0x34
  | .lit2 _ => 0x35
  | .add => 0x40
  | .sub => 0x41
  | .and => 0x42
  | .or => 0x43
  | .xor => 0x44
  | .not => 0x45
  | .cmpReserved => 0x46
  | .jmp _ => 0x50
  | .call _ => 0x51
  | .ret => 0x52
  | .retz => 0x53
  | .bra _ => 0x54
  | .tor => 0x60
  | .fromr => 0x61
  | .waitvb => 0x62

/-- The operand bytes in address order: the service byte, the immediate or offset byte, or the 16-bit immediate
with its low byte first (R91, R93, R100). -/
def Instr.operandBytes : Instr → List Byte
  | .trace => [0x10]
  | .puts => [0x11]
  | .lit imm => [imm]
  | .bra off => [off]
  | .lit2 imm => [loByte imm, hiByte imm]
  | .jmp target => [loByte target, hiByte target]
  | .call target => [loByte target, hiByte target]
  | _ => []

/-- The bytes of an instruction, byte 0 first (R91). -/
def encode (i : Instr) : List Byte := i.opcode :: i.operandBytes

/-! ## The host's table words -/

/-- Byte `k` of the `n` bytes that the number `w` stands for, the first byte most significant: spec/INDEX.md says
the table reads an instruction's bytes as one number "with byte 0 (the opcode) as the most significant byte". -/
def tableByte (n w k : Nat) : Byte := BitVec.ofNat 8 (w >>> (8 * (n - 1 - k)))

/-- The bytes of a table word in address order, followed by zeros up to the longest instruction (3 bytes). -/
def tableBytes (nbits w : Nat) : List Byte :=
  let n := (nbits + 7) / 8
  (List.range n).map (tableByte n w) ++ List.replicate (3 - n) 0

/-- The instruction the decoder reads from a table word; none where it refuses. -/
def decodeTableWord (nbits w : Nat) : Option Instr :=
  match decode (tableBytes nbits w) with
  | .ok (i, _) => some i
  | .error _ => none

end Sys2Proof
end

