-- ==== Sys2Proof/Config.lean ====
section
/-!
DEFINITION. The parameters of spec/00_scope.md R6 that have more than one admitted value, and the memory
map of spec/20_memory.md R56 as data. The values R6 gives them stand in Sys2Proof/Machine/Params.lean.
-/
namespace Sys2Proof

/-- `DS_UNDERFLOW` (R24, D6): what popping an empty data stack does. -/
inductive DsUnderflow where
  /-- The pop returns 0 and leaves the stack as it is (the default). -/
  | lenientZero
  /-- The pop raises `DataStackUnderflow`. -/
  | strict
  deriving DecidableEq, Repr

/-- `VBLANK_WAIT` (R162, D16): what `WAITVB` does while the VBLANK flag is clear. -/
inductive VblankWait where
  /-- It succeeds at once (the default). -/
  | immediate
  /-- It leaves `pc` at its own opcode, so that the next step executes it again. -/
  | spin
  deriving DecidableEq, Repr

/-- `SPR16_FLIP` (R194, D24): how flips apply to a 16×16 sprite. -/
inductive SpriteFlip where
  /-- The whole 16×16 image mirrors (the default). -/
  | whole
  /-- Each 8×8 quadrant mirrors in place. -/
  | perTile
  deriving DecidableEq, Repr

/-- `RAM_INIT` (R242, D27): what RAM holds after construction. -/
inductive RamInit where
  /-- Every RAM byte is 0x00 (the default). -/
  | zero
  /-- Every RAM byte is a free draw. -/
  | arbitrary
  deriving DecidableEq, Repr

/-- The devices of the bus (R50, "a closed set of tagged variants"). -/
inductive Device where
  | rom
  | ram
  | ppu
  | controllerHub
  deriving DecidableEq, Repr

/-- What one window of the address map holds (R56, column "content"). -/
inductive Region where
  | rom
  | ram
  /-- Tile pixel store (R175). -/
  | tiles
  /-- Tilemap index grid (R172). -/
  | tmap
  /-- Tilemap attribute grid (R173). -/
  | tattr
  /-- Sprite table (R174). -/
  | oam
  /-- Palette RAM (R179). -/
  | pal
  /-- Display control (R176). -/
  | ctrl
  /-- Status, bit 7 the VBLANK flag (R177). -/
  | status
  | scrollX
  | scrollY
  /-- The latched pad bytes (R68). -/
  | latched
  /-- The controller hub's control byte (R68). -/
  | padCtrl
  deriving DecidableEq, Repr

/-- The device a region belongs to (R56, column "device"). -/
def Region.device : Region → Device
  | .rom => .rom
  | .ram => .ram
  | .tiles | .tmap | .tattr | .oam | .pal | .ctrl | .status | .scrollX | .scrollY => .ppu
  | .latched | .padCtrl => .controllerHub

/-- One row of the address map: `size` bytes from `base` hold `region` (R56). -/
structure Window where
  region : Region
  base : Nat
  size : Nat
  deriving DecidableEq, Repr

/-- The configuration of one machine (R6). No step and no host action changes it; it is carried in the
state so that every claim ranges over every configuration (DESIGN CHOICE, notes/assumptions/1.md). -/
structure Config where
  dsUnderflow : DsUnderflow
  vblankWait : VblankWait
  spriteFlip : SpriteFlip
  /-- `SPR16_ROW_STRIDE` (R194, D23). -/
  spriteRowStride : Nat
  /-- `HONOR_DISPLAY_CONTROL` (R200, D25). -/
  honorDisplayControl : Bool
  /-- `MAP_COLS` (R171, D21). -/
  mapCols : Nat
  /-- `MAP_ROWS` (R171, D21). -/
  mapRows : Nat
  ramInit : RamInit
  /-- The address map: the devices' windows in registration order (R51, R53, R56). -/
  map : List Window
  deriving DecidableEq, Repr

end Sys2Proof
end

