-- ==== Sys2Proof/Machine/Params.lean ====
section
/-!
DEFINITION. The values spec/00_scope.md R6 gives the parameters: stack capacities, the default address map
(spec/20_memory.md R56) and the default configuration.
-/
namespace Sys2Proof.Machine

/-- `DS_CAP` (R23, D7). -/
def dsCap : Nat := 256

/-- `RS_CAP` (R26, D7). -/
def rsCap : Nat := 256

/-- Bound on the bytes one `PUTS` reads (R114, D36). -/
def putsLimit : Nat := 65536

/-- The default address map in registration order ROM, RAM, PPU, controller hub (R53, R56, D18 to D20, D37). -/
def defaultMap : List Window :=
  [ ⟨.rom, 0x0000, 0x8000⟩,
    ⟨.ram, 0xC000, 0x4000⟩,
    ⟨.tiles, 0x8000, 0x2000⟩,
    ⟨.tmap, 0xA000, 0x0380⟩,
    ⟨.tattr, 0xA380, 0x0380⟩,
    ⟨.oam, 0xA700, 0x0100⟩,
    ⟨.pal, 0xA800, 0x0020⟩,
    ⟨.ctrl, 0xA820, 1⟩,
    ⟨.status, 0xA821, 1⟩,
    ⟨.scrollX, 0xA822, 1⟩,
    ⟨.scrollY, 0xA823, 1⟩,
    ⟨.latched, 0xB000, 2⟩,
    ⟨.padCtrl, 0xB002, 1⟩ ]

/-- The default configuration (R6, column "value"). -/
def defaultConfig : Config where
  dsUnderflow := .lenientZero
  vblankWait := .immediate
  spriteFlip := .whole
  spriteRowStride := 16
  honorDisplayControl := false
  mapCols := 32
  mapRows := 28
  ramInit := .zero
  map := defaultMap

/-- `START_PC` (R6, D42). -/
def defaultStartPc : Word := 0x0000

/-- `STATUS_ADDR` of the default map (R56, R162). -/
def defaultStatusAddr : Word := 0xA821

end Sys2Proof.Machine
end

