-- ==== Sys2Proof/Machine/State.lean ====
section
/-!
DEFINITION. The machine's whole state (spec/10_state.md), the fault record, the reasons a step could stop the
model, and the state after reset.
-/
namespace Sys2Proof.Machine

/-- What kind of bus access an `UnmappedAddress` came from (R31, R51, R52). -/
inductive Access where
  | fetch
  | read
  | write
  deriving DecidableEq, Repr

/-- The fault kinds (R211). -/
inductive FaultKind where
  | unmappedAddress
  | illegalOpcode
  | reservedOpcode
  | returnStackUnderflow
  | dataStackUnderflow
  | dataStackOverflow
  | returnStackOverflow
  deriving DecidableEq, Repr

/-- The diagnostic a fault leaves for the host (R31, R213). -/
structure FaultRecord where
  kind : FaultKind
  code : Byte
  /-- The faulting instruction's opcode address `A`. -/
  pc : Word
  /-- Absent only when the opcode fetch itself faulted (R211). -/
  opcode : Option Byte
  /-- The service byte, for an unknown `SYS` service (R211). -/
  sub : Option Byte
  addr : Option Word
  access : Option Access
  /-- The depth of the data stack before the faulting instruction (R211). -/
  dsDepth : Nat
  rsDepth : Nat
  deriving DecidableEq, Repr

/-- What the pseudocode's `raise` carries: the fault and its recorded info (R8, R211). -/
inductive Raise where
  | unmapped (addr : Word) (access : Access)
  | illegalOpcode (sub : Option Byte)
  | reservedOpcode
  | rsUnderflow
  | dsUnderflow
  | dsOverflow
  | rsOverflow
  deriving DecidableEq, Repr

/-- One byte for each of the `NUM_PADS = 2` pads (R6, R68, D40). -/
structure PadPair where
  pad0 : Byte
  pad1 : Byte
  deriving DecidableEq, Repr

/-- Byte storage as (bus address, byte) cells in one canonical form: addresses strictly rising, no cell 0x00.
An address without a cell reads as 0x00 (R36, D27, D28). -/
abbrev Memory := List Host.Cell

/-- The state of the machine (spec/10_state.md, opening tuple), and the configuration it runs under. -/
structure State where
  /-- The parameters (R6); nothing changes them. -/
  cfg : Config
  /-- Program counter (R21). Between steps it is the address of the next opcode. -/
  pc : Word
  /-- The `running` flag (R22). -/
  running : Bool
  /-- Data stack, the top FIRST (R23; notes/assumptions/2.md). -/
  ds : List Byte
  /-- Return stack, the top FIRST (R26; notes/assumptions/2.md). -/
  rs : List Byte
  /-- The fault record (R31). -/
  fault : Option FaultRecord
  /-- ROM, RAM and the PPU's five VRAM regions, by bus address (R33; notes/assumptions/3.md). -/
  mem : Memory
  /-- PPU display control (R176). -/
  ctrl : Byte
  /-- PPU status, bit 7 the VBLANK flag (R177). -/
  status : Byte
  /-- Background X scroll (R178). -/
  scrollX : Byte
  /-- Background Y scroll (R178). -/
  scrollY : Byte
  /-- The pads' live state, set by the host (R34, R69). -/
  live : PadPair
  /-- The latched pad bytes the CPU reads (R68). -/
  latched : PadPair
  /-- The controller hub's control byte (R68). -/
  padCtrl : Byte
  deriving DecidableEq, Repr

/-- The model stops with no fault: every fault the spec describes is TAKEN (R213), which is a next state with
`running = false` and the record written. So this type has no constructor, nobody raises it, and it is safe
(notes/assumptions/5.md). -/
inductive Fault : Type
  deriving DecidableEq, Repr

/-- The model refuses no instruction. -/
inductive Refusal where
  /-- Raised by an arm of `exec` whose instruction has no meaning yet; no arm raises it now. Safe: a run that
  meets it stops, so nothing false is proved of it. -/
  | notModelled (mnemonic : String)
  deriving DecidableEq, Repr

/-- The machine right after `reset(START_PC)`: constructed from the default configuration and an empty image
(R36, R241), then reset (R240). -/
def State.reset : State where
  cfg := defaultConfig
  pc := defaultStartPc
  running := true
  ds := []
  rs := []
  fault := none
  mem := []
  ctrl := 0x00
  status := 0x00
  scrollX := 0x00
  scrollY := 0x00
  live := ⟨0x00, 0x00⟩
  latched := ⟨0x00, 0x00⟩
  padCtrl := 0x00

end Sys2Proof.Machine
end

