-- ==== Sys2Proof/Machine/Ops.lean ====
section
/-!
DEFINITION. The named operations over state: field updates, byte storage, the bus (spec/20_memory.md), the two
stacks (spec/10_state.md R24 to R28), taking a fault (spec/60_exceptions.md R213) and CPU reset (R240).
-/
namespace Sys2Proof.Machine

/-! ## Field updates -/

def State.setPc (s : State) (v : Word) : State := { s with pc := v }
def State.setRunning (s : State) (v : Bool) : State := { s with running := v }
def State.setDs (s : State) (v : List Byte) : State := { s with ds := v }
def State.setRs (s : State) (v : List Byte) : State := { s with rs := v }
def State.setFault (s : State) (v : Option FaultRecord) : State := { s with fault := v }
def State.setMem (s : State) (v : Memory) : State := { s with mem := v }
def State.setCtrl (s : State) (v : Byte) : State := { s with ctrl := v }
def State.setStatus (s : State) (v : Byte) : State := { s with status := v }
def State.setScrollX (s : State) (v : Byte) : State := { s with scrollX := v }
def State.setScrollY (s : State) (v : Byte) : State := { s with scrollY := v }
def State.setLive (s : State) (v : PadPair) : State := { s with live := v }
def State.setLatched (s : State) (v : PadPair) : State := { s with latched := v }
def State.setPadCtrl (s : State) (v : Byte) : State := { s with padCtrl := v }

/-! ## Byte storage -/

/-- What an address without a cell reads as (R36: ROM remainder, RAM and VRAM are 0x00 at construction). -/
def unlisted : Byte := 0x00

/-- The stored byte at an address. -/
def Memory.read : Memory → Nat → Byte
  | [], _ => unlisted
  | (k, b) :: rest, a => if k = a then b else Memory.read rest a

/-- Store a byte, keeping the canonical form: storing what an unlisted address reads as removes the cell. -/
def Memory.write : Memory → Nat → Byte → Memory
  | [], a, v => if v = unlisted then [] else [(a, v)]
  | (k, b) :: rest, a, v =>
    if a < k then (if v = unlisted then (k, b) :: rest else (a, v) :: (k, b) :: rest)
    else if a = k then (if v = unlisted then rest else (a, v) :: rest)
    else (k, b) :: Memory.write rest a v

/-- The canonical form: addresses strictly rising, no cell that reads as an unlisted address does. -/
def Memory.wf (m : Memory) : Bool :=
  decide (m.Pairwise fun x y => x.1 < y.1) && m.all fun c => c.2 != unlisted

/-! ## The controller hub's pads (R68, R69) -/

/-- Byte `j` of the pair. A well-formed configuration only asks for pads 0 and 1. -/
def PadPair.get (p : PadPair) (j : Nat) : Byte := if j = 0 then p.pad0 else p.pad1

/-- The pair with byte `j` replaced. -/
def PadPair.set (p : PadPair) (j : Fin 2) (v : Byte) : PadPair :=
  if j = 0 then { p with pad0 := v } else { p with pad1 := v }

/-- `latched[j] <- live[j]` for every `j` (R68, R69). -/
def latchPads (s : State) : State := s.setLatched s.live

/-! ## The bus -/

/-- `handles(addr)` of one window (R50). -/
def windowHandles (w : Window) (a : Word) : Bool :=
  decide (w.base ≤ a.toNat) && decide (a.toNat < w.base + w.size)

/-- The first window, in registration order, that handles the address (R51, R53). -/
def findWindow (c : Config) (a : Word) : Option Window := c.map.find? fun w => windowHandles w a

/-- Whether a region's bytes are kept in `mem` (ROM, RAM and the five VRAM regions, R33). -/
def isStorage : Region → Bool
  | .rom | .ram | .tiles | .tmap | .tattr | .oam | .pal => true
  | .ctrl | .status | .scrollX | .scrollY | .latched | .padCtrl => false

/-- `read8` of the device that owns window `w` (R65 to R68). It changes nothing (R64). -/
def readWindow (s : State) (w : Window) (a : Word) : Byte :=
  match w.region with
  | .rom | .ram | .tiles | .tmap | .tattr | .oam | .pal => s.mem.read a.toNat
  | .ctrl => s.ctrl
  | .status => s.status
  | .scrollX => s.scrollX
  | .scrollY => s.scrollY
  | .latched => s.latched.get (a.toNat - w.base)
  | .padCtrl => s.padCtrl

/-- `pad_ctrl <- v`, latching the pads when bit 0 of `v` is 1 (R68). -/
def writePadCtrl (s : State) (v : Byte) : State :=
  if v.getLsbD 0 then latchPads (s.setPadCtrl v) else s.setPadCtrl v

/-- `write8` of the device that owns window `w`: ROM and the latched pad bytes discard the write (R65, R68),
the rest store it (R66, R67). -/
def writeWindow (s : State) (w : Window) (a : Word) (v : Byte) : State :=
  match w.region with
  | .rom | .latched => s
  | .ram | .tiles | .tmap | .tattr | .oam | .pal => s.setMem (s.mem.write a.toNat v)
  | .ctrl => s.setCtrl v
  | .status => s.setStatus v
  | .scrollX => s.setScrollX v
  | .scrollY => s.setScrollY v
  | .padCtrl => writePadCtrl s v

/-- `bus.read8` (R51); none where no device claims the address. -/
def busRead (s : State) (a : Word) : Option Byte :=
  match findWindow s.cfg a with
  | some w => some (readWindow s w a)
  | none => none

/-- `bus.write8` (R52); none where no device claims the address. -/
def busWrite (s : State) (a : Word) (v : Byte) : Option State :=
  match findWindow s.cfg a with
  | some w => some (writeWindow s w a v)
  | none => none

/-- `MemRead(addr, 1)` of the CPU, with the access a miss is reported as (R8, R51). -/
def memRead (s : State) (a : Word) (access : Access) : Except Raise Byte :=
  match busRead s a with
  | some v => .ok v
  | none => .error (.unmapped a access)

/-- `MemWrite(addr, 1, v)` of the CPU (R8, R52). -/
def memWrite (s : State) (a : Word) (v : Byte) : Except Raise State :=
  match busWrite s a v with
  | some t => .ok t
  | none => .error (.unmapped a .write)

/-! ## The stacks -/

/-- `PopD()` (R24). -/
def popD (s : State) : Except Raise (Byte × State) :=
  match s.ds with
  | v :: rest => .ok (v, s.setDs rest)
  | [] =>
    match s.cfg.dsUnderflow with
    | .lenientZero => .ok (0, s)
    | .strict => .error .dsUnderflow

/-- `PushD(v)` (R25). -/
def pushD (s : State) (v : Byte) : Except Raise State :=
  if dsCap ≤ s.ds.length then .error .dsOverflow else .ok (s.setDs (v :: s.ds))

/-- `PopR()` (R27). -/
def popR (s : State) : Except Raise (Byte × State) :=
  match s.rs with
  | v :: rest => .ok (v, s.setRs rest)
  | [] => .error .rsUnderflow

/-- `PushR(v)` (R28). -/
def pushR (s : State) (v : Byte) : Except Raise State :=
  if rsCap ≤ s.rs.length then .error .rsOverflow else .ok (s.setRs (v :: s.rs))

/-! ## Taking a fault -/

/-- The fault a raise is (R211). -/
def Raise.kind : Raise → FaultKind
  | .unmapped _ _ => .unmappedAddress
  | .illegalOpcode _ => .illegalOpcode
  | .reservedOpcode => .reservedOpcode
  | .rsUnderflow => .returnStackUnderflow
  | .dsUnderflow => .dataStackUnderflow
  | .dsOverflow => .dataStackOverflow
  | .rsOverflow => .returnStackOverflow

/-- The fault codes (R211). -/
def FaultKind.code : FaultKind → Byte
  | .unmappedAddress => 1
  | .illegalOpcode => 2
  | .reservedOpcode => 3
  | .returnStackUnderflow => 4
  | .dataStackUnderflow => 5
  | .dataStackOverflow => 6
  | .returnStackOverflow => 7

/-- `addr` of the recorded info (R211). -/
def Raise.addr? : Raise → Option Word
  | .unmapped a _ => some a
  | _ => none

/-- `access` of the recorded info (R211). -/
def Raise.access? : Raise → Option Access
  | .unmapped _ x => some x
  | _ => none

/-- `sub` of the recorded info (R211). -/
def Raise.sub? : Raise → Option Byte
  | .illegalOpcode sub => sub
  | _ => none

/-- The record of fault `r` in the step that starts at `s`, with the opcode if it was fetched (R213). -/
def faultRecord (op : Option Byte) (r : Raise) (s : State) : FaultRecord where
  kind := r.kind
  code := r.kind.code
  pc := s.pc
  opcode := op
  sub := r.sub?
  addr := r.addr?
  access := r.access?
  dsDepth := s.ds.length
  rsDepth := s.rs.length

/-- `TakeFault` (R213, R214), where `s` is the state BEFORE the step: every item is as it was, `pc` is the
opcode's address, `running` is false and the record is written. The machine has no return from a fault (R217). -/
def takeFault (op : Option Byte) (r : Raise) (s : State) : State :=
  (s.setRunning false).setFault (some (faultRecord op r s))

/-- CPU `reset(start_pc)` (R240): the one way out of a halt or a fault (R217). It changes CPU state only. -/
def cpuReset (startPc : Nat) (s : State) : State :=
  ((((s.setDs []).setRs []).setPc (BitVec.ofNat 16 startPc)).setRunning true).setFault none

/-! ## Running one instruction -/

/-- Run the pseudocode `body` of instruction `i` in state `s`, whose `pc` is the opcode's address: the body starts
with `pc` after the instruction's bytes (R21, R90), and a fault it raises replaces its whole effect (R213). -/
def perform (i : Instr) (body : State → Except Raise State) (s : State) :
    Host.Outcome State Fault Refusal :=
  match body (s.setPc (s.pc + BitVec.ofNat 16 i.length)) with
  | .ok t => .next t
  | .error r => .next (takeFault (some i.opcode) r s)

/-- Put a byte where a fetch reads it: the contents of ROM, RAM or VRAM, a device register or a latched pad byte.
An address no device claims has nowhere to put it. This is the host loading the machine, not a bus write (R243). -/
def pokeByte (s : State) (a : Word) (v : Byte) : State :=
  match findWindow s.cfg a with
  | none => s
  | some w =>
    match w.region with
    | .rom | .ram | .tiles | .tmap | .tattr | .oam | .pal => s.setMem (s.mem.write a.toNat v)
    | .ctrl => s.setCtrl v
    | .status => s.setStatus v
    | .scrollX => s.setScrollX v
    | .scrollY => s.setScrollY v
    | .latched => s.setLatched (s.latched.set (if a.toNat - w.base = 0 then 0 else 1) v)
    | .padCtrl => s.setPadCtrl v

end Sys2Proof.Machine
end

