-- ==== Sys2Proof/Machine/Operands.lean ====
section
/-!
DEFINITION. Operands assembled from the stacks and 16-bit accesses (spec/30_encoding.md R96, spec/20_memory.md R59, R62).
-/
namespace Sys2Proof.Machine

/-- Two cells of the data stack as a 16-bit value, the high byte popped first (R96). -/
def popWordD (s : State) : Except Raise (Word × State) := do
  let (hi, s) ← popD s
  let (lo, s) ← popD s
  .ok (joinBytes hi lo, s)

/-- The operand pair of a binary operation, the right operand popped first: `(a, b)` (R96, R140). -/
def popPairD (s : State) : Except Raise (Byte × Byte × State) := do
  let (b, s) ← popD s
  let (a, s) ← popD s
  .ok (a, b, s)

/-- Two cells of the return stack as an address, the low byte popped first (R29, R152). -/
def popWordR (s : State) : Except Raise (Word × State) := do
  let (lo, s) ← popR s
  let (hi, s) ← popR s
  .ok (joinBytes hi lo, s)

/-- An address onto the return stack, the high byte pushed first (R29, R151). -/
def pushWordR (s : State) (a : Word) : Except Raise State := do
  let s ← pushR s (hiByte a)
  pushR s (loByte a)

/-- Two data cells pushed in order, the second on top. -/
def pushTwoD (s : State) (first second : Byte) : Except Raise State := do
  let s ← pushD s first
  pushD s second

/-- The address after `a`, modulo 0x10000 (R60, R62). -/
def nextAddr (a : Word) : Word := a + 1

/-- A 16-bit load: the low byte from `a`, then the high byte from the address after it (R59, R62, R134). -/
def memRead16 (s : State) (a : Word) : Except Raise (Byte × Byte) := do
  let lo ← memRead s a .read
  let hi ← memRead s (nextAddr a) .read
  .ok (lo, hi)

/-- A 16-bit store: the low byte to `a`, then the high byte to the address after it (R59, R62, R135). -/
def memWrite16 (s : State) (a : Word) (lo hi : Byte) : Except Raise State := do
  let s ← memWrite s a lo
  memWrite s (nextAddr a) hi

end Sys2Proof.Machine
end

