-- ==== Sys2Proof/Machine/Alu.lean ====
section
/-!
DEFINITION. ALU instructions (spec/43_alu.md): ADD, SUB, AND, OR, XOR, NOT, and the reserved opcode 0x46. Results
wrap modulo 256 and no flag records it (R140).
-/
namespace Sys2Proof.Machine

/-- `Binary(f)` (R140): the right operand popped first, one result pushed. -/
def bodyBinary (f : Byte → Byte → Byte) (s : State) : Except Raise State := do
  let (a, b, s) ← popPairD s
  pushD s (f a b)

/-- `NOT` (R146). -/
def bodyNot (s : State) : Except Raise State := do
  let (a, s) ← popD s
  pushD s (~~~a)

/-- `ADD` (R141). -/
def execAdd (s : State) : Host.Outcome State Fault Refusal := perform .add (bodyBinary fun a b => a + b) s

/-- `SUB` (R142): the second-from-top minus the top. -/
def execSub (s : State) : Host.Outcome State Fault Refusal := perform .sub (bodyBinary fun a b => a - b) s

/-- `AND` (R143). -/
def execAnd (s : State) : Host.Outcome State Fault Refusal := perform .and (bodyBinary fun a b => a &&& b) s

/-- `OR` (R144). -/
def execOr (s : State) : Host.Outcome State Fault Refusal := perform .or (bodyBinary fun a b => a ||| b) s

/-- `XOR` (R145). -/
def execXor (s : State) : Host.Outcome State Fault Refusal := perform .xor (bodyBinary fun a b => a ^^^ b) s

/-- `NOT` (R146). -/
def execNot (s : State) : Host.Outcome State Fault Refusal := perform .not bodyNot s

/-- Opcode 0x46 (R99, R147): it takes the `ReservedOpcode` fault before any operand is popped. -/
def execCmpReserved (s : State) : Host.Outcome State Fault Refusal :=
  perform .cmpReserved (fun _ => .error .reservedOpcode) s

end Sys2Proof.Machine
end

