-- ==== Sys2Proof/Machine/Control.lean ====
section
/-!
DEFINITION. Control-flow instructions (spec/44_control.md): JMP, CALL, RET, RETZ, BRA. A body starts with `pc`
after the instruction's bytes.
-/
namespace Sys2Proof.Machine

/-- `CALL imm16` (R151): the return address pushed, high byte first, then the jump. -/
def bodyCall (target : Word) (s : State) : Except Raise State := do
  let s ← pushWordR s s.pc
  .ok (s.setPc target)

/-- `RET` (R152). -/
def bodyRet (s : State) : Except Raise State := do
  let (a, s) ← popWordR s
  .ok (s.setPc a)

/-- `RETZ` (R153): returns only if the byte popped from the data stack is zero. -/
def bodyRetz (s : State) : Except Raise State := do
  let (f, s) ← popD s
  if f = 0 then bodyRet s else .ok s

/-- `JMP imm16` (R150). -/
def execJmp (target : Word) (s : State) : Host.Outcome State Fault Refusal :=
  perform (.jmp target) (fun t => .ok (t.setPc target)) s

def execCall (target : Word) (s : State) : Host.Outcome State Fault Refusal :=
  perform (.call target) (bodyCall target) s

def execRet (s : State) : Host.Outcome State Fault Refusal := perform .ret bodyRet s
def execRetz (s : State) : Host.Outcome State Fault Refusal := perform .retz bodyRetz s

/-- `BRA off8` (R94, R154): the displacement is added to the `pc` after the offset byte. -/
def execBra (off : Byte) (s : State) : Host.Outcome State Fault Refusal :=
  perform (.bra off) (fun t => .ok (t.setPc (t.pc + sext16 off))) s

end Sys2Proof.Machine
end

