-- ==== Sys2Proof/Machine/Flags.lean ====
section
/-!
DEFINITION. The machine has no condition flags: no flags register, no condition codes (spec/10_state.md R30, R37),
so no instruction computes one. Its only flag is VBLANK, bit 7 of the PPU's `status` (spec/50_ppu.md R177).
-/
namespace Sys2Proof.Machine

/-- The VBLANK flag of a status byte (R177). -/
def vblankFlag (status : Byte) : Bool := status.getLsbD 7

/-- A status byte with the VBLANK flag cleared, bits 6:0 kept (R162, `s & 0x7F`). -/
def clearVblank (status : Byte) : Byte := status &&& 0x7F

/-- A status byte with the VBLANK flag set (R246, `status | 0x80`). -/
def setVblank (status : Byte) : Byte := status ||| 0x80

/-- `STATUS_ADDR`: where the map puts the status register (R56, R162); none for a map without one. -/
def statusAddr (c : Config) : Option Word :=
  match c.map.find? (fun w => w.region == Region.status) with
  | some w => some (BitVec.ofNat 16 w.base)
  | none => none

/-- The address `WAITVB` uses. A map without a status register is an `UnmappedAddress` read (R162), reported at the
default address (notes/assumptions/9.md). -/
def statusRegister (c : Config) : Except Raise Word :=
  match statusAddr c with
  | some a => .ok a
  | none => .error (.unmapped defaultStatusAddr .read)

end Sys2Proof.Machine
end

