-- ==== Sys2Proof/Machine/IoTiming.lean ====
section
/-!
DEFINITION. I/O and timing instructions (spec/45_io_timing.md): TOR, FROMR, WAITVB.
-/
namespace Sys2Proof.Machine

/-- `TOR` (R160). -/
def bodyTor (s : State) : Except Raise State := do
  let (v, s) ← popD s
  pushR s v

/-- `FROMR` (R161). -/
def bodyFromr (s : State) : Except Raise State := do
  let (v, s) ← popR s
  pushD s v

/-- Whether `WAITVB` goes on with this status byte (R162). -/
def vblankReady (c : Config) (status : Byte) : Bool :=
  decide (c.vblankWait = .immediate) || vblankFlag status

/-- `WAITVB` (R162), at opcode address `opcodeAddr`: clears the VBLANK flag and goes on, or, under `spin` with the
flag clear, puts `pc` back on the opcode. -/
def bodyWaitvb (opcodeAddr : Word) (s : State) : Except Raise State := do
  let a ← statusRegister s.cfg
  let status ← memRead s a .read
  if vblankReady s.cfg status then memWrite s a (clearVblank status)
  else .ok (s.setPc opcodeAddr)

def execTor (s : State) : Host.Outcome State Fault Refusal := perform .tor bodyTor s
def execFromr (s : State) : Host.Outcome State Fault Refusal := perform .fromr bodyFromr s
def execWaitvb (s : State) : Host.Outcome State Fault Refusal := perform .waitvb (bodyWaitvb s.pc) s

end Sys2Proof.Machine
end

