-- ==== Sys2Proof/Machine/Literal.lean ====
section
/-!
DEFINITION. Literal and addressing instructions (spec/42_literal_memory.md): LIT, LIT2, LD8, ST8, LD16, ST16.
Addresses are popped before values (R133, R135, D5).
-/
namespace Sys2Proof.Machine

/-- `LD8` (R132). -/
def bodyLd8 (s : State) : Except Raise State := do
  let (a, s) ← popWordD s
  let v ← memRead s a .read
  pushD s v

/-- `ST8` (R133). -/
def bodySt8 (s : State) : Except Raise State := do
  let (a, s) ← popWordD s
  let (v, s) ← popD s
  memWrite s a v

/-- `LD16` (R134). -/
def bodyLd16 (s : State) : Except Raise State := do
  let (a, s) ← popWordD s
  let (lo, hi) ← memRead16 s a
  pushTwoD s lo hi

/-- `ST16` (R135). -/
def bodySt16 (s : State) : Except Raise State := do
  let (a, s) ← popWordD s
  let (hi, s) ← popD s
  let (lo, s) ← popD s
  memWrite16 s a lo hi

/-- `LIT imm8` (R130). -/
def execLit (imm : Byte) (s : State) : Host.Outcome State Fault Refusal :=
  perform (.lit imm) (fun t => pushD t imm) s

/-- `LIT2 imm16` (R131): the low byte pushed first. -/
def execLit2 (imm : Word) (s : State) : Host.Outcome State Fault Refusal :=
  perform (.lit2 imm) (fun t => pushTwoD t (loByte imm) (hiByte imm)) s

def execLd8 (s : State) : Host.Outcome State Fault Refusal := perform .ld8 bodyLd8 s
def execSt8 (s : State) : Host.Outcome State Fault Refusal := perform .st8 bodySt8 s
def execLd16 (s : State) : Host.Outcome State Fault Refusal := perform .ld16 bodyLd16 s
def execSt16 (s : State) : Host.Outcome State Fault Refusal := perform .st16 bodySt16 s

end Sys2Proof.Machine
end

