-- ==== Sys2Proof/Machine/Stack.lean ====
section
/-!
DEFINITION. Stack manipulation instructions (spec/41_stack.md): DROP, DUP, SWAP, OVER, ROT. Each pops all its
inputs, then pushes (D12).
-/
namespace Sys2Proof.Machine

/-- `DROP` (R120). -/
def bodyDrop (s : State) : Except Raise State := do
  let (_, s) ← popD s
  .ok s

/-- `DUP` (R121). -/
def bodyDup (s : State) : Except Raise State := do
  let (a, s) ← popD s
  let s ← pushD s a
  pushD s a

/-- `SWAP` (R122). -/
def bodySwap (s : State) : Except Raise State := do
  let (b, s) ← popD s
  let (a, s) ← popD s
  let s ← pushD s b
  pushD s a

/-- `OVER` (R123). -/
def bodyOver (s : State) : Except Raise State := do
  let (b, s) ← popD s
  let (a, s) ← popD s
  let s ← pushD s a
  let s ← pushD s b
  pushD s a

/-- `ROT` (R124): the third cell moves to the top. -/
def bodyRot (s : State) : Except Raise State := do
  let (c, s) ← popD s
  let (b, s) ← popD s
  let (a, s) ← popD s
  let s ← pushD s b
  let s ← pushD s c
  pushD s a

def execDrop (s : State) : Host.Outcome State Fault Refusal := perform .drop bodyDrop s
def execDup (s : State) : Host.Outcome State Fault Refusal := perform .dup bodyDup s
def execSwap (s : State) : Host.Outcome State Fault Refusal := perform .swap bodySwap s
def execOver (s : State) : Host.Outcome State Fault Refusal := perform .overCopy bodyOver s
def execRot (s : State) : Host.Outcome State Fault Refusal := perform .rot bodyRot s

end Sys2Proof.Machine
end

