-- ==== Sys2Proof/Machine/System.lean ====
section
/-!
DEFINITION. System and control instructions (spec/40_system.md): NOP, TRACE, PUTS, HALT. Every meaning takes the
state before the step, with `pc` at the opcode.
-/
namespace Sys2Proof.Machine

/-- `NOP` (R111). -/
def execNop (s : State) : Host.Outcome State Fault Refusal := perform .nop (fun t => .ok t) s

/-- `TRACE` (R113): no state changes but `pc`; what the host sees is `hostOutput` (Machine/Output.lean). -/
def execTrace (s : State) : Host.Outcome State Fault Refusal := perform .trace (fun t => .ok t) s

/-- The loop of `PUTS` (R114) from address `a`, for at most `n` bytes: the characters it shows, and the first
unmapped address it meets. -/
def putsScan (s : State) : Nat → Word → List Byte × Option Word
  | 0, _ => ([], none)
  | n + 1, a =>
    match busRead s a with
    | none => ([], some a)
    | some b =>
      if b = 0 then ([], none)
      else
        let rest := putsScan s n (a + 1)
        (b :: rest.1, rest.2)

/-- The body of `PUTS` (R114): the address popped, the string read. -/
def bodyPuts (s : State) : Except Raise State := do
  let (a, s) ← popWordD s
  match (putsScan s putsLimit a).2 with
  | some miss => .error (.unmapped miss .read)
  | none => .ok s

/-- `PUTS` (R114): pops an address and reads a string through the bus; its output is `hostOutput`. -/
def execPuts (s : State) : Host.Outcome State Fault Refusal := perform .puts bodyPuts s

/-- `HALT` (R115): clears `running`; `fault` stays as it is. -/
def execHalt (s : State) : Host.Outcome State Fault Refusal :=
  perform .halt (fun t => .ok (t.setRunning false)) s

end Sys2Proof.Machine
end

