-- ==== Sys2Proof/Machine/Dispatch.lean ====
section
/-!
DEFINITION. One arm per instruction (spec/30_encoding.md R97, R100), each one call of its meaning.
-/
namespace Sys2Proof.Machine

/-- The meaning of an instruction in the state before its step, `pc` at its opcode. -/
def exec (i : Instr) (s : State) : Host.Outcome State Fault Refusal :=
  match i with
  | .nop => Sys2Proof.Machine.execNop s
  | .trace => Sys2Proof.Machine.execTrace s
  | .puts => Sys2Proof.Machine.execPuts s
  | .halt => Sys2Proof.Machine.execHalt s
  | .drop => Sys2Proof.Machine.execDrop s
  | .dup => Sys2Proof.Machine.execDup s
  | .swap => Sys2Proof.Machine.execSwap s
  | .overCopy => Sys2Proof.Machine.execOver s
  | .rot => Sys2Proof.Machine.execRot s
  | .ld8 => Sys2Proof.Machine.execLd8 s
  | .st8 => Sys2Proof.Machine.execSt8 s
  | .ld16 => Sys2Proof.Machine.execLd16 s
  | .st16 => Sys2Proof.Machine.execSt16 s
  | .lit imm => Sys2Proof.Machine.execLit imm s
  | .lit2 imm => Sys2Proof.Machine.execLit2 imm s
  | .add => Sys2Proof.Machine.execAdd s
  | .sub => Sys2Proof.Machine.execSub s
  | .and => Sys2Proof.Machine.execAnd s
  | .or => Sys2Proof.Machine.execOr s
  | .xor => Sys2Proof.Machine.execXor s
  | .not => Sys2Proof.Machine.execNot s
  | .cmpReserved => Sys2Proof.Machine.execCmpReserved s
  | .jmp target => Sys2Proof.Machine.execJmp target s
  | .call target => Sys2Proof.Machine.execCall target s
  | .ret => Sys2Proof.Machine.execRet s
  | .retz => Sys2Proof.Machine.execRetz s
  | .bra off => Sys2Proof.Machine.execBra off s
  | .tor => Sys2Proof.Machine.execTor s
  | .fromr => Sys2Proof.Machine.execFromr s
  | .waitvb => Sys2Proof.Machine.execWaitvb s

end Sys2Proof.Machine
end

