-- ==== Sys2Proof/Machine/Fetch.lean ====
section
/-!
DEFINITION. Fetching an instruction through the bus (spec/20_memory.md R61, R74; spec/40_system.md R110) and what a
fetch or a decode that fails raises (spec/60_exceptions.md R211, R215).
-/
namespace Sys2Proof.Machine

/-- `Fetch8()` of byte `k` of the instruction at `pc` (R8, R91). -/
def fetchByte (s : State) (k : Nat) : Except Raise Byte := memRead s (s.pc + BitVec.ofNat 16 k) .fetch

/-- Fetch and decode the instruction at `pc`. -/
def fetchInstr (s : State) : Except (Reject Raise) Instr := decodeFrom (fetchByte s)

/-- The opcode byte, if it was fetched (R213). -/
def rejectOpcode : Reject Raise → Option Byte
  | .noOpcode _ => none
  | .noOperand op _ => some op
  | .illegalOpcode op => some op
  | .illegalService op _ => some op

/-- The fault that a failed fetch or decode raises (R98, R112, R211). -/
def rejectRaise : Reject Raise → Raise
  | .noOpcode e => e
  | .noOperand _ e => e
  | .illegalOpcode _ => .illegalOpcode none
  | .illegalService _ sub => .illegalOpcode (some sub)

/-- Take the fault of a failed fetch or decode. -/
def takeReject (e : Reject Raise) (s : State) : State := takeFault (rejectOpcode e) (rejectRaise e) s

/-- Put bytes where the fetch at `pc` reads them, and let the CPU run: the host loading a program (R243, R244). -/
def placeBytes (s : State) : Nat → List Byte → State
  | _, [] => s
  | k, b :: bs => placeBytes (pokeByte s (s.pc + BitVec.ofNat 16 k) b) (k + 1) bs

end Sys2Proof.Machine
end

