-- ==== Sys2Proof/Machine/Step.lean ====
section
/-!
DEFINITION. One step of the CPU (spec/40_system.md R110), and the host's placing of an instruction at `pc`.
-/
namespace Sys2Proof.Machine

/-- `step()` (R110): nothing while halted; else fetch, decode and execute one instruction. -/
def step (s : State) : Host.Outcome State Fault Refusal :=
  if s.running then
    match fetchInstr s with
    | .ok i => exec i s
    | .error e => .next (takeReject e s)
  else .next s

/-- The state with an instruction placed where `step` fetches next (notes/assumptions/7.md). -/
def State.withFetchWord (s : State) (nbits w : Nat) : State :=
  placeBytes (s.setRunning true) 0 (tableBytes nbits w)

end Sys2Proof.Machine
end

