-- ==== Sys2Proof/Machine/Assembler.lean ====
section
/-!
DEFINITION. The spec's assembler syntax (spec/30_encoding.md R102, R103) and what a source text assembles to. It is
no part of the machine's step; it is how the spec writes programs (notes/assumptions/21.md).
-/
namespace Sys2Proof.Machine

/-! ## Syntax -/

/-- The mnemonics: those of R97 in upper case, and the aliases `TRACE` and `PUTS` (R102, R103). The reserved opcode
has no mnemonic an assembler accepts. -/
inductive Mnemonic where
  | nop | sys | trace | puts | halt
  | drop | dup | swap | overCopy | rot
  | ld8 | st8 | ld16 | st16 | lit | lit2
  | add | sub | and | or | xor | not
  | jmp | call | ret | retz | bra
  | tor | fromr | waitvb
  deriving DecidableEq, Repr

/-- An operand as it is written: a number or a label (R102). -/
inductive AsmOperand where
  | number (n : Int)
  | label (name : String)
  deriving DecidableEq, Repr

/-- One item of a source text (R102). -/
inductive AsmItem where
  | label (name : String)
  | org (addr : Int)
  | bytes (values : List Int)
  | instr (m : Mnemonic) (operand : Option AsmOperand)
  deriving DecidableEq, Repr

/-- Why a text does not assemble. -/
inductive AsmError where
  /-- A word that is neither a mnemonic nor a directive, or an operand that is neither a number nor a label. -/
  | badWord (w : String)
  /-- An operand too many, too few, or of a kind the mnemonic does not take. -/
  | badOperand (m : Mnemonic)
  /-- A number or an offset outside the field it goes into. -/
  | outOfRange (n : Int)
  | unknownLabel (name : String)
  | repeatedLabel (name : String)
  deriving DecidableEq, Repr

/-! ## Assembling items -/

/-- The labels and their addresses. -/
abbrev AsmLabels := List (String × Nat)

/-- The length in bytes, from the mnemonic alone (R101). -/
def Mnemonic.length : Mnemonic → Nat
  | .sys | .trace | .puts | .lit | .bra => 2
  | .lit2 | .jmp | .call => 3
  | _ => 1

/-- A number that fits an unsigned field of `n` bits. -/
def unsignedField (n : Nat) (v : Int) : Except AsmError (BitVec n) :=
  if 0 ≤ v ∧ v < 2 ^ n then .ok (BitVec.ofInt n v) else .error (.outOfRange v)

/-- A number that fits the signed offset byte, -128..127 (R94, R102). -/
def offsetField (v : Int) : Except AsmError Byte :=
  if -128 ≤ v ∧ v ≤ 127 then .ok (BitVec.ofInt 8 v) else .error (.outOfRange v)

/-- The address of a label. -/
def labelAddr (ls : AsmLabels) (name : String) : Except AsmError Nat :=
  match ls.find? (fun l => l.1 == name) with
  | some l => .ok l.2
  | none => .error (.unknownLabel name)

/-- The 16-bit operand of `JMP` and `CALL`: a number or a label (R102). -/
def targetField (ls : AsmLabels) (m : Mnemonic) : Option AsmOperand → Except AsmError Word
  | some (.number n) => unsignedField 16 n
  | some (.label name) => do unsignedField 16 (← labelAddr ls name)
  | none => .error (.badOperand m)

/-- The offset of `BRA` at address `a`: a signed number, as it stands (vector V1 of spec/95_test_vectors.md gives
`BRA -5` as 54 FB), or a label less `a + 2` (R102). -/
def branchField (ls : AsmLabels) (a : Nat) : Option AsmOperand → Except AsmError Byte
  | some (.number n) => offsetField n
  | some (.label name) => do offsetField ((← labelAddr ls name : Nat) - (a + 2 : Nat) : Int)
  | none => .error (.badOperand .bra)

/-- The operand of `LIT`, `LIT2` and `SYS`: a number only (R102). -/
def numberField (n : Nat) (m : Mnemonic) : Option AsmOperand → Except AsmError (BitVec n)
  | some (.number v) => unsignedField n v
  | _ => .error (.badOperand m)

/-- An instruction that takes no operand. -/
def plainInstr (m : Mnemonic) (i : Instr) : Option AsmOperand → Except AsmError (List Byte)
  | none => .ok (encode i)
  | some _ => .error (.badOperand m)

/-- The bytes of an instruction line at address `a` (R102, R103). -/
def assembleInstr (ls : AsmLabels) (a : Nat) (m : Mnemonic) (operand : Option AsmOperand) :
    Except AsmError (List Byte) :=
  match m with
  | .sys => do
    let sub : Byte ← numberField 8 .sys operand
    .ok [0x01, sub]
  | .lit => do .ok (encode (.lit (← numberField 8 .lit operand)))
  | .lit2 => do .ok (encode (.lit2 (← numberField 16 .lit2 operand)))
  | .jmp => do .ok (encode (.jmp (← targetField ls .jmp operand)))
  | .call => do .ok (encode (.call (← targetField ls .call operand)))
  | .bra => do .ok (encode (.bra (← branchField ls a operand)))
  | .nop => plainInstr .nop .nop operand
  | .trace => plainInstr .trace .trace operand
  | .puts => plainInstr .puts .puts operand
  | .halt => plainInstr .halt .halt operand
  | .drop => plainInstr .drop .drop operand
  | .dup => plainInstr .dup .dup operand
  | .swap => plainInstr .swap .swap operand
  | .overCopy => plainInstr .overCopy .overCopy operand
  | .rot => plainInstr .rot .rot operand
  | .ld8 => plainInstr .ld8 .ld8 operand
  | .st8 => plainInstr .st8 .st8 operand
  | .ld16 => plainInstr .ld16 .ld16 operand
  | .st16 => plainInstr .st16 .st16 operand
  | .add => plainInstr .add .add operand
  | .sub => plainInstr .sub .sub operand
  | .and => plainInstr .and .and operand
  | .or => plainInstr .or .or operand
  | .xor => plainInstr .xor .xor operand
  | .not => plainInstr .not .not operand
  | .ret => plainInstr .ret .ret operand
  | .retz => plainInstr .retz .retz operand
  | .tor => plainInstr .tor .tor operand
  | .fromr => plainInstr .fromr .fromr operand
  | .waitvb => plainInstr .waitvb .waitvb operand

/-- The labels of a text whose first item stands at `a`: each at the address then current (R102).
DESIGN CHOICE (unsafe for such a text, notes/assumptions/21.md): R102 is silent on a current address past 0xFFFF, and
the address counts on to 0x10000 and beyond, neither wrapping nor refused. A label defined twice is refused (safe). -/
def collectLabels (a : Nat) : List AsmItem → Except AsmError AsmLabels
  | [] => .ok []
  | .label name :: rest => do
    let ls ← collectLabels a rest
    if ls.any (fun l => l.1 == name) then .error (.repeatedLabel name) else .ok ((name, a) :: ls)
  | .org n :: rest => do
    let addr : Word ← unsignedField 16 n
    collectLabels addr.toNat rest
  | .bytes vs :: rest => collectLabels (a + vs.length) rest
  | .instr m _ :: rest => collectLabels (a + m.length) rest

/-- Bytes at consecutive addresses (R91).
DESIGN CHOICE (unsafe for such a text, notes/assumptions/21.md): past 0xFFFF, where R102 is silent and R91 wraps the
bytes of an instruction in memory, the addresses count on to 0x10000 and beyond. -/
def placedFrom : Nat → List Byte → List (Nat × Byte)
  | _, [] => []
  | a, b :: bs => (a, b) :: placedFrom (a + 1) bs

/-- The bytes a text puts at addresses, in the order of the text (R102).
DESIGN CHOICE (unsafe for such a text, notes/assumptions/21.md): a current address past 0xFFFF, on which R102 is silent,
counts on to 0x10000 and beyond, neither wrapping nor refused; only `.org` takes 16 bits. -/
def assembleFrom (ls : AsmLabels) (a : Nat) : List AsmItem → Except AsmError (List (Nat × Byte))
  | [] => .ok []
  | .label _ :: rest => assembleFrom ls a rest
  | .org n :: rest => do
    let addr : Word ← unsignedField 16 n
    assembleFrom ls addr.toNat rest
  | .bytes vs :: rest => do
    let bs ← vs.mapM (unsignedField 8)
    let more ← assembleFrom ls (a + vs.length) rest
    .ok (placedFrom a bs ++ more)
  | .instr m operand :: rest => do
    let bs ← assembleInstr ls a m operand
    let more ← assembleFrom ls (a + m.length) rest
    .ok (placedFrom a bs ++ more)

/-- Assemble items (R102): the labels first, then the bytes.
DESIGN CHOICE (unsafe for a text that does not begin with `.org`, notes/assumptions/21.md): R102 is silent on the current
address before any `.org`, and the model starts every text at address 0. -/
def assemble (items : List AsmItem) : Except AsmError (List (Nat × Byte)) := do
  assembleFrom (← collectLabels 0 items) 0 items

/-! ## Reading a text -/

/-- The mnemonic a word names. -/
def mnemonicOf (w : String) : Option Mnemonic :=
  match w with
  | "NOP" => some .nop | "SYS" => some .sys | "TRACE" => some .trace | "PUTS" => some .puts
  | "HALT" => some .halt | "DROP" => some .drop | "DUP" => some .dup | "SWAP" => some .swap
  | "OVER" => some .overCopy | "ROT" => some .rot | "LD8" => some .ld8 | "ST8" => some .st8
  | "LD16" => some .ld16 | "ST16" => some .st16 | "LIT" => some .lit | "LIT2" => some .lit2
  | "ADD" => some .add | "SUB" => some .sub | "AND" => some .and | "OR" => some .or
  | "XOR" => some .xor | "NOT" => some .not | "JMP" => some .jmp | "CALL" => some .call
  | "RET" => some .ret | "RETZ" => some .retz | "BRA" => some .bra | "TOR" => some .tor
  | "FROMR" => some .fromr | "WAITVB" => some .waitvb
  | _ => none

/-- Split at every character `p` accepts, which is dropped. -/
def splitAtChars (p : Char → Bool) (cs : List Char) : List (List Char) :=
  cs.foldr (fun c parts =>
    if p c then [] :: parts
    else
      match parts with
      | part :: rest => (c :: part) :: rest
      | [] => [[c]]) [[]]

/-- The words of a line: the text before `;`, split at blanks and commas (R102).
DESIGN CHOICE (safe, notes/assumptions/21.md): a blank is a space, a tab or a carriage return, and a comma counts as one. -/
def wordsOf (line : List Char) : List (List Char) :=
  (splitAtChars (fun c => c = ' ' || c = '\t' || c = '\r' || c = ',') (line.takeWhile (· != ';'))).filter
    (fun w => !w.isEmpty)

/-- A digit's value, decimal or hexadecimal.
DESIGN CHOICE (safe, notes/assumptions/21.md): a hexadecimal digit is taken in either letter case. -/
def digitOf (base : Nat) (c : Char) : Option Nat :=
  let v :=
    if '0' ≤ c ∧ c ≤ '9' then c.toNat - 48
    else if 'a' ≤ c ∧ c ≤ 'f' then c.toNat - 87
    else if 'A' ≤ c ∧ c ≤ 'F' then c.toNat - 55
    else base
  if v < base then some v else none

/-- A nonempty string of digits as a number. -/
def naturalOf (base : Nat) (cs : List Char) : Option Nat :=
  if cs.isEmpty then none
  else cs.foldl (fun acc c => acc.bind fun n => (digitOf base c).map (base * n + ·)) (some 0)

/-- An unsigned number: decimal, or hexadecimal after `0x` (R102).
DESIGN CHOICE (safe, notes/assumptions/21.md): the `x` is small only, and leading zeros are allowed. -/
def unsignedOf : List Char → Option Nat
  | '0' :: 'x' :: cs => naturalOf 16 cs
  | cs => naturalOf 10 cs

/-- A number with an optional minus sign (R102).
DESIGN CHOICE (safe, notes/assumptions/21.md): R102 is silent on a plus sign, and the model refuses one; the minus sign may
stand before a decimal or a hexadecimal number, and before any number, whose field then decides. -/
def numberOf : List Char → Option Int
  | '-' :: cs => (unsignedOf cs).map fun n => -(n : Int)
  | cs => (unsignedOf cs).map fun n => (n : Int)

/-- A word that can name a label.
DESIGN CHOICE (safe, notes/assumptions/21.md): it starts with a letter or an underscore and goes on with anything that is no
blank, comma or semicolon, and it may be a mnemonic too. -/
def labelName : List Char → Option String
  | [] => none
  | c :: cs => if c.isAlpha || c = '_' then some (String.ofList (c :: cs)) else none

/-- An operand word: a number, or else a label. -/
def operandOf (w : List Char) : Except AsmError AsmOperand :=
  match numberOf w with
  | some n => .ok (.number n)
  | none =>
    match labelName w with
    | some name => .ok (.label name)
    | none => .error (.badWord (String.ofList w))

/-- A word that must be a number. -/
def numberWord (w : List Char) : Except AsmError Int :=
  match numberOf w with
  | some n => .ok n
  | none => .error (.badWord (String.ofList w))

/-- The items of a line without its labels: nothing, a directive, or one instruction (R102).
DESIGN CHOICE (safe, notes/assumptions/21.md): the operands of directives are numbers, and `.byte` may have none. -/
def statementOf : List (List Char) → Except AsmError (List AsmItem)
  | [] => .ok []
  | w :: args =>
    if String.ofList w = ".org" then
      match args with
      | [a] => do .ok [.org (← numberWord a)]
      | _ => .error (.badWord ".org")
    else if String.ofList w = ".byte" then do .ok [.bytes (← args.mapM numberWord)]
    else
      match mnemonicOf (String.ofList w), args with
      | none, _ => .error (.badWord (String.ofList w))
      | some m, [] => .ok [.instr m none]
      | some m, [a] => do .ok [.instr m (some (← operandOf a))]
      | some m, _ => .error (.badOperand m)

/-- The items of a line: labels, then at most one statement.
DESIGN CHOICE (safe, notes/assumptions/21.md): a label's colon is the last character of its word, and labels may stand
before a statement on the same line. -/
def itemsOf : List (List Char) → Except AsmError (List AsmItem)
  | [] => .ok []
  | w :: ws =>
    if w.getLast? = some ':' then
      match labelName w.dropLast with
      | some name => do .ok (.label name :: (← itemsOf ws))
      | none => .error (.badWord (String.ofList w))
    else statementOf (w :: ws)

/-- The items of a text, line by line (R102). -/
def parseAsm (text : List Char) : Except AsmError (List AsmItem) := do
  let lines ← (splitAtChars (· = '\n') text).mapM fun line => itemsOf (wordsOf line)
  .ok lines.flatten

/-- Assemble a source text (R102, R103). -/
def assembleText (text : String) : Except AsmError (List (Nat × Byte)) := do
  assemble (← parseAsm text.toList)

end Sys2Proof.Machine
end

