-- ==== Sys2Proof/Machine/Ppu.lean ====
section
/-!
DEFINITION. The PPU rasterizer (spec/50_ppu.md): a pure function from the PPU's storage to a framebuffer, drawn as
a background pass and then a sprite pass (R185, R201).
-/
namespace Sys2Proof.Machine

/-! ## The PPU's storage -/

/-- Where the map puts a region. -/
def regionBase (c : Config) (r : Region) : Option Nat :=
  match c.map.find? (fun w => w.region == r) with
  | some w => some w.base
  | none => none

/-- Byte `k` of a VRAM region (R33). A region the map leaves out was never written, so it is all zero (R170). -/
def vramByte (s : State) (r : Region) (k : Nat) : Byte :=
  match regionBase s.cfg r with
  | some base => s.mem.read (base + k)
  | none => unlisted

/-- `SCREEN_W` (R171). -/
def screenW (c : Config) : Nat := 8 * c.mapCols

/-- `SCREEN_H` (R171). -/
def screenH (c : Config) : Nat := 8 * c.mapRows

/-! ## Palette cache (R179, R182) -/

/-- An RGB888 triple. -/
structure Rgb where
  r : Byte
  g : Byte
  b : Byte
  deriving DecidableEq, Repr

/-- Bits 7:4 of a byte. -/
def highNibble (b : Byte) : BitVec 4 := b.extractLsb' 4 4

/-- Bits 3:0 of a byte. -/
def lowNibble (b : Byte) : BitVec 4 := b.extractLsb' 0 4

/-- A 4-bit channel expanded to 8 bits, `c * 17` (R182). -/
def expandChannel (c : BitVec 4) : Byte := BitVec.ofNat 8 (17 * c.toNat)

/-- `pal_rgb(i)`: entry `i` of the palette cache, computed from the palette bytes (R34, R182). -/
def palRgb (s : State) (i : BitVec 4) : Rgb where
  r := expandChannel (lowNibble (vramByte s .pal (2 * i.toNat + 1)))
  g := expandChannel (highNibble (vramByte s .pal (2 * i.toNat)))
  b := expandChannel (lowNibble (vramByte s .pal (2 * i.toNat)))

/-! ## Tiles (R175, R183) -/

/-- The two colour indices of tile byte `k` of a row: the left pixel is the high nibble (R175). -/
def tilePair (s : State) (base k : Nat) : List (BitVec 4) :=
  [highNibble (vramByte s .tiles (base + k)), lowNibble (vramByte s .tiles (base + k))]

/-- `TileRow(t, r, h, v)` (R183). -/
def tileRow (s : State) (t : Byte) (r : Nat) (h v : Bool) : List (BitVec 4) :=
  let rr := if v then 7 - r else r
  let px := (List.range 4).flatMap (tilePair s (32 * t.toNat + 4 * rr))
  if h then px.reverse else px

/-- `TilePixel(t, r, c, h, v)` (R183), for `c` in 0..7. -/
def tilePixel (s : State) (t : Byte) (r c : Nat) (h v : Bool) : BitVec 4 := (tileRow s t r h v).getD c 0

/-! ## Background pass (R186 to R190) -/

/-- The tilemap cell under output pixel (x, y) after scrolling (R186, R187). -/
def bgCell (s : State) (x y : Nat) : Nat :=
  s.cfg.mapCols * ((y + s.scrollY.toNat) % screenH s.cfg / 8) + (x + s.scrollX.toNat) % screenW s.cfg / 8

/-- The attribute byte of a cell (R173, R187). -/
def cellAttr (s : State) (cell : Nat) : Byte := vramByte s .tattr cell

/-- The background colour index at output pixel (x, y) (R188). -/
def bgIndex (s : State) (x y : Nat) : BitVec 4 :=
  let cell := bgCell s x y
  let attr := cellAttr s cell
  tilePixel s (vramByte s .tmap cell) ((y + s.scrollY.toNat) % screenH s.cfg % 8)
    ((x + s.scrollX.toNat) % screenW s.cfg % 8) (attr.getLsbD 4) (attr.getLsbD 5)

/-- Whether `ctrl` turns the background pass off (R200). -/
def bgOff (s : State) : Bool := s.cfg.honorDisplayControl && !s.ctrl.getLsbD 2

/-- What the background pass writes at (x, y) (R189, R200). -/
def bgColour (s : State) (x y : Nat) : Rgb := if bgOff s then palRgb s 0 else palRgb s (bgIndex s x y)

/-- The priority mask at (x, y): the cell's attribute bit 6, whatever the colour (R190, R200). -/
def bgMask (s : State) (x y : Nat) : Bool := !bgOff s && (cellAttr s (bgCell s x y)).getLsbD 6

/-- The background pass over every pixel, row-major (R186 to R189, R195). -/
def backgroundPass (s : State) : List Rgb :=
  (List.range (screenW s.cfg * screenH s.cfg)).map fun n =>
    bgColour s (n % screenW s.cfg) (n / screenW s.cfg)

/-- The mask recorded for every pixel, row-major (R190). -/
def maskPass (s : State) : List Bool :=
  (List.range (screenW s.cfg * screenH s.cfg)).map fun n =>
    bgMask s (n % screenW s.cfg) (n / screenW s.cfg)

/-! ## Sprite pass (R191 to R199) -/

/-- The used bytes of an OAM slot (R174, R192). -/
structure Sprite where
  x : Byte
  y : Byte
  tile : Byte
  attr : Byte
  deriving DecidableEq, Repr

/-- The sprite in slot `slot` (R174). -/
def readSprite (s : State) (slot : Nat) : Sprite where
  x := vramByte s .oam (16 * slot)
  y := vramByte s .oam (16 * slot + 1)
  tile := vramByte s .oam (16 * slot + 2)
  attr := vramByte s .oam (16 * slot + 3)

/-- 16 when attribute bit 6 is set, else 8 (R174, R192). -/
def spriteSize (sp : Sprite) : Nat := if sp.attr.getLsbD 6 then 16 else 8

/-- The quadrant tile of a 16×16 sprite at offset (fx, fy), modulo 256 (R184, R194). -/
def quadrantTile (c : Config) (t : Byte) (fx fy : Nat) : Byte :=
  BitVec.ofNat 8 (t.toNat + fy / 8 * c.spriteRowStride + fx / 8)

/-- `SpritePixel` at local offset (lx, ly) (R194). -/
def spritePixel (s : State) (sp : Sprite) (lx ly : Nat) : BitVec 4 :=
  let h := sp.attr.getLsbD 4
  let v := sp.attr.getLsbD 5
  if spriteSize sp = 8 then tilePixel s sp.tile ly lx h v
  else
    match s.cfg.spriteFlip with
    | .whole =>
      let fx := if h then 15 - lx else lx
      let fy := if v then 15 - ly else ly
      tilePixel s (quadrantTile s.cfg sp.tile fx fy) (fy % 8) (fx % 8) false false
    | .perTile => tilePixel s (quadrantTile s.cfg sp.tile lx ly) (ly % 8) (lx % 8) h v

/-- Draw one covered pixel of a sprite onto the framebuffer: skipped past the right or bottom edge (R193), when
its colour index is 0 (R196), and when it is masked by the background (R197); else written (R198). -/
def drawPixel (s : State) (mask : List Bool) (sp : Sprite) (fb : List Rgb) (lx ly : Nat) : List Rgb :=
  let x := sp.x.toNat + lx
  let y := sp.y.toNat + ly
  let ci := spritePixel s sp lx ly
  if screenW s.cfg ≤ x ∨ screenH s.cfg ≤ y then fb
  else if ci = 0 then fb
  else if sp.attr.getLsbD 7 = false ∧ mask.getD (y * screenW s.cfg + x) false = true then fb
  else fb.set (y * screenW s.cfg + x) (palRgb s ci)

/-- Draw one row of a sprite. -/
def drawRow (s : State) (mask : List Bool) (sp : Sprite) (fb : List Rgb) (ly : Nat) : List Rgb :=
  (List.range (spriteSize sp)).foldl (fun fb lx => drawPixel s mask sp fb lx ly) fb

/-- Draw one sprite, row by row (R201). -/
def drawSprite (s : State) (mask : List Bool) (fb : List Rgb) (slot : Nat) : List Rgb :=
  (List.range (spriteSize (readSprite s slot))).foldl (drawRow s mask (readSprite s slot)) fb

/-- The sprite pass: slots 0 to 15 in increasing order (R191). -/
def spritePass (s : State) (fb : List Rgb) : List Rgb := (List.range 16).foldl (drawSprite s (maskPass s)) fb

/-! ## render_frame -/

/-- Whether `ctrl` turns the whole display off (R200). -/
def displayOff (s : State) : Bool := s.cfg.honorDisplayControl && !s.ctrl.getLsbD 0

/-- Whether `ctrl` turns the sprite pass off (R200). -/
def spritesOff (s : State) : Bool := s.cfg.honorDisplayControl && !s.ctrl.getLsbD 1

/-- `render_frame()` (R185, R201, with R200's gating): the framebuffer, row-major, `fb[y][x]` at index
`y * SCREEN_W + x` (R195). It writes no state. -/
def renderFrame (s : State) : List Rgb :=
  if displayOff s then List.replicate (screenW s.cfg * screenH s.cfg) (palRgb s 0)
  else if spritesOff s then backgroundPass s
  else spritePass s (backgroundPass s)

/-- The framebuffer as bytes: 3 per pixel in the order R, G, B (R195, D41). -/
def framebufferBytes (fb : List Rgb) : List Byte := fb.flatMap fun p => [p.r, p.g, p.b]

/-! ## One pixel of the frame -/

/-- Whether a sprite covers (x, y) with an opaque pixel that the background's mask does not hide (R193, R196, R197). -/
def spriteShows (s : State) (sp : Sprite) (x y : Nat) : Bool :=
  decide (sp.x.toNat ≤ x) && decide (x < sp.x.toNat + spriteSize sp) &&
    decide (sp.y.toNat ≤ y) && decide (y < sp.y.toNat + spriteSize sp) &&
    decide (spritePixel s sp (x - sp.x.toNat) (y - sp.y.toNat) ≠ 0) &&
    (sp.attr.getLsbD 7 || !bgMask s x y)

/-- What slot `slot` leaves at (x, y) over the colour already there (R198, R199). -/
def overlaySprite (s : State) (x y : Nat) (below : Rgb) (slot : Nat) : Rgb :=
  let sp := readSprite s slot
  if spriteShows s sp x y then palRgb s (spritePixel s sp (x - sp.x.toNat) (y - sp.y.toNat)) else below

/-- The colour of one pixel, computed for that pixel alone. -/
def pixelAt (s : State) (x y : Nat) : Rgb :=
  if displayOff s then palRgb s 0
  else if spritesOff s then bgColour s x y
  else (List.range 16).foldl (overlaySprite s x y) (bgColour s x y)

end Sys2Proof.Machine
end

