-- ==== Sys2Proof/WellFormed.lean ====
section
/-!
DEFINITION. The checks on terms: which instruction a program may hold with a meaning, which configuration and
which program image the machine is constructed from. Each check is a Bool of its own, so that each can be tested.
-/
namespace Sys2Proof

/-- An instruction of the opcode map that is not the reserved opcode (R99, R110). Operand fields need no check:
their types are exactly the encoding's fields (R91). -/
def Instr.wf : Instr → Bool
  | .cmpReserved => false
  | _ => true

/-- A window holds at least one byte. -/
def Window.nonempty (w : Window) : Bool := decide (0 < w.size)

/-- A window lies inside the 16-bit address space (R35, R50). -/
def Window.inSpace (w : Window) : Bool := decide (w.base + w.size ≤ 0x10000)

/-- The sizes the source fixes for the PPU and controller windows (R33, R56); ROM and RAM sizes are free. -/
def Region.sizeOk : Region → Nat → Bool
  | .rom, _ | .ram, _ => true
  | .tiles, n => n == 8192
  | .tmap, n | .tattr, n => n == 896
  | .oam, n => n == 256
  | .pal, n => n == 32
  | .ctrl, n | .status, n | .scrollX, n | .scrollY, n | .padCtrl, n => n == 1
  | .latched, n => n == 2

/-- A window has the size its region has. -/
def Window.sized (w : Window) : Bool := w.region.sizeOk w.size

/-- Two windows share no address. -/
def Window.disjoint (v w : Window) : Bool :=
  decide (v.base + v.size ≤ w.base ∨ w.base + w.size ≤ v.base)

/-- No two windows of the map overlap (R54). -/
def Config.noOverlap (c : Config) : Bool := decide (c.map.Pairwise fun v w => v.disjoint w = true)

/-- No region has two windows. -/
def Config.regionsOnce (c : Config) : Bool := decide (c.map.Pairwise fun v w => v.region ≠ w.region)

/-- The tilemap grid has the 896 cells of its storage (R171, R172). -/
def Config.gridFits (c : Config) : Bool := c.mapCols * c.mapRows == 896

/-- A configuration the machine may be constructed from (R54, R56, R171). -/
def Config.wf (c : Config) : Bool :=
  c.map.all Window.nonempty && c.map.all Window.inSpace && c.map.all Window.sized &&
    c.noOverlap && c.regionsOnce && c.gridFits

/-- The size of the ROM window, 0 if the map has none (R65). -/
def Config.romSize (c : Config) : Nat :=
  match c.map.find? (fun w => w.region == Region.rom) with
  | some w => w.size
  | none => 0

/-- An image is at most as long as the ROM (R243). -/
def Config.imageFits (c : Config) (image : List Byte) : Bool := decide (image.length ≤ c.romSize)

end Sys2Proof
end

