-- ==== Sys2Proof/Machine/External.lean ====
section
/-!
DEFINITION. What the outside world does to the machine (spec/70_reset_and_hazards.md R241 to R247): construction,
the host's actions between steps, and what each reports back.
-/
namespace Sys2Proof.Machine

/-! ## Construction -/

/-- Why the host cannot construct a machine. -/
inductive BuildError where
  /-- The configuration is ill-formed: windows overlap, leave the address space, or have a wrong size (R54). -/
  | badConfig
  /-- The image is longer than the ROM (R243). -/
  | imageTooLong
  deriving DecidableEq, Repr

/-- Store consecutive bytes from an address on. -/
def storeFrom (m : Memory) : Nat → List Byte → Memory
  | _, [] => m
  | a, b :: bs => storeFrom (m.write a b) (a + 1) bs

/-- Memory with the image in ROM (R243). -/
def romImage (c : Config) (image : List Byte) : Memory :=
  match regionBase c .rom with
  | some base => storeFrom [] base image
  | none => []

/-- Memory with RAM as `RAM_INIT` says: left at 0x00, or filled with the free draw (R242). -/
def initRam (c : Config) (draw : Nat → Byte) (m : Memory) : Memory :=
  match c.ramInit, c.map.find? (fun w => w.region == Region.ram) with
  | .arbitrary, some w => storeFrom m w.base ((List.range w.size).map draw)
  | _, _ => m

/-- Every item at its construction value over a given memory (R36, R241). -/
def constructed (c : Config) (m : Memory) : State where
  cfg := c
  pc := 0x0000
  running := false
  ds := []
  rs := []
  fault := none
  mem := m
  ctrl := 0x00
  status := 0x00
  scrollX := 0x00
  scrollY := 0x00
  live := ⟨0x00, 0x00⟩
  latched := ⟨0x00, 0x00⟩
  padCtrl := 0x00

/-- Construct a machine from a configuration and a program image (R241, R243, R244). `draw` is the free draw of
RAM bytes, which only `RAM_INIT = arbitrary` uses (R242): a claim about such a machine holds for every `draw`.
DESIGN CHOICE (unsafe for a claim that names the refusal, notes/assumptions/16.md): the spec names no error kinds, and R244
loads the image before it rejects overlap; here the configuration is checked first, so an ill-formed one with too long an
image is `badConfig`. -/
def construct (c : Config) (image : List Byte) (draw : Nat → Byte) : Except BuildError State :=
  if !c.wf then .error .badConfig
  else if !c.imageFits image then .error .imageTooLong
  else .ok (constructed c (initRam c draw (romImage c image)))

/-! ## Host actions -/

/-- `run(max_steps)` (R116). -/
def run : Nat → State → Host.Outcome State Fault Refusal
  | 0, s => .next s
  | n + 1, s =>
    if s.running then
      match step s with
      | .next t => run n t
      | .fault f => .fault f
      | .refused r => .refused r
    else .next s

/-- The host's actions, each taken between two CPU steps (R71, R246). -/
inductive HostAction where
  | reset (startPc : Nat)
  | step
  | run (maxSteps : Nat)
  | renderFrame
  | setState (pad : Fin 2) (bitmask : Nat)
  | vblankLatch
  | frameBoundary
  | busRead (a : Word)
  | busWrite (a : Word) (v : Nat)
  | inspect
  | stop
  deriving DecidableEq, Repr

/-- `set_state(pad_index, bitmask)` (R69). -/
def setPadState (s : State) (pad : Fin 2) (bitmask : Nat) : State :=
  s.setLive (s.live.set pad (BitVec.ofNat 8 bitmask))

/-- `frame_boundary()`: set the VBLANK flag (R177, R246). -/
def frameBoundary (s : State) : State := s.setStatus (setVblank s.status)

/-- A host bus write: a miss changes nothing (R218). The value is masked to 8 bits (R52). -/
def hostBusWrite (s : State) (a : Word) (v : Nat) : State :=
  match busWrite s a (BitVec.ofNat 8 v) with
  | some t => t
  | none => s

/-- What a host action does to the machine (R246). -/
def hostAct (act : HostAction) (s : State) : Host.Outcome State Fault Refusal :=
  match act with
  | .reset startPc => .next (cpuReset startPc s)
  | .step => step s
  | .run maxSteps => run maxSteps s
  | .renderFrame => .next s
  | .setState pad bitmask => .next (setPadState s pad bitmask)
  | .vblankLatch => .next (latchPads s)
  | .frameBoundary => .next (frameBoundary s)
  | .busRead _ => .next s
  | .busWrite a v => .next (hostBusWrite s a v)
  | .inspect => .next s
  | .stop => .next s

/-- A host schedule (R245): any list of actions, so the number of steps per frame and the order of the actions at
a frame boundary stay open (R6 `STEPS_PER_FRAME`, D43). -/
def hostRun : List HostAction → State → Host.Outcome State Fault Refusal
  | [], s => .next s
  | act :: rest, s =>
    match hostAct act s with
    | .next t => hostRun rest t
    | .fault f => .fault f
    | .refused r => .refused r

/-! ## What a host action reports -/

/-- What the host gets back from an action taken in a state (R218, R246). -/
inductive HostReply where
  | nothing
  | byte (v : Byte)
  /-- A bus miss, reported to the host and to nobody else (R218, R219). -/
  | unmapped (a : Word) (access : Access)
  | frame (fb : List Rgb)
  /-- The inspected CPU state; the stacks have their tops first. -/
  | cpu (pc : Word) (running : Bool) (ds rs : List Byte) (fault : Option FaultRecord)
  deriving DecidableEq, Repr

/-- The report of an action taken in state `s`. -/
def hostReply (act : HostAction) (s : State) : HostReply :=
  match act with
  | .renderFrame => .frame (renderFrame s)
  | .busRead a =>
    match busRead s a with
    | some v => .byte v
    | none => .unmapped a .read
  | .busWrite a v =>
    match busWrite s a (BitVec.ofNat 8 v) with
    | some _ => .nothing
    | none => .unmapped a .write
  | .inspect => .cpu s.pc s.running s.ds s.rs s.fault
  | .reset _ | .step | .run _ | .setState _ _ | .vblankLatch | .frameBoundary | .stop => .nothing

end Sys2Proof.Machine
end

