-- ==== Sys2Proof/Machine/Output.lean ====
section
/-!
DEFINITION. The host's debug channel (spec/00_scope.md R8 `HostOut`, spec/40_system.md R113, R114). Host output is
not state (R214), so it is a function of the state before the step.
-/
namespace Sys2Proof.Machine

/-- One item on the host's debug channel. -/
inductive HostOut where
  /-- A trace: the `pc` shown and the entries, the top of the stack last (R9, R113). -/
  | trace (pc : Word) (entries : List Byte)
  /-- One byte of a string (R114). The character set is the host's. -/
  | char (b : Byte)
  deriving DecidableEq, Repr

/-- What `TRACE` shows for `TRACE_N = n` (R113, D35). -/
def traceOutput (n : Nat) (s : State) : List HostOut :=
  [.trace (s.pc + BitVec.ofNat 16 Instr.trace.length) (s.ds.take n).reverse]

/-- What `PUTS` shows: the bytes before the NUL, or before the first unmapped address (R114). -/
def putsOutput (s : State) : List HostOut :=
  match popWordD s with
  | .ok (a, t) => (putsScan t putsLimit a).1.map .char
  | .error _ => []

/-- What the host sees of the step that starts at `s`, for `TRACE_N = n` (OPEN in R6, an argument here). -/
def hostOutput (n : Nat) (s : State) : List HostOut :=
  if s.running then
    match fetchInstr s with
    | .ok .trace => traceOutput n s
    | .ok .puts => putsOutput s
    | _ => []
  else []

end Sys2Proof.Machine
end

