-- ==== Sys2Proof/Safety.lean ====
section
/-!
DEFINITION. What the claims call a good state, and the terms they are stated in.
-/
namespace Sys2Proof.Safety

open Sys2Proof.Machine

/-- Every listed address is a 16-bit address that the map gives to ROM, RAM or a VRAM region (R33, R56). -/
def memInMap (s : State) : Bool :=
  s.mem.all fun c =>
    decide (c.1 < 0x10000) &&
      match findWindow s.cfg (BitVec.ofNat 16 c.1) with
      | some w => isStorage w.region
      | none => false

/-- The invariant of the machine: storage in its canonical form and only where the map has storage (R33), both
stacks within their capacities (R23, R26), and a CPU that holds a fault record stopped (R213, R217), the record's
code being its kind's (R211). -/
structure GoodState (s : State) : Prop where
  memWf : s.mem.wf = true
  memMapped : memInMap s = true
  dsBound : s.ds.length ≤ dsCap
  rsBound : s.rs.length ≤ rsCap
  faultStops : s.fault.isSome = true → s.running = false
  faultCode : ∀ f ∈ s.fault, f.code = f.kind.code

/-- A data stack from which `n` cells can be popped without a fault: the policy is lenient, or the cells are there
(R24). -/
abbrev canPop (s : State) (n : Nat) : Prop := s.cfg.dsUnderflow = .lenientZero ∨ n ≤ s.ds.length

/-- The cell `k` places below the top of the data stack, 0 where there is none (R24). -/
def cell (s : State) (k : Nat) : Byte := s.ds.getD k 0

/-- The address in the two top cells, the high byte on top (R96). -/
def topAddr (s : State) : Word := joinBytes (cell s 0) (cell s 1)

/-- The record a fault at state `s` leaves, spelled out field by field (R31, R213). -/
def record (s : State) (kind : FaultKind) (code : Byte) (op sub : Option Byte) (addr : Option Word)
    (access : Option Access) : FaultRecord :=
  ⟨kind, code, s.pc, op, sub, addr, access, s.ds.length, s.rs.length⟩

/-- The state a fault leaves (R213): the state before the step, stopped, with a record. -/
def stopped (s : State) (f : FaultRecord) : State := { s with running := false, fault := some f }

/-- The bytes `bs` stand at the program counter: byte `k` is what a bus read of `pc + k` gives (R61, R91). -/
def bytesAt (s : State) (bs : List Byte) : Prop :=
  ∀ k, (h : k < bs.length) → busRead s (s.pc + BitVec.ofNat 16 k) = some bs[k]

/-- A string of nonzero bytes from an address on, wrapping past 0xFFFF (R114). -/
def stringAt (s : State) (a : Word) (bs : List Byte) : Prop :=
  ∀ k, (h : k < bs.length) → busRead s (a + BitVec.ofNat 16 k) = some bs[k] ∧ bs[k] ≠ 0

/-- An opcode with `n` operand bytes whose first unmapped operand byte is at offset `k` faults there (R61, R211,
R215): the record holds the opcode, the missing address and `access = fetch`. -/
def operandFetchFaults (op : Byte) (n : Nat) : Prop :=
  ∀ (s : State) (k : Nat), s.running = true → busRead s s.pc = some op → 1 ≤ k → k ≤ n →
    (∀ j, 1 ≤ j → j < k → (busRead s (s.pc + BitVec.ofNat 16 j)).isSome = true) →
    busRead s (s.pc + BitVec.ofNat 16 k) = none →
    step s = .next (stopped s (record s .unmappedAddress 1 (some op) none
      (some (s.pc + BitVec.ofNat 16 k)) (some .fetch)))

/-- A data-stack underflow stops the machine at the instruction (R24, R211, R213). -/
def underflowStops (i : Instr) (op : Byte) (n : Nat) : Prop :=
  ∀ s : State, ¬ canPop s n →
    exec i s = .next (stopped s (record s .dataStackUnderflow 5 (some op) none none none))

/-- A binary operation on the two top cells: the result `f a b` with `b` on top before (R140). -/
def binaryResult (i : Instr) (f : Byte → Byte → Byte) : Prop :=
  ∀ s : State, canPop s 2 → s.ds.length ≤ dsCap →
    exec i s = .next { s with pc := s.pc + 1, ds := f (cell s 1) (cell s 0) :: s.ds.drop 2 }

/-- The region of the window an address lies in. -/
def regionAt (s : State) (a : Word) : Option Region := (findWindow s.cfg a).map (·.region)

/-- A sprite's footprint covers output pixel (x, y) (R193). -/
def spriteCovers (sp : Sprite) (x y : Nat) : Prop :=
  sp.x.toNat ≤ x ∧ x < sp.x.toNat + spriteSize sp ∧ sp.y.toNat ≤ y ∧ y < sp.y.toNat + spriteSize sp

/-- A sprite covers (x, y) with a pixel that is not transparent: its colour index there is not 0 (R196). -/
def spriteOpaque (s : State) (sp : Sprite) (x y : Nat) : Prop :=
  spriteCovers sp x y ∧ spritePixel s sp (x - sp.x.toNat) (y - sp.y.toNat) ≠ 0

/-- A sprite is seen at (x, y) over the background: it is opaque there, and its priority bit is set or the
background cell's is not (R197). -/
def spriteSeen (s : State) (sp : Sprite) (x y : Nat) : Prop :=
  spriteOpaque s sp x y ∧ (sp.attr.getLsbD 7 = true ∨ (cellAttr s (bgCell s x y)).getLsbD 6 = false)

/-- The colour index at row `r`, column `c` of tile `t` under the flips `h` and `v`, spelled out as a nibble of the
tile store: the high nibble for an even source column (R175, R183). -/
def tileNibble (s : State) (t r c : Nat) (h v : Bool) : Nat :=
  let row := if v = true then 7 - r else r
  let col := if h = true then 7 - c else c
  let b := vramByte s .tiles (32 * t + 4 * row + col / 2)
  if col % 2 = 0 then b.toNat / 16 else b.toNat % 16

end Sys2Proof.Safety
end

