-- ==== Sys2Proof/Certificates/Slice0/Obligations.lean ====
section
/-!
DEFINITION. The statements for the provers, each with the rule of spec/ it formalises.
-/

open Sys2Proof Sys2Proof.Machine Sys2Proof.Safety

/-! ## Encoding and the step -/

/-- R90, R91, R97, R100, R101: the decoder reads every instruction back from its bytes, at every operand value,
and leaves the bytes after it. -/
def Obligations.DecodeEncodeRoundTrip : Prop :=
  ∀ (i : Instr) (rest : List Byte), decode (encode i ++ rest) = .ok (i, rest)

/-- R97, R101: bytes that decode to an instruction begin with exactly that instruction's encoding, so no two
encodings overlap and no instruction has two. -/
def Obligations.DecodedBytesAreTheEncoding : Prop :=
  ∀ (bs : List Byte) (i : Instr) (rest : List Byte), decode bs = .ok (i, rest) → bs = encode i ++ rest

/-- Words written out from R97 and R100: one of each format, with the operand byte order of R93. -/
def Obligations.SpecWordsDecode : Prop :=
  decode [0x40] = .ok (.add, []) ∧
  decode [0x34, 0x05] = .ok (.lit 0x05, []) ∧
  decode [0x54, 0xFB] = .ok (.bra 0xFB, []) ∧
  decode [0x51, 0x10, 0x00] = .ok (.call 0x0010, []) ∧
  decode [0x01, 0x10] = .ok (.trace, []) ∧
  decode [0x01, 0x11] = .ok (.puts, []) ∧
  decode [0xEE] = .error (.illegalOpcode 0xEE) ∧
  decode [0x01, 0xFF] = .error (.illegalService 0x01 0xFF)

/-- R102, R103: what the assembler makes of operands: numbers become the fields of R91, a label of `BRA` becomes
its distance from `A + 2`, which must lie in -128..127, and the two aliases are `SYS 0x10` and `SYS 0x11`.
That a number given to `BRA` is the offset byte itself is vector V1's `BRA -5` = 54 FB (95_test_vectors.md). Of the points
that R102 leaves open, which are the model's choice (notes/assumptions/21.md), one is in reach here: the clauses about
labels of `BRA` hold at addresses past 0xFFFF too, where the model counts on. -/
def Obligations.AssemblerOperands : Prop :=
  (∀ (ls : AsmLabels) (a : Nat) (b : Byte),
    assembleInstr ls a .lit (some (.number b.toNat)) = .ok [0x34, b] ∧
    assembleInstr ls a .sys (some (.number b.toNat)) = .ok [0x01, b] ∧
    assembleInstr ls a .bra (some (.number b.toInt)) = .ok [0x54, b]) ∧
  (∀ (ls : AsmLabels) (a : Nat) (hi lo : Byte),
    assembleInstr ls a .lit2 (some (.number (hi ++ lo).toNat)) = .ok [0x35, lo, hi] ∧
    assembleInstr ls a .jmp (some (.number (hi ++ lo).toNat)) = .ok [0x50, lo, hi] ∧
    assembleInstr ls a .call (some (.number (hi ++ lo).toNat)) = .ok [0x51, lo, hi]) ∧
  (∀ (ls : AsmLabels) (a addr : Nat) (name : String) (off : Byte), labelAddr ls name = .ok addr →
    (addr : Int) = a + 2 + off.toInt → assembleInstr ls a .bra (some (.label name)) = .ok [0x54, off]) ∧
  (∀ (ls : AsmLabels) (a addr : Nat) (name : String), labelAddr ls name = .ok addr →
    (addr + 128 < a + 2 ∨ a + 2 + 127 < addr) →
    ∃ e, assembleInstr ls a .bra (some (.label name)) = .error e) ∧
  (∀ (ls : AsmLabels) (a : Nat), assembleInstr ls a .trace none = .ok [0x01, 0x10] ∧
    assembleInstr ls a .puts none = .ok [0x01, 0x11])

/-- R98: an opcode byte outside R97's 29 stops the CPU with `IllegalOpcode` at once, whatever follows it. -/
def Obligations.IllegalOpcodeStops : Prop :=
  ∀ (s : State) (op : Byte), s.running = true → busRead s s.pc = some op →
    op.toNat ∉ [0x00, 0x01, 0x02, 0x20, 0x21, 0x22, 0x23, 0x24, 0x30, 0x31, 0x32, 0x33, 0x34, 0x35,
      0x40, 0x41, 0x42, 0x43, 0x44, 0x45, 0x46, 0x50, 0x51, 0x52, 0x53, 0x54, 0x60, 0x61, 0x62] →
    step s = .next (stopped s (record s .illegalOpcode 2 (some op) none none none))

/-- R99, R147: opcode 0x46 stops the CPU with the distinct `ReservedOpcode`, before any operand is popped or
fetched, and changes nothing else. -/
def Obligations.ReservedOpcodeStops : Prop :=
  encode .cmpReserved = [0x46] ∧
  (∀ s : State, exec .cmpReserved s =
    .next (stopped s (record s .reservedOpcode 3 (some 0x46) none none none))) ∧
  (∀ s : State, s.running = true → busRead s s.pc = some 0x46 →
    step s = .next (stopped s (record s .reservedOpcode 3 (some 0x46) none none none)))

/-- R100, R112: `SYS` dispatches on its service byte; an unknown service stops the CPU with `IllegalOpcode`, the
service byte recorded; and a missing service byte is an `UnmappedAddress` fetch fault. -/
def Obligations.SysServices : Prop :=
  (∀ s : State, s.running = true → busRead s s.pc = some 0x01 → busRead s (s.pc + 1) = some 0x10 →
    step s = exec .trace s) ∧
  (∀ s : State, s.running = true → busRead s s.pc = some 0x01 → busRead s (s.pc + 1) = some 0x11 →
    step s = exec .puts s) ∧
  (∀ (s : State) (sub : Byte), s.running = true → busRead s s.pc = some 0x01 →
    busRead s (s.pc + 1) = some sub → sub ≠ 0x10 → sub ≠ 0x11 →
    step s = .next (stopped s (record s .illegalOpcode 2 (some 0x01) (some sub) none none))) ∧
  operandFetchFaults 0x01 1

/-- R51, R61, R211, R215: a fetch of an unmapped byte stops the CPU, with no opcode recorded for the opcode fetch
and, for operand bytes, the first unmapped address in order. -/
def Obligations.FetchFaultsStop : Prop :=
  (∀ s : State, s.running = true → busRead s s.pc = none →
    step s = .next (stopped s (record s .unmappedAddress 1 none none (some s.pc) (some .fetch)))) ∧
  (∀ i : Instr, operandFetchFaults i.opcode (i.length - 1))

/-- R110: a step of a running CPU whose bytes at `pc` decode to an instruction is that instruction's meaning. The
meaning itself moves `pc` past the bytes.
That `exec` starts before the fetch is the model's choice (notes/assumptions/4.md). -/
def Obligations.StepRunsDecodedInstruction : Prop :=
  ∀ (s : State) (bs : List Byte) (i : Instr) (rest : List Byte), s.running = true →
    decode bs = .ok (i, rest) → bytesAt s bs → step s = exec i s

/-- R110, R116: a halted CPU's step and run change nothing; a run of no steps is no change, a run of `n + 1` steps of
a running CPU is one step and then a run of `n`, and a run of `m + n` steps is a run of `m` and then a run of `n`. -/
def Obligations.RunsSplitAndHaltedRunsRest : Prop :=
  (∀ s : State, s.running = false → step s = .next s) ∧
  (∀ (n : Nat) (s : State), s.running = false → run n s = .next s) ∧
  (∀ s : State, run 0 s = .next s) ∧
  (∀ (n : Nat) (s t : State), s.running = true → step s = .next t → run (n + 1) s = run n t) ∧
  (∀ (m n : Nat) (s t : State), run m s = .next t → run (m + n) s = run n t)

/-! ## System and control instructions -/

/-- R111. -/
def Obligations.NopResult : Prop :=
  encode .nop = [0x00] ∧ ∀ s : State, exec .nop s = .next { s with pc := s.pc + 1 }

/-- R113: only `pc` changes, and the host sees the `pc` after the instruction and the top entries, top last. -/
def Obligations.TraceResult : Prop :=
  encode .trace = [0x01, 0x10] ∧
  (∀ s : State, exec .trace s = .next { s with pc := s.pc + 2 }) ∧
  (∀ (n : Nat) (s : State), s.running = true → bytesAt s [0x01, 0x10] →
    hostOutput n s = [.trace (s.pc + 2) (s.ds.reverse.drop (s.ds.length - n))])

/-- R114: `PUTS` pops an address, shows the bytes before the NUL (or 65536 of them), and faults at the first
unmapped byte of the string, having shown the bytes before it.
That the record of a faulting PUTS has no `sub` is deduced (notes/assumptions/13.md), and so is that the host has seen
exactly the bytes before the fault (notes/assumptions/8.md). -/
def Obligations.PutsResult : Prop :=
  encode .puts = [0x01, 0x11] ∧
  (∀ (s : State) (bs : List Byte), canPop s 2 → stringAt s (topAddr s) bs →
    (bs.length < 65536 ∧ busRead s (topAddr s + BitVec.ofNat 16 bs.length) = some 0 ∨ bs.length = 65536) →
    exec .puts s = .next { s with pc := s.pc + 2, ds := s.ds.drop 2 }) ∧
  (∀ (s : State) (bs : List Byte), canPop s 2 → stringAt s (topAddr s) bs → bs.length < 65536 →
    busRead s (topAddr s + BitVec.ofNat 16 bs.length) = none →
    exec .puts s = .next (stopped s (record s .unmappedAddress 1 (some 0x01) none
      (some (topAddr s + BitVec.ofNat 16 bs.length)) (some .read)))) ∧
  underflowStops .puts 0x01 2 ∧
  (∀ (n : Nat) (s : State) (bs : List Byte), s.running = true → bytesAt s [0x01, 0x11] → canPop s 2 →
    stringAt s (topAddr s) bs →
    (bs.length < 65536 ∧ (busRead s (topAddr s + BitVec.ofNat 16 bs.length) = some 0 ∨
      busRead s (topAddr s + BitVec.ofNat 16 bs.length) = none) ∨ bs.length = 65536) →
    hostOutput n s = bs.map .char)

/-- R115: `running` is cleared, `pc` is after the opcode, the fault record stays as it is, and no later step does
anything. -/
def Obligations.HaltResult : Prop :=
  encode .halt = [0x02] ∧
  (∀ s : State, exec .halt s = .next { s with pc := s.pc + 1, running := false }) ∧
  (∀ s t : State, exec .halt s = .next t → step t = .next t)

/-! ## Stack manipulation -/

/-- R120. -/
def Obligations.DropResult : Prop :=
  encode .drop = [0x20] ∧
  (∀ s : State, canPop s 1 → exec .drop s = .next { s with pc := s.pc + 1, ds := s.ds.tail }) ∧
  underflowStops .drop 0x20 1

/-- R121. -/
def Obligations.DupResult : Prop :=
  encode .dup = [0x21] ∧
  (∀ s : State, canPop s 1 → s.ds.length < dsCap →
    exec .dup s = .next { s with pc := s.pc + 1, ds := cell s 0 :: cell s 0 :: s.ds.tail }) ∧
  underflowStops .dup 0x21 1 ∧
  (∀ s : State, s.ds.length = dsCap →
    exec .dup s = .next (stopped s (record s .dataStackOverflow 6 (some 0x21) none none none)))

/-- R122. -/
def Obligations.SwapResult : Prop :=
  encode .swap = [0x22] ∧
  (∀ s : State, canPop s 2 → s.ds.length ≤ dsCap →
    exec .swap s = .next { s with pc := s.pc + 1, ds := cell s 1 :: cell s 0 :: s.ds.drop 2 }) ∧
  underflowStops .swap 0x22 2

/-- R123. -/
def Obligations.OverResult : Prop :=
  encode .overCopy = [0x23] ∧
  (∀ s : State, canPop s 2 → s.ds.length < dsCap →
    exec .overCopy s = .next { s with pc := s.pc + 1, ds := cell s 1 :: cell s 0 :: cell s 1 :: s.ds.drop 2 }) ∧
  underflowStops .overCopy 0x23 2 ∧
  (∀ s : State, s.ds.length = dsCap →
    exec .overCopy s = .next (stopped s (record s .dataStackOverflow 6 (some 0x23) none none none)))

/-- R124: the third cell moves to the top. -/
def Obligations.RotResult : Prop :=
  encode .rot = [0x24] ∧
  (∀ s : State, canPop s 3 → s.ds.length ≤ dsCap →
    exec .rot s = .next { s with pc := s.pc + 1, ds := cell s 2 :: cell s 0 :: cell s 1 :: s.ds.drop 3 }) ∧
  underflowStops .rot 0x24 3

/-! ## Literals, loads and stores -/

/-- R130. -/
def Obligations.LitResult : Prop :=
  (∀ imm, encode (.lit imm) = [0x34, imm]) ∧
  (∀ (imm : Byte) (s : State), s.ds.length < dsCap →
    exec (.lit imm) s = .next { s with pc := s.pc + 2, ds := imm :: s.ds }) ∧
  (∀ (imm : Byte) (s : State), s.ds.length = dsCap →
    exec (.lit imm) s = .next (stopped s (record s .dataStackOverflow 6 (some 0x34) none none none))) ∧
  operandFetchFaults 0x34 1

/-- R131: the low byte is fetched and pushed first, so the high byte is on top. -/
def Obligations.Lit2Result : Prop :=
  (∀ hi lo : Byte, encode (.lit2 (hi ++ lo)) = [0x35, lo, hi]) ∧
  (∀ (hi lo : Byte) (s : State), s.ds.length + 2 ≤ dsCap →
    exec (.lit2 (hi ++ lo)) s = .next { s with pc := s.pc + 3, ds := hi :: lo :: s.ds }) ∧
  (∀ (imm : Word) (s : State), dsCap < s.ds.length + 2 →
    exec (.lit2 imm) s = .next (stopped s (record s .dataStackOverflow 6 (some 0x35) none none none))) ∧
  operandFetchFaults 0x35 2

/-- R132. -/
def Obligations.Ld8Result : Prop :=
  encode .ld8 = [0x30] ∧
  (∀ (s : State) (v : Byte), canPop s 2 → s.ds.length ≤ dsCap → busRead s (topAddr s) = some v →
    exec .ld8 s = .next { s with pc := s.pc + 1, ds := v :: s.ds.drop 2 }) ∧
  underflowStops .ld8 0x30 2 ∧
  (∀ s : State, canPop s 2 → busRead s (topAddr s) = none →
    exec .ld8 s = .next (stopped s (record s .unmappedAddress 1 (some 0x30) none
      (some (topAddr s)) (some .read))))

/-- R133: the address is on top, the value under it; the store is the bus write of that value at that address. A
store to ROM or to a latched pad byte changes no device; one to `pad_ctrl` with bit 0 set latches the pads. -/
def Obligations.St8Result : Prop :=
  encode .st8 = [0x31] ∧
  (∀ s t : State, canPop s 3 → busWrite s (topAddr s) (cell s 2) = some t →
    exec .st8 s = .next { t with pc := s.pc + 1, ds := s.ds.drop 3 }) ∧
  underflowStops .st8 0x31 3 ∧
  (∀ s : State, canPop s 3 → busWrite s (topAddr s) (cell s 2) = none →
    exec .st8 s = .next (stopped s (record s .unmappedAddress 1 (some 0x31) none
      (some (topAddr s)) (some .write)))) ∧
  (∀ s : State, canPop s 3 → regionAt s (topAddr s) = some .rom ∨ regionAt s (topAddr s) = some .latched →
    exec .st8 s = .next { s with pc := s.pc + 1, ds := s.ds.drop 3 }) ∧
  (∀ s : State, canPop s 3 → regionAt s (topAddr s) = some .padCtrl → (cell s 2).getLsbD 0 = true →
    exec .st8 s = .next { s with pc := s.pc + 1, ds := s.ds.drop 3, padCtrl := cell s 2, latched := s.live })

/-- R134: the low byte from the address, the high byte from the address after it modulo 0x10000, the high byte
left on top. -/
def Obligations.Ld16Result : Prop :=
  encode .ld16 = [0x32] ∧
  (∀ (s : State) (lo hi : Byte), canPop s 2 → s.ds.length ≤ dsCap → busRead s (topAddr s) = some lo →
    busRead s (topAddr s + 1) = some hi →
    exec .ld16 s = .next { s with pc := s.pc + 1, ds := hi :: lo :: s.ds.drop 2 }) ∧
  underflowStops .ld16 0x32 2 ∧
  (∀ s : State, canPop s 2 → busRead s (topAddr s) = none →
    exec .ld16 s = .next (stopped s (record s .unmappedAddress 1 (some 0x32) none
      (some (topAddr s)) (some .read)))) ∧
  (∀ (s : State) (lo : Byte), canPop s 2 → busRead s (topAddr s) = some lo → busRead s (topAddr s + 1) = none →
    exec .ld16 s = .next (stopped s (record s .unmappedAddress 1 (some 0x32) none
      (some (topAddr s + 1)) (some .read))))

/-- R135: the address popped first, then the value, high byte first; the low byte is written at the address and
then the high byte after it; a fault of the second write undoes the first. In RAM a 16-bit load from the same
address gives the two cells back. -/
def Obligations.St16Result : Prop :=
  encode .st16 = [0x33] ∧
  (∀ s t u : State, canPop s 4 → busWrite s (topAddr s) (cell s 3) = some t →
    busWrite t (topAddr s + 1) (cell s 2) = some u →
    exec .st16 s = .next { u with pc := s.pc + 1, ds := s.ds.drop 4 }) ∧
  underflowStops .st16 0x33 4 ∧
  (∀ s : State, canPop s 4 → busWrite s (topAddr s) (cell s 3) = none →
    exec .st16 s = .next (stopped s (record s .unmappedAddress 1 (some 0x33) none
      (some (topAddr s)) (some .write)))) ∧
  (∀ s t : State, canPop s 4 → busWrite s (topAddr s) (cell s 3) = some t →
    busWrite t (topAddr s + 1) (cell s 2) = none →
    exec .st16 s = .next (stopped s (record s .unmappedAddress 1 (some 0x33) none
      (some (topAddr s + 1)) (some .write)))) ∧
  (∀ s t : State, s.mem.wf = true → 4 ≤ s.ds.length → s.ds.length ≤ dsCap →
    regionAt s (topAddr s) = some .ram → regionAt s (topAddr s + 1) = some .ram →
    exec .st16 s = .next t →
    exec .ld16 { t with ds := cell s 0 :: cell s 1 :: t.ds } =
      .next { t with pc := t.pc + 1, ds := cell s 2 :: cell s 3 :: t.ds })

/-! ## ALU -/

/-- R140 to R145: the right operand is on top; one result modulo 256; underflow only under `strict`. The
arithmetic of ADD and SUB is stated on the values 0..255. -/
def Obligations.BinaryAluResults : Prop :=
  (encode .add = [0x40] ∧ encode .sub = [0x41] ∧ encode .and = [0x42] ∧ encode .or = [0x43] ∧
    encode .xor = [0x44]) ∧
  binaryResult .add (fun a b => BitVec.ofNat 8 (a.toNat + b.toNat)) ∧
  binaryResult .sub (fun a b => BitVec.ofInt 8 ((a.toNat : Int) - b.toNat)) ∧
  binaryResult .and (fun a b => a &&& b) ∧
  binaryResult .or (fun a b => a ||| b) ∧
  binaryResult .xor (fun a b => a ^^^ b) ∧
  underflowStops .add 0x40 2 ∧ underflowStops .sub 0x41 2 ∧ underflowStops .and 0x42 2 ∧
  underflowStops .or 0x43 2 ∧ underflowStops .xor 0x44 2

/-- R146: `0xFF - a`. -/
def Obligations.NotResult : Prop :=
  encode .not = [0x45] ∧
  (∀ s : State, canPop s 1 → s.ds.length ≤ dsCap →
    exec .not s = .next { s with pc := s.pc + 1, ds := (0xFF - cell s 0) :: s.ds.tail }) ∧
  underflowStops .not 0x45 1

/-! ## Control flow -/

/-- R150. -/
def Obligations.JmpResult : Prop :=
  (∀ hi lo : Byte, encode (.jmp (hi ++ lo)) = [0x50, lo, hi]) ∧
  (∀ (target : Word) (s : State), exec (.jmp target) s = .next { s with pc := target }) ∧
  operandFetchFaults 0x50 2

/-- R151: the return address is `A + 3` modulo 0x10000, its high byte pushed first. -/
def Obligations.CallResult : Prop :=
  (∀ hi lo : Byte, encode (.call (hi ++ lo)) = [0x51, lo, hi]) ∧
  (∀ (target : Word) (rhi rlo : Byte) (s : State), s.rs.length + 2 ≤ rsCap → rhi ++ rlo = s.pc + 3 →
    exec (.call target) s = .next { s with pc := target, rs := rlo :: rhi :: s.rs }) ∧
  (∀ (target : Word) (s : State), rsCap < s.rs.length + 2 →
    exec (.call target) s =
      .next (stopped s (record s .returnStackOverflow 7 (some 0x51) none none none))) ∧
  operandFetchFaults 0x51 2

/-- R152: the low byte popped first, then the high byte; a return right after a call gives the state before the
call with `pc` after the call's operands. -/
def Obligations.RetResult : Prop :=
  encode .ret = [0x52] ∧
  (∀ (s : State) (lo hi : Byte) (rest : List Byte), s.rs = lo :: hi :: rest →
    exec .ret s = .next { s with pc := hi ++ lo, rs := rest }) ∧
  (∀ s : State, s.rs.length < 2 →
    exec .ret s = .next (stopped s (record s .returnStackUnderflow 4 (some 0x52) none none none))) ∧
  (∀ (s : State) (target : Word), s.rs.length + 2 ≤ rsCap →
    ∃ t, exec (.call target) s = .next t ∧ t.pc = target ∧ exec .ret t = .next { s with pc := s.pc + 3 })

/-- R153: the byte popped from the data stack decides; a nonzero byte leaves the return stack alone, even when it
is empty; a fault of the return undoes the pop. -/
def Obligations.RetzResult : Prop :=
  encode .retz = [0x53] ∧
  (∀ (s : State) (lo hi : Byte) (rest : List Byte), canPop s 1 → cell s 0 = 0 → s.rs = lo :: hi :: rest →
    exec .retz s = .next { s with pc := hi ++ lo, ds := s.ds.tail, rs := rest }) ∧
  (∀ s : State, canPop s 1 → cell s 0 ≠ 0 →
    exec .retz s = .next { s with pc := s.pc + 1, ds := s.ds.tail }) ∧
  (∀ s : State, canPop s 1 → cell s 0 = 0 → s.rs.length < 2 →
    exec .retz s = .next (stopped s (record s .returnStackUnderflow 4 (some 0x53) none none none))) ∧
  underflowStops .retz 0x53 1

/-- R94, R154: the offset byte, read as two's complement, is added to `A + 2` modulo 0x10000.
That the base is `A + 2` is marked by the spec as derived. -/
def Obligations.BraResult : Prop :=
  (∀ off, encode (.bra off) = [0x54, off]) ∧
  (∀ (off : Byte) (s : State),
    exec (.bra off) s = .next { s with pc := BitVec.ofInt 16 ((s.pc.toNat : Int) + 2 + off.toInt) }) ∧
  operandFetchFaults 0x54 1

/-! ## I/O and timing -/

/-- R160. -/
def Obligations.TorResult : Prop :=
  encode .tor = [0x60] ∧
  (∀ s : State, canPop s 1 → s.rs.length < rsCap →
    exec .tor s = .next { s with pc := s.pc + 1, ds := s.ds.tail, rs := cell s 0 :: s.rs }) ∧
  underflowStops .tor 0x60 1 ∧
  (∀ s : State, canPop s 1 → s.rs.length = rsCap →
    exec .tor s = .next (stopped s (record s .returnStackOverflow 7 (some 0x60) none none none)))

/-- R161. -/
def Obligations.FromrResult : Prop :=
  encode .fromr = [0x61] ∧
  (∀ (s : State) (v : Byte) (rest : List Byte), s.rs = v :: rest → s.ds.length < dsCap →
    exec .fromr s = .next { s with pc := s.pc + 1, ds := v :: s.ds, rs := rest }) ∧
  (∀ s : State, s.rs = [] →
    exec .fromr s = .next (stopped s (record s .returnStackUnderflow 4 (some 0x61) none none none))) ∧
  (∀ (s : State) (v : Byte) (rest : List Byte), s.rs = v :: rest → s.ds.length = dsCap →
    exec .fromr s = .next (stopped s (record s .dataStackOverflow 6 (some 0x61) none none none)))

/-- R162, at the address the map gives the status register: the flag is cleared and the CPU goes on, under
`immediate` or when the flag is set; under `spin` with the flag clear nothing at all changes; a map without a
status register faults. The last clause spells the first out for the default map.
That the address is the map's follows R56, "every rule of the spec that names an address names it through this
table", and is the model's choice (notes/assumptions/9.md); the last clause is R162's own. -/
def Obligations.WaitvbResult : Prop :=
  encode .waitvb = [0x62] ∧
  (∀ (s t : State) (a : Word) (v : Byte), statusAddr s.cfg = some a → busRead s a = some v →
    (s.cfg.vblankWait = .immediate ∨ v.getLsbD 7 = true) → busWrite s a (v &&& 0x7F) = some t →
    exec .waitvb s = .next { t with pc := s.pc + 1 }) ∧
  (∀ (s : State) (a : Word) (v : Byte), statusAddr s.cfg = some a → busRead s a = some v →
    s.cfg.vblankWait = .spin → v.getLsbD 7 = false → exec .waitvb s = .next s) ∧
  (∀ s : State, statusAddr s.cfg = none →
    ∃ f, exec .waitvb s = .next (stopped s f) ∧ f.kind = .unmappedAddress ∧ f.code = 1 ∧ f.pc = s.pc ∧
      f.opcode = some 0x62 ∧ f.access = some .read) ∧
  (∀ s : State, s.cfg.map = defaultMap → (s.cfg.vblankWait = .immediate ∨ s.status.getLsbD 7 = true) →
    exec .waitvb s = .next { s with pc := s.pc + 1, status := s.status &&& 0x7F })

/-! ## The whole machine -/

/-- R36, R240: the state after reset meets the invariant. -/
def Obligations.InvHoldsAtReset : Prop := GoodState State.reset

/-- R23, R26, R33, R211, R217: every step from a state that meets the invariant gives one that meets it: storage
stays canonical and inside the map, both stacks stay within their capacities, a recorded fault stays with a
stopped CPU.
The canonical form is the model's (notes/assumptions/3.md). -/
def Obligations.InvKeptByStep : Prop := ∀ s t : State, GoodState s → step s = .next t → GoodState t

/-- R246: every host action, a run among them, keeps the invariant; and so does every schedule of actions.
The actions as functions beside `step` are the model's (notes/assumptions/12.md). -/
def Obligations.InvKeptByHostActions : Prop :=
  (∀ (act : HostAction) (s t : State), GoodState s → hostAct act s = .next t → GoodState t) ∧
  (∀ (acts : List HostAction) (s t : State), GoodState s → hostRun acts s = .next t → GoodState t)

/-- R36, R54, R241, R242, R243: construction refuses an ill-formed configuration and an image longer than ROM;
otherwise the machine meets the invariant, its CPU and registers have their construction values, its ROM reads as the
image followed by 0x00, its RAM as 0x00 under `RAM_INIT = zero` and as the free draw under `arbitrary`, and every
other window as 0x00.
What is ill-formed beyond overlap, and that an ill-formed configuration is told before too long an image, is the model's
choice (notes/assumptions/16.md). -/
def Obligations.ConstructionLoadsTheImage : Prop :=
  (∀ (c : Config) (image : List Byte) (draw : Nat → Byte), c.wf = false →
    construct c image draw = .error .badConfig) ∧
  (∀ (c : Config) (image : List Byte) (draw : Nat → Byte), c.wf = true → c.romSize < image.length →
    construct c image draw = .error .imageTooLong) ∧
  (∀ (c : Config) (image : List Byte) (draw : Nat → Byte), c.wf = true → image.length ≤ c.romSize →
    ∃ s, construct c image draw = .ok s ∧ GoodState s ∧ s.cfg = c ∧
      (s.pc = 0x0000 ∧ s.running = false ∧ s.ds = [] ∧ s.rs = [] ∧ s.fault = none) ∧
      (s.ctrl = 0x00 ∧ s.status = 0x00 ∧ s.scrollX = 0x00 ∧ s.scrollY = 0x00 ∧ s.live = ⟨0x00, 0x00⟩ ∧
        s.latched = ⟨0x00, 0x00⟩ ∧ s.padCtrl = 0x00) ∧
      (∀ (w : Window) (k : Nat), w ∈ c.map → k < w.size →
        (w.region = .rom → busRead s (BitVec.ofNat 16 (w.base + k)) = some (image.getD k 0)) ∧
        (w.region = .ram → c.ramInit = .zero → busRead s (BitVec.ofNat 16 (w.base + k)) = some 0) ∧
        (w.region = .ram → c.ramInit = .arbitrary → busRead s (BitVec.ofNat 16 (w.base + k)) = some (draw k)) ∧
        (w.region ≠ .rom → w.region ≠ .ram → busRead s (BitVec.ofNat 16 (w.base + k)) = some 0)))

/-- R214: a step that writes a fault record changes nothing else but `running`: the stacks, every device byte and
`pc` are as before the step, and the record holds `pc` and the two depths. -/
def Obligations.FaultsArePrecise : Prop :=
  ∀ s t : State, step s = .next t → t.fault ≠ s.fault →
    ∃ f, t = stopped s f ∧ f.pc = s.pc ∧ f.dsDepth = s.ds.length ∧ f.rsDepth = s.rs.length ∧
      f.code = f.kind.code

/-- R213, R216: no step ends the model: every instruction, every fault and every undecodable byte has a next
state.
That a fault is a next state and not an outcome is deduced (notes/assumptions/5.md). -/
def Obligations.StepAlwaysAnswersNext : Prop :=
  (∀ (i : Instr) (s : State), ∃ t, exec i s = .next t) ∧ (∀ s : State, ∃ t, step s = .next t)

/-- R34, R69, R250: a CPU step changes neither the configuration nor the live pads, and the latched pads change
only by becoming the live ones.
The configuration as a field is the model's choice (notes/assumptions/1.md). -/
def Obligations.CpuLeavesConfigAndLivePads : Prop :=
  ∀ s t : State, step s = .next t →
    t.cfg = s.cfg ∧ t.live = s.live ∧ (t.latched = s.latched ∨ t.latched = s.live)

/-- R65, R243: no CPU step and no host action changes what a ROM address reads as. -/
def Obligations.RomNeverChanges : Prop :=
  ∀ (act : HostAction) (s t : State) (a : Word), regionAt s a = some .rom → hostAct act s = .next t →
    busRead t a = busRead s a

/-- R55, R64, R111 to R161: an instruction other than ST8, ST16 and WAITVB changes no device at all: every byte of
memory, every register and the pads are as before, whether it completes or faults. -/
def Obligations.OnlyStoresChangeDevices : Prop :=
  ∀ (i : Instr) (s t : State), i ≠ .st8 → i ≠ .st16 → i ≠ .waitvb → exec i s = .next t →
    t.mem = s.mem ∧ t.ctrl = s.ctrl ∧ t.status = s.status ∧ t.scrollX = s.scrollX ∧ t.scrollY = s.scrollY ∧
      t.live = s.live ∧ t.latched = s.latched ∧ t.padCtrl = s.padCtrl ∧ ∀ a, busRead t a = busRead s a

/-- R55, R67, R68: under a well-formed map, a store leaves every byte outside the ones it stores to, except that a
store with bit 0 set to `pad_ctrl` makes the latched pads the live ones. The return stack, the configuration and
the live pads never change, and `running` and `fault` change only if the store faults.
Well-formedness beyond overlap and the address WAITVB uses are the model's choice (notes/assumptions/16.md, 9.md). -/
def Obligations.StoresLeaveOtherBytes : Prop :=
  (∀ s t : State, s.cfg.wf = true → exec .st8 s = .next t →
    t.rs = s.rs ∧ t.cfg = s.cfg ∧ t.live = s.live ∧
    (t.running = s.running ∧ t.fault = s.fault ∨ t.running = false ∧ t.fault.isSome = true) ∧
    (∀ b, b ≠ topAddr s → regionAt s b ≠ some .latched → busRead t b = busRead s b) ∧
    (t.latched = s.latched ∨
      regionAt s (topAddr s) = some .padCtrl ∧ (cell s 2).getLsbD 0 = true ∧ t.latched = s.live)) ∧
  (∀ s t : State, s.cfg.wf = true → exec .st16 s = .next t →
    t.rs = s.rs ∧ t.cfg = s.cfg ∧ t.live = s.live ∧
    (t.running = s.running ∧ t.fault = s.fault ∨ t.running = false ∧ t.fault.isSome = true) ∧
    (∀ b, b ≠ topAddr s → b ≠ topAddr s + 1 → regionAt s b ≠ some .latched → busRead t b = busRead s b) ∧
    (t.latched = s.latched ∨
      ((regionAt s (topAddr s) = some .padCtrl ∧ (cell s 3).getLsbD 0 = true ∨
        regionAt s (topAddr s + 1) = some .padCtrl ∧ (cell s 2).getLsbD 0 = true) ∧ t.latched = s.live))) ∧
  (∀ (s t : State) (a : Word), s.cfg.wf = true → statusAddr s.cfg = some a → exec .waitvb s = .next t →
    t.ds = s.ds ∧ t.rs = s.rs ∧ t.cfg = s.cfg ∧ t.live = s.live ∧ t.running = s.running ∧ t.fault = s.fault ∧
    ∀ b, b ≠ a → busRead t b = busRead s b)

/-- R22: a step of a stopped CPU changes nothing; of all the host's actions only `reset` sets `running`; a step
clears it exactly when it executes HALT or takes a fault, and no host action clears it but the step and the run, which
are steps. That a running CPU's step executes one instruction is `StepRunsDecodedInstruction`. -/
def Obligations.RunningFlag : Prop :=
  (∀ s : State, s.running = false → step s = .next s) ∧
  (∀ (act : HostAction) (s t : State), hostAct act s = .next t → s.running = false → t.running = true →
    ∃ p, act = .reset p) ∧
  (∀ (act : HostAction) (s t : State), hostAct act s = .next t → s.running = true → t.running = false →
    act = .step ∨ ∃ n, act = .run n) ∧
  (∀ s t : State, s.running = true → step s = .next t → t.running = false →
    busRead s s.pc = some 0x02 ∨ ∃ f, t = stopped s f) ∧
  (∀ s t : State, step s = .next t → busRead s s.pc = some 0x02 → t.running = false) ∧
  (∀ s t : State, step s = .next t → t.fault ≠ s.fault → t.running = false)

/-- R240, with R36's values after reset: `reset(start_pc)` empties both stacks, sets `pc` to `start_pc` modulo
0x10000, sets `running` and clears the record, and changes no memory and no device; and the machine's reset state
is the constructed default machine after `reset(0)`. -/
def Obligations.ResetStartsTheCpu : Prop :=
  (∀ (p : Nat) (s : State), hostAct (.reset p) s =
    .next { s with pc := BitVec.ofNat 16 (p % 0x10000), running := true, ds := [], rs := [], fault := none }) ∧
  (∀ draw : Nat → Byte, ∃ s, construct defaultConfig [] draw = .ok s ∧
    hostAct (.reset 0) s = .next State.reset)

/-! ## The bus and the host -/

/-- R57: under the default map exactly 0xA824..0xAFFF and 0xB003..0xBFFF are unmapped, for reads and for writes; and, by
the rows of R56's table, each region lies at exactly its own addresses. -/
def Obligations.UnmappedAddressesOfDefaultMap : Prop :=
  ∀ (s : State) (a : Word) (v : Byte), s.cfg.map = defaultMap →
    (busRead s a = none ↔ (0xA824 ≤ a.toNat ∧ a.toNat ≤ 0xAFFF) ∨ (0xB003 ≤ a.toNat ∧ a.toNat ≤ 0xBFFF)) ∧
    (busWrite s a v = none ↔ (0xA824 ≤ a.toNat ∧ a.toNat ≤ 0xAFFF) ∨ (0xB003 ≤ a.toNat ∧ a.toNat ≤ 0xBFFF)) ∧
    (regionAt s a = some .rom ↔ a.toNat ≤ 0x7FFF) ∧
    (regionAt s a = some .tiles ↔ 0x8000 ≤ a.toNat ∧ a.toNat ≤ 0x9FFF) ∧
    (regionAt s a = some .tmap ↔ 0xA000 ≤ a.toNat ∧ a.toNat ≤ 0xA37F) ∧
    (regionAt s a = some .tattr ↔ 0xA380 ≤ a.toNat ∧ a.toNat ≤ 0xA6FF) ∧
    (regionAt s a = some .oam ↔ 0xA700 ≤ a.toNat ∧ a.toNat ≤ 0xA7FF) ∧
    (regionAt s a = some .pal ↔ 0xA800 ≤ a.toNat ∧ a.toNat ≤ 0xA81F) ∧
    (regionAt s a = some .ctrl ↔ a = 0xA820) ∧ (regionAt s a = some .status ↔ a = 0xA821) ∧
    (regionAt s a = some .scrollX ↔ a = 0xA822) ∧ (regionAt s a = some .scrollY ↔ a = 0xA823) ∧
    (regionAt s a = some .latched ↔ a = 0xB000 ∨ a = 0xB001) ∧ (regionAt s a = some .padCtrl ↔ a = 0xB002) ∧
    (regionAt s a = some .ram ↔ 0xC000 ≤ a.toNat)

/-- R66, R67: a byte written to RAM, to any PPU window or to `pad_ctrl` reads back; the write always answers. -/
def Obligations.WrittenByteReadsBack : Prop :=
  ∀ (s : State) (a : Word) (v : Byte) (r : Region), s.mem.wf = true → regionAt s a = some r → r ≠ .rom →
    r ≠ .latched → ∃ t, busWrite s a v = some t ∧ busRead t a = some v

/-- R65, R68: writes to ROM and to a latched pad byte change nothing; a write of `pad_ctrl` stores the byte and,
if its bit 0 is 1, copies the live pads to the latched ones; the pad bytes read as the latched ones. -/
def Obligations.PadAndRomWrites : Prop :=
  (∀ (s : State) (a : Word) (v : Byte), regionAt s a = some .rom ∨ regionAt s a = some .latched →
    busWrite s a v = some s) ∧
  (∀ (s : State) (a : Word) (v : Byte), regionAt s a = some .padCtrl → v.getLsbD 0 = true →
    busWrite s a v = some { s with padCtrl := v, latched := s.live }) ∧
  (∀ (s : State) (a : Word) (v : Byte), regionAt s a = some .padCtrl → v.getLsbD 0 = false →
    busWrite s a v = some { s with padCtrl := v }) ∧
  (∀ s : State, s.cfg.map = defaultMap →
    busRead s 0xB000 = some s.latched.pad0 ∧ busRead s 0xB001 = some s.latched.pad1 ∧
      busRead s 0xB002 = some s.padCtrl)

/-- R52, R69, R177, R185, R218, R246: what the host's actions change and report. A host bus write is the bus write of
the value modulo 256, a read answers the byte the bus reads, and a miss of either changes nothing and is reported;
inspection answers the CPU's state, and rendering the frame.
The report of a host's miss is marked by the spec as derived (R218). -/
def Obligations.HostActionEffects : Prop :=
  (∀ (s : State) (m : Nat), hostAct (.setState 0 m) s =
    .next { s with live := ⟨BitVec.ofNat 8 (m % 256), s.live.pad1⟩ }) ∧
  (∀ (s : State) (m : Nat), hostAct (.setState 1 m) s =
    .next { s with live := ⟨s.live.pad0, BitVec.ofNat 8 (m % 256)⟩ }) ∧
  (∀ s : State, hostAct .vblankLatch s = .next { s with latched := s.live }) ∧
  (∀ s : State, hostAct .frameBoundary s = .next { s with status := s.status ||| 0x80 }) ∧
  (∀ s : State, hostAct .renderFrame s = .next s ∧ hostReply .renderFrame s = .frame (renderFrame s)) ∧
  (∀ s : State, hostAct .inspect s = .next s ∧
    hostReply .inspect s = .cpu s.pc s.running s.ds s.rs s.fault) ∧
  (∀ s : State, hostAct .stop s = .next s) ∧
  (∀ s : State, hostAct .step s = step s) ∧
  (∀ (n : Nat) (s : State), hostAct (.run n) s = run n s) ∧
  (∀ (s t : State) (a : Word) (v : Nat), busWrite s a (BitVec.ofNat 8 (v % 256)) = some t →
    hostAct (.busWrite a v) s = .next t ∧ hostReply (.busWrite a v) s = .nothing) ∧
  (∀ (s : State) (a : Word) (b : Byte), busRead s a = some b →
    hostAct (.busRead a) s = .next s ∧ hostReply (.busRead a) s = .byte b) ∧
  (∀ (s : State) (a : Word) (v : Nat), busRead s a = none →
    hostAct (.busWrite a v) s = .next s ∧ hostReply (.busWrite a v) s = .unmapped a .write ∧
      hostAct (.busRead a) s = .next s ∧ hostReply (.busRead a) s = .unmapped a .read)

/-! ## The rasterizer -/

/-- R185, R191, R201: the frame the two passes draw, sprite by sprite over the whole background, has at every
pixel the colour computed for that pixel alone.
The frame as a list is the model's choice (notes/assumptions/17.md). -/
def Obligations.FrameIsPixelwise : Prop :=
  ∀ (s : State) (x y : Nat), x < screenW s.cfg → y < screenH s.cfg →
    (renderFrame s)[y * screenW s.cfg + x]? = some (pixelAt s x y)

/-- R195: the framebuffer has SCREEN_W × SCREEN_H pixels and three times as many bytes, row-major: bytes
`3 (y SCREEN_W + x)` and the two after it are the red, green and blue of pixel (x, y). -/
def Obligations.FrameSize : Prop :=
  ∀ s : State, (renderFrame s).length = screenW s.cfg * screenH s.cfg ∧
    (framebufferBytes (renderFrame s)).length = 3 * (screenW s.cfg * screenH s.cfg) ∧
    (∀ (n : Nat) (p : Rgb), (renderFrame s)[n]? = some p →
      (framebufferBytes (renderFrame s))[3 * n]? = some p.r ∧
      (framebufferBytes (renderFrame s))[3 * n + 1]? = some p.g ∧
      (framebufferBytes (renderFrame s))[3 * n + 2]? = some p.b) ∧
    (∀ x y : Nat, x < screenW s.cfg → y < screenH s.cfg →
      (framebufferBytes (renderFrame s))[3 * (y * screenW s.cfg + x)]? = some (pixelAt s x y).r ∧
      (framebufferBytes (renderFrame s))[3 * (y * screenW s.cfg + x) + 1]? = some (pixelAt s x y).g ∧
      (framebufferBytes (renderFrame s))[3 * (y * screenW s.cfg + x) + 2]? = some (pixelAt s x y).b)

/-- R179, R182: under the default map, entry `i` of the palette cache is its two palette bytes' red, green and
blue nibbles, each times 17. -/
def Obligations.PaletteChannels : Prop :=
  ∀ (s : State) (i : BitVec 4) (lo hi : Byte), s.cfg.map = defaultMap →
    busRead s (0xA800 + BitVec.ofNat 16 (2 * i.toNat)) = some lo →
    busRead s (0xA801 + BitVec.ofNat 16 (2 * i.toNat)) = some hi →
    (palRgb s i).r.toNat = 17 * (hi.toNat % 16) ∧ (palRgb s i).g.toNat = 17 * (lo.toNat / 16) ∧
      (palRgb s i).b.toNat = 17 * (lo.toNat % 16)

/-- R175, R183: the pixel at row `r`, column `c` of a tile, after the flips, is a nibble of the tile store. R174,
R192: a slot's sprite is its first four OAM bytes, and attribute bit 6 its size. R194: the colour index of a sprite at
each offset inside it is a pixel of its tile, or, for size 16, of a quadrant's tile modulo 256 under either flip mode. -/
def Obligations.TileDecoding : Prop :=
  (∀ (s : State) (t : Byte) (r c : Nat) (h v : Bool), r < 8 → c < 8 →
    (tilePixel s t r c h v).toNat = tileNibble s t.toNat r c h v) ∧
  (∀ (s : State) (k : Nat), k < 16 →
    readSprite s k = ⟨vramByte s .oam (16 * k), vramByte s .oam (16 * k + 1), vramByte s .oam (16 * k + 2),
      vramByte s .oam (16 * k + 3)⟩) ∧
  (∀ sp : Sprite, (sp.attr.getLsbD 6 = false → spriteSize sp = 8) ∧
    (sp.attr.getLsbD 6 = true → spriteSize sp = 16)) ∧
  (∀ (s : State) (sp : Sprite) (lx ly : Nat), sp.attr.getLsbD 6 = false → lx < 8 → ly < 8 →
    (spritePixel s sp lx ly).toNat =
      tileNibble s sp.tile.toNat ly lx (sp.attr.getLsbD 4) (sp.attr.getLsbD 5)) ∧
  (∀ (s : State) (sp : Sprite) (lx ly : Nat), sp.attr.getLsbD 6 = true → s.cfg.spriteFlip = .whole →
    lx < 16 → ly < 16 →
    (spritePixel s sp lx ly).toNat =
      let fx := if sp.attr.getLsbD 4 = true then 15 - lx else lx
      let fy := if sp.attr.getLsbD 5 = true then 15 - ly else ly
      tileNibble s ((sp.tile.toNat + fy / 8 * s.cfg.spriteRowStride + fx / 8) % 256) (fy % 8) (fx % 8)
        false false) ∧
  (∀ (s : State) (sp : Sprite) (lx ly : Nat), sp.attr.getLsbD 6 = true → s.cfg.spriteFlip = .perTile →
    lx < 16 → ly < 16 →
    (spritePixel s sp lx ly).toNat =
      tileNibble s ((sp.tile.toNat + ly / 8 * s.cfg.spriteRowStride + lx / 8) % 256) (ly % 8) (lx % 8)
        (sp.attr.getLsbD 4) (sp.attr.getLsbD 5))

/-- R200: with `HONOR_DISPLAY_CONTROL = true`, bit 0 of `ctrl` clear paints every pixel with palette entry 0; bit 2
clear makes the background entry 0 and masks nothing, so that the highest opaque sprite shows; bit 1 clear leaves the
background alone; with it false `ctrl` has no effect. -/
def Obligations.DisplayControlGates : Prop :=
  (∀ (s : State) (x y : Nat), s.cfg.honorDisplayControl = true → x < screenW s.cfg → y < screenH s.cfg →
    (s.ctrl.getLsbD 0 = false → (renderFrame s)[y * screenW s.cfg + x]? = some (palRgb s 0)) ∧
    (s.ctrl.getLsbD 0 = true → s.ctrl.getLsbD 1 = false → s.ctrl.getLsbD 2 = false →
      (renderFrame s)[y * screenW s.cfg + x]? = some (palRgb s 0)) ∧
    (s.ctrl.getLsbD 0 = true → s.ctrl.getLsbD 1 = false → s.ctrl.getLsbD 2 = true →
      (renderFrame s)[y * screenW s.cfg + x]? = some (palRgb s (bgIndex s x y))) ∧
    (s.ctrl.getLsbD 0 = true → s.ctrl.getLsbD 1 = true → s.ctrl.getLsbD 2 = true →
      renderFrame s = renderFrame { s with cfg := { s.cfg with honorDisplayControl := false } }) ∧
    (s.ctrl.getLsbD 0 = true → s.ctrl.getLsbD 1 = true → s.ctrl.getLsbD 2 = false → ∀ k, k < 16 →
      spriteOpaque s (readSprite s k) x y →
      (∀ j, k < j → j < 16 → ¬ spriteOpaque s (readSprite s j) x y) →
      (renderFrame s)[y * screenW s.cfg + x]? = some (palRgb s (spritePixel s (readSprite s k)
        (x - (readSprite s k).x.toNat) (y - (readSprite s k).y.toNat)))) ∧
    (s.ctrl.getLsbD 0 = true → s.ctrl.getLsbD 1 = true → s.ctrl.getLsbD 2 = false →
      (∀ k, k < 16 → ¬ spriteOpaque s (readSprite s k) x y) →
      (renderFrame s)[y * screenW s.cfg + x]? = some (palRgb s 0))) ∧
  (∀ (s : State) (v : Byte), s.cfg.honorDisplayControl = false →
    renderFrame { s with ctrl := v } = renderFrame s)

/-- R172 to R179: under the default map, each byte the rasterizer reads, of the five VRAM regions and of `ctrl` and the
scroll registers, is the byte the bus reads at its address; so is `status`, which the rasterizer does not read. -/
def Obligations.RasterizerReadsWhatTheBusReads : Prop :=
  ∀ s : State, s.cfg.map = defaultMap →
    (∀ k, k < 8192 → busRead s (BitVec.ofNat 16 (0x8000 + k)) = some (vramByte s .tiles k)) ∧
    (∀ k, k < 896 → busRead s (BitVec.ofNat 16 (0xA000 + k)) = some (vramByte s .tmap k)) ∧
    (∀ k, k < 896 → busRead s (BitVec.ofNat 16 (0xA380 + k)) = some (vramByte s .tattr k)) ∧
    (∀ k, k < 256 → busRead s (BitVec.ofNat 16 (0xA700 + k)) = some (vramByte s .oam k)) ∧
    (∀ k, k < 32 → busRead s (BitVec.ofNat 16 (0xA800 + k)) = some (vramByte s .pal k)) ∧
    busRead s 0xA820 = some s.ctrl ∧ busRead s 0xA821 = some s.status ∧
    busRead s 0xA822 = some s.scrollX ∧ busRead s 0xA823 = some s.scrollY

/-- R38, R170, R185: under a well-formed map, a bus write to a device other than the PPU leaves the frame as it
is, and so does everything the CPU or the host changes outside the PPU's storage.
Well-formedness beyond overlap is the model's choice (notes/assumptions/16.md). -/
def Obligations.FrameIgnoresOtherDevices : Prop :=
  (∀ (s t : State) (a : Word) (v : Byte) (r : Region), s.cfg.wf = true → regionAt s a = some r →
    r.device ≠ .ppu → busWrite s a v = some t → renderFrame t = renderFrame s) ∧
  (∀ s t : State, t.cfg = s.cfg → t.mem = s.mem → t.ctrl = s.ctrl → t.scrollX = s.scrollX →
    t.scrollY = s.scrollY → renderFrame t = renderFrame s)

/-- R178, R186: scroll values that agree modulo the screen dimension give the same frame. -/
def Obligations.ScrollWrapsAround : Prop :=
  (∀ (s : State) (u v : Byte), u.toNat % screenW s.cfg = v.toNat % screenW s.cfg →
    renderFrame { s with scrollX := u } = renderFrame { s with scrollX := v }) ∧
  (∀ (s : State) (u v : Byte), u.toNat % screenH s.cfg = v.toNat % screenH s.cfg →
    renderFrame { s with scrollY := u } = renderFrame { s with scrollY := v })

/-- R186 to R188: the background's colour index at (x, y) is a pixel of the tile its scrolled cell names, under that
cell's flips. R191, R196 to R199, with `HONOR_DISPLAY_CONTROL = false`: a pixel where no sprite is seen shows the
background; where some are, it shows the one in the highest slot.
R199 is marked by the spec as derived. A cell's index by MAP_COLS, where R187 writes 32, is the model's choice
(notes/assumptions/17.md). -/
def Obligations.HighestVisibleSpriteWins : Prop :=
  (∀ (s : State) (x y : Nat),
    (bgIndex s x y).toNat =
      let sx := (x + s.scrollX.toNat) % screenW s.cfg
      let sy := (y + s.scrollY.toNat) % screenH s.cfg
      let k := s.cfg.mapCols * (sy / 8) + sx / 8
      tileNibble s (vramByte s .tmap k).toNat (sy % 8) (sx % 8) ((vramByte s .tattr k).getLsbD 4)
        ((vramByte s .tattr k).getLsbD 5)) ∧
  (∀ (s : State) (x y : Nat), s.cfg.honorDisplayControl = false → x < screenW s.cfg → y < screenH s.cfg →
    ((∀ k, k < 16 → ¬ spriteSeen s (readSprite s k) x y) →
      (renderFrame s)[y * screenW s.cfg + x]? = some (palRgb s (bgIndex s x y))) ∧
    (∀ k, k < 16 → spriteSeen s (readSprite s k) x y →
      (∀ j, k < j → j < 16 → ¬ spriteSeen s (readSprite s j) x y) →
      (renderFrame s)[y * screenW s.cfg + x]? =
        some (palRgb s (spritePixel s (readSprite s k) (x - (readSprite s k).x.toNat)
          (y - (readSprite s k).y.toNat)))))
end

