-- ==== Sys2Proof/Laws/Memory.lean ====
section
/-!
SUPPORT. Byte storage: read after write, and that a write keeps the canonical form (spec/20_memory.md R66).
-/
namespace Sys2Proof.Machine

/-- A read of an address no cell lists. -/
theorem Memory.read_of_not_listed {m : Memory} {a : Nat} (h : ∀ c ∈ m, c.1 ≠ a) : m.read a = unlisted := by
  induction m with
  | nil => rfl
  | cons c rest ih =>
    have hc : c.1 ≠ a := h c (by simp)
    simp only [Memory.read, hc, if_false]
    exact ih fun d hd => h d (by simp [hd])

/-- A write leaves every other address alone, in any memory. -/
theorem Memory.read_write_other (m : Memory) {a b : Nat} (v : Byte) (h : b ≠ a) :
    (m.write a v).read b = m.read b := by
  induction m with
  | nil =>
    by_cases hv : v = unlisted
    · simp [Memory.write, hv]
    · simp [Memory.write, hv, Memory.read, h.symm]
  | cons c rest ih =>
    obtain ⟨k, x⟩ := c
    simp only [Memory.write]
    split_ifs with hlt hv heq hv
    · rfl
    · simp [Memory.read, h.symm]
    · subst heq
      simp [Memory.read, h.symm]
    · subst heq
      simp [Memory.read, h.symm]
    · simp only [Memory.read, ih]

/-- In a canonical memory the cells after the first lie above it. -/
theorem Memory.wf_cons {c : Host.Cell} {rest : Memory} :
    Memory.wf (c :: rest) = true ↔
      (∀ d ∈ rest, c.1 < d.1) ∧ c.2 ≠ unlisted ∧ Memory.wf rest = true := by
  simp only [Memory.wf, List.pairwise_cons, List.all_cons, Bool.and_eq_true, decide_eq_true_eq, bne_iff_ne]
  tauto

/-- A read after a write to the same address gives the byte written. -/
theorem Memory.read_write_same {m : Memory} (hm : m.wf = true) (a : Nat) (v : Byte) :
    (m.write a v).read a = v := by
  induction m with
  | nil =>
    by_cases hv : v = unlisted
    · simp [Memory.write, hv, Memory.read]
    · simp [Memory.write, hv, Memory.read]
  | cons c rest ih =>
    obtain ⟨k, x⟩ := c
    obtain ⟨hlow, -, hrest⟩ := Memory.wf_cons.mp hm
    simp only [Memory.write]
    split_ifs with hlt hv heq hv
    · subst hv
      refine Memory.read_of_not_listed fun d hd => ?_
      rcases List.mem_cons.mp hd with rfl | hd
      · simp only; omega
      · have := hlow d hd
        simp only at this; omega
    · simp [Memory.read]
    · subst heq; subst hv
      exact Memory.read_of_not_listed fun d hd => (Nat.ne_of_lt (hlow d hd)).symm
    · simp [Memory.read]
    · simp [Memory.read, Ne.symm heq, ih hrest]

/-- What cells a write leaves: the old ones, and the written one unless it reads as an unlisted address. -/
theorem Memory.mem_write {m : Memory} {a : Nat} {v : Byte} {c : Host.Cell} (h : c ∈ m.write a v) :
    c ∈ m ∨ (c = (a, v) ∧ v ≠ unlisted) := by
  induction m with
  | nil =>
    by_cases hv : v = unlisted
    · simp [Memory.write, hv] at h
    · simp [Memory.write, hv] at h
      exact .inr ⟨h, hv⟩
  | cons d rest ih =>
    obtain ⟨k, x⟩ := d
    simp only [Memory.write] at h
    split_ifs at h with hlt hv heq hv
    · exact .inl h
    · rcases List.mem_cons.mp h with rfl | h
      · exact .inr ⟨rfl, hv⟩
      · exact .inl h
    · exact .inl (List.mem_cons_of_mem _ h)
    · rcases List.mem_cons.mp h with rfl | h
      · exact .inr ⟨rfl, hv⟩
      · exact .inl (List.mem_cons_of_mem _ h)
    · rcases List.mem_cons.mp h with rfl | h
      · simp
      · rcases ih h with h | h
        · exact .inl (List.mem_cons_of_mem _ h)
        · exact .inr h

/-- A write keeps the canonical form. -/
theorem Memory.write_wf {m : Memory} (hm : m.wf = true) (a : Nat) (v : Byte) : (m.write a v).wf = true := by
  induction m with
  | nil =>
    by_cases hv : v = unlisted
    · simp [Memory.write, hv, Memory.wf]
    · simp [Memory.write, hv, Memory.wf]
  | cons c rest ih =>
    obtain ⟨k, x⟩ := c
    obtain ⟨hlow, hx, hrest⟩ := Memory.wf_cons.mp hm
    simp only [Memory.write]
    split_ifs with hlt hv heq hv
    · exact hm
    · refine Memory.wf_cons.mpr ⟨fun d hd => ?_, hv, hm⟩
      rcases List.mem_cons.mp hd with rfl | hd
      · exact hlt
      · exact Nat.lt_trans hlt (hlow d hd)
    · exact hrest
    · subst heq
      exact Memory.wf_cons.mpr ⟨hlow, hv, hrest⟩
    · refine Memory.wf_cons.mpr ⟨fun d hd => ?_, hx, ih hrest⟩
      rcases Memory.mem_write hd with hd | ⟨rfl, -⟩
      · exact hlow d hd
      · simp only; omega

end Sys2Proof.Machine
end

