-- ==== Sys2Proof/Laws/State.lean ====
section
/-!
SUPPORT. One lemma per field per update of State, each true by rfl, so that no proof unfolds an update; and the same
for taking a fault.
-/
namespace Sys2Proof.Machine

section
variable (s : State) (v : Word)
@[simp] theorem State.setPc_cfg : (s.setPc v).cfg = s.cfg := rfl
@[simp] theorem State.setPc_pc : (s.setPc v).pc = v := rfl
@[simp] theorem State.setPc_running : (s.setPc v).running = s.running := rfl
@[simp] theorem State.setPc_ds : (s.setPc v).ds = s.ds := rfl
@[simp] theorem State.setPc_rs : (s.setPc v).rs = s.rs := rfl
@[simp] theorem State.setPc_fault : (s.setPc v).fault = s.fault := rfl
@[simp] theorem State.setPc_mem : (s.setPc v).mem = s.mem := rfl
@[simp] theorem State.setPc_ctrl : (s.setPc v).ctrl = s.ctrl := rfl
@[simp] theorem State.setPc_status : (s.setPc v).status = s.status := rfl
@[simp] theorem State.setPc_scrollX : (s.setPc v).scrollX = s.scrollX := rfl
@[simp] theorem State.setPc_scrollY : (s.setPc v).scrollY = s.scrollY := rfl
@[simp] theorem State.setPc_live : (s.setPc v).live = s.live := rfl
@[simp] theorem State.setPc_latched : (s.setPc v).latched = s.latched := rfl
@[simp] theorem State.setPc_padCtrl : (s.setPc v).padCtrl = s.padCtrl := rfl
end

section
variable (s : State) (v : Bool)
@[simp] theorem State.setRunning_cfg : (s.setRunning v).cfg = s.cfg := rfl
@[simp] theorem State.setRunning_pc : (s.setRunning v).pc = s.pc := rfl
@[simp] theorem State.setRunning_running : (s.setRunning v).running = v := rfl
@[simp] theorem State.setRunning_ds : (s.setRunning v).ds = s.ds := rfl
@[simp] theorem State.setRunning_rs : (s.setRunning v).rs = s.rs := rfl
@[simp] theorem State.setRunning_fault : (s.setRunning v).fault = s.fault := rfl
@[simp] theorem State.setRunning_mem : (s.setRunning v).mem = s.mem := rfl
@[simp] theorem State.setRunning_ctrl : (s.setRunning v).ctrl = s.ctrl := rfl
@[simp] theorem State.setRunning_status : (s.setRunning v).status = s.status := rfl
@[simp] theorem State.setRunning_scrollX : (s.setRunning v).scrollX = s.scrollX := rfl
@[simp] theorem State.setRunning_scrollY : (s.setRunning v).scrollY = s.scrollY := rfl
@[simp] theorem State.setRunning_live : (s.setRunning v).live = s.live := rfl
@[simp] theorem State.setRunning_latched : (s.setRunning v).latched = s.latched := rfl
@[simp] theorem State.setRunning_padCtrl : (s.setRunning v).padCtrl = s.padCtrl := rfl
end

section
variable (s : State) (v : List Byte)
@[simp] theorem State.setDs_cfg : (s.setDs v).cfg = s.cfg := rfl
@[simp] theorem State.setDs_pc : (s.setDs v).pc = s.pc := rfl
@[simp] theorem State.setDs_running : (s.setDs v).running = s.running := rfl
@[simp] theorem State.setDs_ds : (s.setDs v).ds = v := rfl
@[simp] theorem State.setDs_rs : (s.setDs v).rs = s.rs := rfl
@[simp] theorem State.setDs_fault : (s.setDs v).fault = s.fault := rfl
@[simp] theorem State.setDs_mem : (s.setDs v).mem = s.mem := rfl
@[simp] theorem State.setDs_ctrl : (s.setDs v).ctrl = s.ctrl := rfl
@[simp] theorem State.setDs_status : (s.setDs v).status = s.status := rfl
@[simp] theorem State.setDs_scrollX : (s.setDs v).scrollX = s.scrollX := rfl
@[simp] theorem State.setDs_scrollY : (s.setDs v).scrollY = s.scrollY := rfl
@[simp] theorem State.setDs_live : (s.setDs v).live = s.live := rfl
@[simp] theorem State.setDs_latched : (s.setDs v).latched = s.latched := rfl
@[simp] theorem State.setDs_padCtrl : (s.setDs v).padCtrl = s.padCtrl := rfl
end

section
variable (s : State) (v : List Byte)
@[simp] theorem State.setRs_cfg : (s.setRs v).cfg = s.cfg := rfl
@[simp] theorem State.setRs_pc : (s.setRs v).pc = s.pc := rfl
@[simp] theorem State.setRs_running : (s.setRs v).running = s.running := rfl
@[simp] theorem State.setRs_ds : (s.setRs v).ds = s.ds := rfl
@[simp] theorem State.setRs_rs : (s.setRs v).rs = v := rfl
@[simp] theorem State.setRs_fault : (s.setRs v).fault = s.fault := rfl
@[simp] theorem State.setRs_mem : (s.setRs v).mem = s.mem := rfl
@[simp] theorem State.setRs_ctrl : (s.setRs v).ctrl = s.ctrl := rfl
@[simp] theorem State.setRs_status : (s.setRs v).status = s.status := rfl
@[simp] theorem State.setRs_scrollX : (s.setRs v).scrollX = s.scrollX := rfl
@[simp] theorem State.setRs_scrollY : (s.setRs v).scrollY = s.scrollY := rfl
@[simp] theorem State.setRs_live : (s.setRs v).live = s.live := rfl
@[simp] theorem State.setRs_latched : (s.setRs v).latched = s.latched := rfl
@[simp] theorem State.setRs_padCtrl : (s.setRs v).padCtrl = s.padCtrl := rfl
end

section
variable (s : State) (v : Option FaultRecord)
@[simp] theorem State.setFault_cfg : (s.setFault v).cfg = s.cfg := rfl
@[simp] theorem State.setFault_pc : (s.setFault v).pc = s.pc := rfl
@[simp] theorem State.setFault_running : (s.setFault v).running = s.running := rfl
@[simp] theorem State.setFault_ds : (s.setFault v).ds = s.ds := rfl
@[simp] theorem State.setFault_rs : (s.setFault v).rs = s.rs := rfl
@[simp] theorem State.setFault_fault : (s.setFault v).fault = v := rfl
@[simp] theorem State.setFault_mem : (s.setFault v).mem = s.mem := rfl
@[simp] theorem State.setFault_ctrl : (s.setFault v).ctrl = s.ctrl := rfl
@[simp] theorem State.setFault_status : (s.setFault v).status = s.status := rfl
@[simp] theorem State.setFault_scrollX : (s.setFault v).scrollX = s.scrollX := rfl
@[simp] theorem State.setFault_scrollY : (s.setFault v).scrollY = s.scrollY := rfl
@[simp] theorem State.setFault_live : (s.setFault v).live = s.live := rfl
@[simp] theorem State.setFault_latched : (s.setFault v).latched = s.latched := rfl
@[simp] theorem State.setFault_padCtrl : (s.setFault v).padCtrl = s.padCtrl := rfl
end

section
variable (s : State) (v : Memory)
@[simp] theorem State.setMem_cfg : (s.setMem v).cfg = s.cfg := rfl
@[simp] theorem State.setMem_pc : (s.setMem v).pc = s.pc := rfl
@[simp] theorem State.setMem_running : (s.setMem v).running = s.running := rfl
@[simp] theorem State.setMem_ds : (s.setMem v).ds = s.ds := rfl
@[simp] theorem State.setMem_rs : (s.setMem v).rs = s.rs := rfl
@[simp] theorem State.setMem_fault : (s.setMem v).fault = s.fault := rfl
@[simp] theorem State.setMem_mem : (s.setMem v).mem = v := rfl
@[simp] theorem State.setMem_ctrl : (s.setMem v).ctrl = s.ctrl := rfl
@[simp] theorem State.setMem_status : (s.setMem v).status = s.status := rfl
@[simp] theorem State.setMem_scrollX : (s.setMem v).scrollX = s.scrollX := rfl
@[simp] theorem State.setMem_scrollY : (s.setMem v).scrollY = s.scrollY := rfl
@[simp] theorem State.setMem_live : (s.setMem v).live = s.live := rfl
@[simp] theorem State.setMem_latched : (s.setMem v).latched = s.latched := rfl
@[simp] theorem State.setMem_padCtrl : (s.setMem v).padCtrl = s.padCtrl := rfl
end

section
variable (s : State) (v : Byte)
@[simp] theorem State.setCtrl_cfg : (s.setCtrl v).cfg = s.cfg := rfl
@[simp] theorem State.setCtrl_pc : (s.setCtrl v).pc = s.pc := rfl
@[simp] theorem State.setCtrl_running : (s.setCtrl v).running = s.running := rfl
@[simp] theorem State.setCtrl_ds : (s.setCtrl v).ds = s.ds := rfl
@[simp] theorem State.setCtrl_rs : (s.setCtrl v).rs = s.rs := rfl
@[simp] theorem State.setCtrl_fault : (s.setCtrl v).fault = s.fault := rfl
@[simp] theorem State.setCtrl_mem : (s.setCtrl v).mem = s.mem := rfl
@[simp] theorem State.setCtrl_ctrl : (s.setCtrl v).ctrl = v := rfl
@[simp] theorem State.setCtrl_status : (s.setCtrl v).status = s.status := rfl
@[simp] theorem State.setCtrl_scrollX : (s.setCtrl v).scrollX = s.scrollX := rfl
@[simp] theorem State.setCtrl_scrollY : (s.setCtrl v).scrollY = s.scrollY := rfl
@[simp] theorem State.setCtrl_live : (s.setCtrl v).live = s.live := rfl
@[simp] theorem State.setCtrl_latched : (s.setCtrl v).latched = s.latched := rfl
@[simp] theorem State.setCtrl_padCtrl : (s.setCtrl v).padCtrl = s.padCtrl := rfl
end

section
variable (s : State) (v : Byte)
@[simp] theorem State.setStatus_cfg : (s.setStatus v).cfg = s.cfg := rfl
@[simp] theorem State.setStatus_pc : (s.setStatus v).pc = s.pc := rfl
@[simp] theorem State.setStatus_running : (s.setStatus v).running = s.running := rfl
@[simp] theorem State.setStatus_ds : (s.setStatus v).ds = s.ds := rfl
@[simp] theorem State.setStatus_rs : (s.setStatus v).rs = s.rs := rfl
@[simp] theorem State.setStatus_fault : (s.setStatus v).fault = s.fault := rfl
@[simp] theorem State.setStatus_mem : (s.setStatus v).mem = s.mem := rfl
@[simp] theorem State.setStatus_ctrl : (s.setStatus v).ctrl = s.ctrl := rfl
@[simp] theorem State.setStatus_status : (s.setStatus v).status = v := rfl
@[simp] theorem State.setStatus_scrollX : (s.setStatus v).scrollX = s.scrollX := rfl
@[simp] theorem State.setStatus_scrollY : (s.setStatus v).scrollY = s.scrollY := rfl
@[simp] theorem State.setStatus_live : (s.setStatus v).live = s.live := rfl
@[simp] theorem State.setStatus_latched : (s.setStatus v).latched = s.latched := rfl
@[simp] theorem State.setStatus_padCtrl : (s.setStatus v).padCtrl = s.padCtrl := rfl
end

section
variable (s : State) (v : Byte)
@[simp] theorem State.setScrollX_cfg : (s.setScrollX v).cfg = s.cfg := rfl
@[simp] theorem State.setScrollX_pc : (s.setScrollX v).pc = s.pc := rfl
@[simp] theorem State.setScrollX_running : (s.setScrollX v).running = s.running := rfl
@[simp] theorem State.setScrollX_ds : (s.setScrollX v).ds = s.ds := rfl
@[simp] theorem State.setScrollX_rs : (s.setScrollX v).rs = s.rs := rfl
@[simp] theorem State.setScrollX_fault : (s.setScrollX v).fault = s.fault := rfl
@[simp] theorem State.setScrollX_mem : (s.setScrollX v).mem = s.mem := rfl
@[simp] theorem State.setScrollX_ctrl : (s.setScrollX v).ctrl = s.ctrl := rfl
@[simp] theorem State.setScrollX_status : (s.setScrollX v).status = s.status := rfl
@[simp] theorem State.setScrollX_scrollX : (s.setScrollX v).scrollX = v := rfl
@[simp] theorem State.setScrollX_scrollY : (s.setScrollX v).scrollY = s.scrollY := rfl
@[simp] theorem State.setScrollX_live : (s.setScrollX v).live = s.live := rfl
@[simp] theorem State.setScrollX_latched : (s.setScrollX v).latched = s.latched := rfl
@[simp] theorem State.setScrollX_padCtrl : (s.setScrollX v).padCtrl = s.padCtrl := rfl
end

section
variable (s : State) (v : Byte)
@[simp] theorem State.setScrollY_cfg : (s.setScrollY v).cfg = s.cfg := rfl
@[simp] theorem State.setScrollY_pc : (s.setScrollY v).pc = s.pc := rfl
@[simp] theorem State.setScrollY_running : (s.setScrollY v).running = s.running := rfl
@[simp] theorem State.setScrollY_ds : (s.setScrollY v).ds = s.ds := rfl
@[simp] theorem State.setScrollY_rs : (s.setScrollY v).rs = s.rs := rfl
@[simp] theorem State.setScrollY_fault : (s.setScrollY v).fault = s.fault := rfl
@[simp] theorem State.setScrollY_mem : (s.setScrollY v).mem = s.mem := rfl
@[simp] theorem State.setScrollY_ctrl : (s.setScrollY v).ctrl = s.ctrl := rfl
@[simp] theorem State.setScrollY_status : (s.setScrollY v).status = s.status := rfl
@[simp] theorem State.setScrollY_scrollX : (s.setScrollY v).scrollX = s.scrollX := rfl
@[simp] theorem State.setScrollY_scrollY : (s.setScrollY v).scrollY = v := rfl
@[simp] theorem State.setScrollY_live : (s.setScrollY v).live = s.live := rfl
@[simp] theorem State.setScrollY_latched : (s.setScrollY v).latched = s.latched := rfl
@[simp] theorem State.setScrollY_padCtrl : (s.setScrollY v).padCtrl = s.padCtrl := rfl
end

section
variable (s : State) (v : PadPair)
@[simp] theorem State.setLive_cfg : (s.setLive v).cfg = s.cfg := rfl
@[simp] theorem State.setLive_pc : (s.setLive v).pc = s.pc := rfl
@[simp] theorem State.setLive_running : (s.setLive v).running = s.running := rfl
@[simp] theorem State.setLive_ds : (s.setLive v).ds = s.ds := rfl
@[simp] theorem State.setLive_rs : (s.setLive v).rs = s.rs := rfl
@[simp] theorem State.setLive_fault : (s.setLive v).fault = s.fault := rfl
@[simp] theorem State.setLive_mem : (s.setLive v).mem = s.mem := rfl
@[simp] theorem State.setLive_ctrl : (s.setLive v).ctrl = s.ctrl := rfl
@[simp] theorem State.setLive_status : (s.setLive v).status = s.status := rfl
@[simp] theorem State.setLive_scrollX : (s.setLive v).scrollX = s.scrollX := rfl
@[simp] theorem State.setLive_scrollY : (s.setLive v).scrollY = s.scrollY := rfl
@[simp] theorem State.setLive_live : (s.setLive v).live = v := rfl
@[simp] theorem State.setLive_latched : (s.setLive v).latched = s.latched := rfl
@[simp] theorem State.setLive_padCtrl : (s.setLive v).padCtrl = s.padCtrl := rfl
end

section
variable (s : State) (v : PadPair)
@[simp] theorem State.setLatched_cfg : (s.setLatched v).cfg = s.cfg := rfl
@[simp] theorem State.setLatched_pc : (s.setLatched v).pc = s.pc := rfl
@[simp] theorem State.setLatched_running : (s.setLatched v).running = s.running := rfl
@[simp] theorem State.setLatched_ds : (s.setLatched v).ds = s.ds := rfl
@[simp] theorem State.setLatched_rs : (s.setLatched v).rs = s.rs := rfl
@[simp] theorem State.setLatched_fault : (s.setLatched v).fault = s.fault := rfl
@[simp] theorem State.setLatched_mem : (s.setLatched v).mem = s.mem := rfl
@[simp] theorem State.setLatched_ctrl : (s.setLatched v).ctrl = s.ctrl := rfl
@[simp] theorem State.setLatched_status : (s.setLatched v).status = s.status := rfl
@[simp] theorem State.setLatched_scrollX : (s.setLatched v).scrollX = s.scrollX := rfl
@[simp] theorem State.setLatched_scrollY : (s.setLatched v).scrollY = s.scrollY := rfl
@[simp] theorem State.setLatched_live : (s.setLatched v).live = s.live := rfl
@[simp] theorem State.setLatched_latched : (s.setLatched v).latched = v := rfl
@[simp] theorem State.setLatched_padCtrl : (s.setLatched v).padCtrl = s.padCtrl := rfl
end

section
variable (s : State) (v : Byte)
@[simp] theorem State.setPadCtrl_cfg : (s.setPadCtrl v).cfg = s.cfg := rfl
@[simp] theorem State.setPadCtrl_pc : (s.setPadCtrl v).pc = s.pc := rfl
@[simp] theorem State.setPadCtrl_running : (s.setPadCtrl v).running = s.running := rfl
@[simp] theorem State.setPadCtrl_ds : (s.setPadCtrl v).ds = s.ds := rfl
@[simp] theorem State.setPadCtrl_rs : (s.setPadCtrl v).rs = s.rs := rfl
@[simp] theorem State.setPadCtrl_fault : (s.setPadCtrl v).fault = s.fault := rfl
@[simp] theorem State.setPadCtrl_mem : (s.setPadCtrl v).mem = s.mem := rfl
@[simp] theorem State.setPadCtrl_ctrl : (s.setPadCtrl v).ctrl = s.ctrl := rfl
@[simp] theorem State.setPadCtrl_status : (s.setPadCtrl v).status = s.status := rfl
@[simp] theorem State.setPadCtrl_scrollX : (s.setPadCtrl v).scrollX = s.scrollX := rfl
@[simp] theorem State.setPadCtrl_scrollY : (s.setPadCtrl v).scrollY = s.scrollY := rfl
@[simp] theorem State.setPadCtrl_live : (s.setPadCtrl v).live = s.live := rfl
@[simp] theorem State.setPadCtrl_latched : (s.setPadCtrl v).latched = s.latched := rfl
@[simp] theorem State.setPadCtrl_padCtrl : (s.setPadCtrl v).padCtrl = v := rfl
end

section
variable (op : Option Byte) (r : Raise) (s : State)
@[simp] theorem takeFault_cfg : (takeFault op r s).cfg = s.cfg := rfl
@[simp] theorem takeFault_pc : (takeFault op r s).pc = s.pc := rfl
@[simp] theorem takeFault_running : (takeFault op r s).running = false := rfl
@[simp] theorem takeFault_ds : (takeFault op r s).ds = s.ds := rfl
@[simp] theorem takeFault_rs : (takeFault op r s).rs = s.rs := rfl
@[simp] theorem takeFault_fault : (takeFault op r s).fault = some (faultRecord op r s) := rfl
@[simp] theorem takeFault_mem : (takeFault op r s).mem = s.mem := rfl
@[simp] theorem takeFault_ctrl : (takeFault op r s).ctrl = s.ctrl := rfl
@[simp] theorem takeFault_status : (takeFault op r s).status = s.status := rfl
@[simp] theorem takeFault_scrollX : (takeFault op r s).scrollX = s.scrollX := rfl
@[simp] theorem takeFault_scrollY : (takeFault op r s).scrollY = s.scrollY := rfl
@[simp] theorem takeFault_live : (takeFault op r s).live = s.live := rfl
@[simp] theorem takeFault_latched : (takeFault op r s).latched = s.latched := rfl
@[simp] theorem takeFault_padCtrl : (takeFault op r s).padCtrl = s.padCtrl := rfl
end

section
variable (s : State)
@[simp] theorem latchPads_cfg : (latchPads s).cfg = s.cfg := rfl
@[simp] theorem latchPads_pc : (latchPads s).pc = s.pc := rfl
@[simp] theorem latchPads_running : (latchPads s).running = s.running := rfl
@[simp] theorem latchPads_ds : (latchPads s).ds = s.ds := rfl
@[simp] theorem latchPads_rs : (latchPads s).rs = s.rs := rfl
@[simp] theorem latchPads_fault : (latchPads s).fault = s.fault := rfl
@[simp] theorem latchPads_mem : (latchPads s).mem = s.mem := rfl
@[simp] theorem latchPads_ctrl : (latchPads s).ctrl = s.ctrl := rfl
@[simp] theorem latchPads_status : (latchPads s).status = s.status := rfl
@[simp] theorem latchPads_scrollX : (latchPads s).scrollX = s.scrollX := rfl
@[simp] theorem latchPads_scrollY : (latchPads s).scrollY = s.scrollY := rfl
@[simp] theorem latchPads_live : (latchPads s).live = s.live := rfl
@[simp] theorem latchPads_latched : (latchPads s).latched = s.live := rfl
@[simp] theorem latchPads_padCtrl : (latchPads s).padCtrl = s.padCtrl := rfl
end

end Sys2Proof.Machine
end

