-- ==== Sys2Proof/Laws/Bus.lean ====
section
/-!
SUPPORT. The bus (spec/20_memory.md R51 to R55): when an access answers, and everything a write can change.
-/
namespace Sys2Proof.Machine

/-- A window found handles the address (R51). -/
theorem findWindow_handles {c : Config} {a : Word} {w : Window} (h : findWindow c a = some w) :
    windowHandles w a = true := by
  simpa using List.find?_some (p := fun w => windowHandles w a) h

/-- Reading depends on the map only for whether it answers (R51). -/
theorem busRead_isSome (s : State) (a : Word) : (busRead s a).isSome = (findWindow s.cfg a).isSome := by
  unfold busRead; cases findWindow s.cfg a <;> rfl

/-- A write answers exactly where a read does (R51, R52). -/
theorem busWrite_isSome (s : State) (a : Word) (v : Byte) :
    (busWrite s a v).isSome = (busRead s a).isSome := by
  unfold busWrite busRead; cases findWindow s.cfg a <;> rfl

theorem busRead_of_window {s : State} {a : Word} {w : Window} (h : findWindow s.cfg a = some w) :
    busRead s a = some (readWindow s w a) := by simp [busRead, h]

theorem busWrite_of_window {s : State} {a : Word} {w : Window} (h : findWindow s.cfg a = some w) (v : Byte) :
    busWrite s a v = some (writeWindow s w a v) := by simp [busWrite, h]

/-- Everything a device write can be (R55, R64): nothing, one byte of storage, one register, or `pad_ctrl`. -/
theorem writeWindow_cases (s : State) (w : Window) (a : Word) (v : Byte) :
    ((w.region = .rom ∨ w.region = .latched) ∧ writeWindow s w a v = s) ∨
    (isStorage w.region = true ∧ w.region ≠ .rom ∧
      writeWindow s w a v = s.setMem (s.mem.write a.toNat v)) ∨
    (w.region = .ctrl ∧ writeWindow s w a v = s.setCtrl v) ∨
    (w.region = .status ∧ writeWindow s w a v = s.setStatus v) ∨
    (w.region = .scrollX ∧ writeWindow s w a v = s.setScrollX v) ∨
    (w.region = .scrollY ∧ writeWindow s w a v = s.setScrollY v) ∨
    (w.region = .padCtrl ∧ writeWindow s w a v = writePadCtrl s v) := by
  cases hr : w.region <;> simp [writeWindow, hr, isStorage]

section
variable (s : State) (w : Window) (a : Word) (v : Byte)

/-- A bus write changes the target device only, never the CPU or the configuration (R55). -/
@[simp] theorem writeWindow_cfg : (writeWindow s w a v).cfg = s.cfg := by
  unfold writeWindow writePadCtrl; split <;> (try split) <;> rfl
@[simp] theorem writeWindow_pc : (writeWindow s w a v).pc = s.pc := by
  unfold writeWindow writePadCtrl; split <;> (try split) <;> rfl
@[simp] theorem writeWindow_running : (writeWindow s w a v).running = s.running := by
  unfold writeWindow writePadCtrl; split <;> (try split) <;> rfl
@[simp] theorem writeWindow_ds : (writeWindow s w a v).ds = s.ds := by
  unfold writeWindow writePadCtrl; split <;> (try split) <;> rfl
@[simp] theorem writeWindow_rs : (writeWindow s w a v).rs = s.rs := by
  unfold writeWindow writePadCtrl; split <;> (try split) <;> rfl
@[simp] theorem writeWindow_fault : (writeWindow s w a v).fault = s.fault := by
  unfold writeWindow writePadCtrl; split <;> (try split) <;> rfl
@[simp] theorem writeWindow_live : (writeWindow s w a v).live = s.live := by
  unfold writeWindow writePadCtrl; split <;> (try split) <;> rfl

end

/-- A bus write that answers is the device write of the window found (R52). -/
theorem busWrite_some {s t : State} {a : Word} {v : Byte} (h : busWrite s a v = some t) :
    ∃ w, findWindow s.cfg a = some w ∧ t = writeWindow s w a v := by
  unfold busWrite at h
  split at h
  · rename_i w hw
    exact ⟨w, hw, (Option.some.inj h).symm⟩
  · cases h

section
variable {s t : State} {a : Word} {v : Byte}

/-- What every bus write leaves alone, stated of the write itself (R55). -/
theorem busWrite_cfg (h : busWrite s a v = some t) : t.cfg = s.cfg := by
  obtain ⟨w, -, rfl⟩ := busWrite_some h; simp
theorem busWrite_pc (h : busWrite s a v = some t) : t.pc = s.pc := by
  obtain ⟨w, -, rfl⟩ := busWrite_some h; simp
theorem busWrite_running (h : busWrite s a v = some t) : t.running = s.running := by
  obtain ⟨w, -, rfl⟩ := busWrite_some h; simp
theorem busWrite_fault (h : busWrite s a v = some t) : t.fault = s.fault := by
  obtain ⟨w, -, rfl⟩ := busWrite_some h; simp
theorem busWrite_ds (h : busWrite s a v = some t) : t.ds = s.ds := by
  obtain ⟨w, -, rfl⟩ := busWrite_some h; simp
theorem busWrite_rs (h : busWrite s a v = some t) : t.rs = s.rs := by
  obtain ⟨w, -, rfl⟩ := busWrite_some h; simp
theorem busWrite_live (h : busWrite s a v = some t) : t.live = s.live := by
  obtain ⟨w, -, rfl⟩ := busWrite_some h; simp

end

/-- Reads see the device fields and storage only (R51). -/
theorem busRead_congr {s t : State} (hc : t.cfg = s.cfg) (hm : t.mem = s.mem) (h1 : t.ctrl = s.ctrl)
    (h2 : t.status = s.status) (h3 : t.scrollX = s.scrollX) (h4 : t.scrollY = s.scrollY)
    (h5 : t.latched = s.latched) (h6 : t.padCtrl = s.padCtrl) (a : Word) : busRead t a = busRead s a := by
  simp [busRead, readWindow, hc, hm, h1, h2, h3, h4, h5, h6]

@[simp] theorem busRead_setPc (s : State) (v : Word) (a : Word) : busRead (s.setPc v) a = busRead s a := rfl
@[simp] theorem busRead_setRunning (s : State) (v : Bool) (a : Word) :
    busRead (s.setRunning v) a = busRead s a := rfl
@[simp] theorem busRead_setDs (s : State) (v : List Byte) (a : Word) :
    busRead (s.setDs v) a = busRead s a := rfl
@[simp] theorem busRead_setRs (s : State) (v : List Byte) (a : Word) :
    busRead (s.setRs v) a = busRead s a := rfl
@[simp] theorem busRead_setFault (s : State) (v : Option FaultRecord) (a : Word) :
    busRead (s.setFault v) a = busRead s a := rfl
@[simp] theorem busRead_takeFault (op : Option Byte) (r : Raise) (s : State) (a : Word) :
    busRead (takeFault op r s) a = busRead s a := rfl

end Sys2Proof.Machine
end

