-- ==== Sys2Proof/Laws/Decode.lean ====
section
/-!
SUPPORT. The byte helpers and the opcode map read both ways (spec/30_encoding.md R91, R97, R100).
-/
namespace Sys2Proof

@[simp] theorem joinBytes_split (w : Word) : joinBytes (hiByte w) (loByte w) = w := by
  apply BitVec.eq_of_toNat_eq
  simp only [joinBytes, hiByte, loByte, BitVec.toNat_append, BitVec.extractLsb'_toNat, Nat.shiftLeft_eq]
  rw [← Nat.shiftLeft_eq, ← Nat.shiftLeft_add_eq_or_of_lt (Nat.mod_lt _ (by decide))]
  simp only [Nat.shiftLeft_eq, Nat.shiftRight_eq_div_pow]
  omega

@[simp] theorem hiByte_join (hi lo : Byte) : hiByte (joinBytes hi lo) = hi := by
  apply BitVec.eq_of_toNat_eq
  simp only [joinBytes, hiByte, BitVec.toNat_append, BitVec.extractLsb'_toNat]
  rw [← Nat.shiftLeft_add_eq_or_of_lt lo.isLt]
  simp only [Nat.shiftLeft_eq, Nat.shiftRight_eq_div_pow]
  omega

@[simp] theorem loByte_join (hi lo : Byte) : loByte (joinBytes hi lo) = lo := by
  apply BitVec.eq_of_toNat_eq
  simp only [joinBytes, loByte, BitVec.toNat_append, BitVec.extractLsb'_toNat]
  rw [← Nat.shiftLeft_add_eq_or_of_lt lo.isLt]
  simp only [Nat.shiftLeft_eq, Nat.shiftRight_eq_div_pow]
  omega

/-- The opcodes of format `I8` and `S8` (R97). -/
theorem opcodeMap_byte {op : Byte} {mk : Byte → Instr} (h : opcodeMap op = .byte mk) :
    (op = 0x34 ∧ mk = .lit) ∨ (op = 0x54 ∧ mk = .bra) := by
  have hall : ∀ op : Byte, (match opcodeMap op with | .byte _ => true | _ => false) = true →
      op = 0x34 ∨ op = 0x54 := by decide
  rcases hall op (by rw [h]) with rfl | rfl
  · exact .inl ⟨rfl, (Shape.byte.inj h).symm⟩
  · exact .inr ⟨rfl, (Shape.byte.inj h).symm⟩

/-- The opcodes of format `I16` (R97). -/
theorem opcodeMap_word {op : Byte} {mk : Word → Instr} (h : opcodeMap op = .word mk) :
    (op = 0x35 ∧ mk = .lit2) ∨ (op = 0x50 ∧ mk = .jmp) ∨ (op = 0x51 ∧ mk = .call) := by
  have hall : ∀ op : Byte, (match opcodeMap op with | .word _ => true | _ => false) = true →
      op = 0x35 ∨ op = 0x50 ∨ op = 0x51 := by decide
  rcases hall op (by rw [h]) with rfl | rfl | rfl
  · exact .inl ⟨rfl, (Shape.word.inj h).symm⟩
  · exact .inr (.inl ⟨rfl, (Shape.word.inj h).symm⟩)
  · exact .inr (.inr ⟨rfl, (Shape.word.inj h).symm⟩)

/-- The one opcode of format `SUB` (R97). -/
theorem opcodeMap_service {op : Byte} (h : opcodeMap op = .service) : op = 0x01 := by
  have hall : ∀ op : Byte, (match opcodeMap op with | .service => true | _ => false) = true → op = 0x01 := by
    decide
  exact hall op (by rw [h])

/-- An opcode of format `Z` is the whole encoding of its instruction (R97). -/
theorem opcodeMap_complete {op : Byte} {i : Instr} (h : opcodeMap op = .complete i) :
    encode i = [op] ∧ i.length = 1 := by
  have hall : ∀ op : Byte, (match opcodeMap op with
      | .complete i => decide (encode i = [op]) && decide (i.length = 1)
      | _ => true) = true := by decide
  have := hall op
  rw [h] at this
  simpa using this

/-- The services (R100). -/
theorem serviceMap_some {sub : Byte} {i : Instr} (h : serviceMap sub = some i) :
    (sub = 0x10 ∧ i = .trace) ∨ (sub = 0x11 ∧ i = .puts) := by
  have hall : ∀ sub : Byte, (serviceMap sub).isSome = true → sub = 0x10 ∨ sub = 0x11 := by decide
  rcases hall sub (by simp [h]) with rfl | rfl
  · exact .inl ⟨rfl, (Option.some.inj h).symm⟩
  · exact .inr ⟨rfl, (Option.some.inj h).symm⟩

theorem byteOf_ok {bs : List Byte} {k : Nat} {b : Byte} : byteOf bs k = .ok b ↔ bs[k]? = some b := by
  unfold byteOf; cases bs[k]? <;> simp

/-- Decoding asks its source for bytes only: a second source that has every byte the first has decodes the same. -/
theorem decodeFrom_mono {ε δ : Type} {get : Nat → Except ε Byte} {get' : Nat → Except δ Byte} {i : Instr}
    (h : decodeFrom get = .ok i) (hg : ∀ k b, get k = .ok b → get' k = .ok b) : decodeFrom get' = .ok i := by
  unfold decodeFrom at h
  split at h
  · cases h
  · rename_i op h0
    simp only [decodeFrom, hg _ _ h0]
    split at h
    · cases h
    · cases h; rfl
    · split at h
      · cases h
      · rename_i h1
        simp only [hg _ _ h1]
        cases h; rfl
    · split at h
      · cases h
      · rename_i h1
        simp only [hg _ _ h1]
        split at h
        · cases h; simp_all
        · cases h
    · split at h
      · cases h
      · rename_i h1
        split at h
        · cases h
        · rename_i h2
          simp only [hg _ _ h1, hg _ _ h2]
          cases h; rfl

end Sys2Proof
end

