-- ==== Sys2Proof/Laws/Stack.lean ====
section
/-!
SUPPORT. The stack operations, memory accesses and operand forms: everything each can do (spec/10_state.md R24 to R29).
-/
namespace Sys2Proof.Machine

open Sys2Proof.Safety

/-! ## Sequencing -/

@[simp] theorem ok_bind {ε α β : Type} (x : α) (f : α → Except ε β) : (Except.ok x >>= f) = f x := rfl

@[simp] theorem error_bind {ε α β : Type} (e : ε) (f : α → Except ε β) :
    (Except.error e >>= f) = Except.error e := rfl

/-- A sequence that answers: its first part answers, and its second part answers from there. -/
theorem bind_ok {ε α β : Type} {x : Except ε α} {f : α → Except ε β} {y : β} (h : (x >>= f) = .ok y) :
    ∃ a, x = .ok a ∧ f a = .ok y := by
  cases x with
  | error e => cases h
  | ok a => exact ⟨a, rfl, h⟩

/-! ## Popping and pushing -/

/-- A pop that can be made gives the top cell, or 0 (R24). -/
theorem popD_of_canPop {s : State} (h : canPop s 1) : popD s = .ok (cell s 0, s.setDs s.ds.tail) := by
  obtain ⟨cfg, pc, running, ds, rs, fault, mem, ctrl, status, scrollX, scrollY, live, latched, padCtrl⟩ := s
  cases ds with
  | cons v rest => rfl
  | nil =>
    rcases h with h | h
    · simp only at h
      simp [popD, h, cell, State.setDs]
    · simp at h

/-- A pop that cannot be made underflows (R24). -/
theorem popD_of_not_canPop {s : State} (h : ¬ canPop s 1) : popD s = .error .dsUnderflow := by
  obtain ⟨cfg, pc, running, ds, rs, fault, mem, ctrl, status, scrollX, scrollY, live, latched, padCtrl⟩ := s
  cases ds with
  | cons v rest => exact absurd (.inr (by simp)) h
  | nil =>
    have h' : ¬ cfg.dsUnderflow = .lenientZero := fun hc => h (.inl hc)
    cases hd : cfg.dsUnderflow with
    | lenientZero => exact absurd hd h'
    | strict => simp [popD, hd]

/-- Everything a pop of the data stack can do (R24). -/
theorem popD_ok {s t : State} {v : Byte} (h : popD s = .ok (v, t)) :
    canPop s 1 ∧ v = cell s 0 ∧ t = s.setDs s.ds.tail := by
  by_cases hc : canPop s 1
  · rw [popD_of_canPop hc] at h
    cases h
    exact ⟨hc, rfl, rfl⟩
  · rw [popD_of_not_canPop hc] at h
    cases h

/-! What the stack claims read does not see `pc`. -/

theorem canPop_setPc (s : State) (v : Word) (n : Nat) : canPop (s.setPc v) n ↔ canPop s n := Iff.rfl
@[simp] theorem cell_setPc (s : State) (v : Word) (k : Nat) : cell (s.setPc v) k = cell s k := rfl
@[simp] theorem topAddr_setPc (s : State) (v : Word) : topAddr (s.setPc v) = topAddr s := rfl

/-- One pop leaves the pops below it possible. -/
theorem canPop_tail {s : State} {n : Nat} : canPop (s.setDs s.ds.tail) n ↔ canPop s (n + 1) ∨ n = 0 := by
  simp only [canPop, State.setDs_cfg, State.setDs_ds, List.length_tail]
  by_cases h : s.cfg.dsUnderflow = .lenientZero
  · simp [h]
  · simp only [h, false_or]
    omega

/-- The cells after a pop (R24). -/
theorem cell_tail (s : State) (k : Nat) : cell (s.setDs s.ds.tail) k = cell s (k + 1) := by
  simp [cell, List.getD]

/-- After `k` pops: the state the pops leave. -/
theorem canPop_drop {s : State} {k n : Nat} (h : canPop s (k + n)) : canPop (s.setDs (s.ds.drop k)) n := by
  rcases h with h | h
  · exact .inl h
  · exact .inr (by simp only [State.setDs_ds, List.length_drop]; omega)

theorem canPop_le {s : State} {m n : Nat} (h : canPop s n) (hm : m ≤ n) : canPop s m :=
  h.imp id fun h => by omega

/-- A pop made after `k` pops (R24). -/
theorem popD_drop {s : State} {k : Nat} (h : canPop s (k + 1)) :
    popD (s.setDs (s.ds.drop k)) = .ok (cell s k, s.setDs (s.ds.drop (k + 1))) := by
  rw [popD_of_canPop (canPop_drop h)]
  simp [cell, List.getD, State.setDs]

theorem popD_drop_zero {s : State} (h : canPop s 1) : popD s = .ok (cell s 0, s.setDs (s.ds.drop 1)) := by
  rw [popD_of_canPop h, List.drop_one]

/-- A pop that fails after `k` pops (R24). -/
theorem popD_drop_error {s : State} {k : Nat} (hk : ¬ canPop s (k + 1)) :
    popD (s.setDs (s.ds.drop k)) = .error .dsUnderflow := by
  refine popD_of_not_canPop fun h => hk ?_
  rcases h with h | h
  · exact .inl h
  · simp only [State.setDs_ds, List.length_drop] at h
    exact .inr (by omega)

/-- An address popped, the high byte first (R96). -/
theorem popWordD_of_canPop {s : State} (h : canPop s 2) :
    popWordD s = .ok (topAddr s, s.setDs (s.ds.drop 2)) := by
  simp only [popWordD, popD_drop_zero (canPop_le h (by decide)), ok_bind, popD_drop (k := 1) h, topAddr]

theorem popWordD_of_not_canPop {s : State} (h : ¬ canPop s 2) : popWordD s = .error .dsUnderflow := by
  by_cases h1 : canPop s 1
  · simp only [popWordD, popD_drop_zero h1, ok_bind, popD_drop_error (k := 1) h, error_bind]
  · simp only [popWordD, popD_of_not_canPop h1, error_bind]

/-- An operand pair popped, the right operand first (R96, R140). -/
theorem popPairD_of_canPop {s : State} (h : canPop s 2) :
    popPairD s = .ok (cell s 1, cell s 0, s.setDs (s.ds.drop 2)) := by
  simp only [popPairD, popD_drop_zero (canPop_le h (by decide)), ok_bind, popD_drop (k := 1) h]

theorem popPairD_of_not_canPop {s : State} (h : ¬ canPop s 2) : popPairD s = .error .dsUnderflow := by
  by_cases h1 : canPop s 1
  · simp only [popPairD, popD_drop_zero h1, ok_bind, popD_drop_error (k := 1) h, error_bind]
  · simp only [popPairD, popD_of_not_canPop h1, error_bind]

/-- Everything a push on the data stack can do (R25). -/
theorem pushD_ok {s t : State} {v : Byte} (h : pushD s v = .ok t) :
    s.ds.length < dsCap ∧ t = s.setDs (v :: s.ds) := by
  unfold pushD at h
  split at h
  · cases h
  · cases h
    exact ⟨by omega, rfl⟩

theorem pushD_of_room {s : State} (v : Byte) (h : s.ds.length < dsCap) : pushD s v = .ok (s.setDs (v :: s.ds)) := by
  simp [pushD, Nat.not_le.mpr h]

theorem pushD_of_full {s : State} (v : Byte) (h : dsCap ≤ s.ds.length) : pushD s v = .error .dsOverflow := by
  simp [pushD, h]

/-- Everything a pop of the return stack can do (R27). -/
theorem popR_ok {s t : State} {v : Byte} (h : popR s = .ok (v, t)) : s.rs = v :: t.rs ∧ t = s.setRs s.rs.tail := by
  unfold popR at h
  split at h
  · rename_i hs
    cases h
    simp [hs]
  · cases h

/-- Everything a push on the return stack can do (R28). -/
theorem pushR_ok {s t : State} {v : Byte} (h : pushR s v = .ok t) :
    s.rs.length < rsCap ∧ t = s.setRs (v :: s.rs) := by
  unfold pushR at h
  split at h
  · cases h
  · cases h
    exact ⟨by omega, rfl⟩

theorem pushR_of_room {s : State} (v : Byte) (h : s.rs.length < rsCap) : pushR s v = .ok (s.setRs (v :: s.rs)) := by
  simp [pushR, Nat.not_le.mpr h]

theorem pushR_of_full {s : State} (v : Byte) (h : rsCap ≤ s.rs.length) : pushR s v = .error .rsOverflow := by
  simp [pushR, h]

/-- Two cells pushed where there is room for both (R25). -/
theorem pushTwoD_of_room {s : State} (x y : Byte) (h : s.ds.length + 2 ≤ dsCap) :
    pushTwoD s x y = .ok (s.setDs (y :: x :: s.ds)) := by
  simp only [pushTwoD, pushD_of_room x (show s.ds.length < dsCap by omega), ok_bind]
  exact pushD_of_room y (by simp only [State.setDs_ds, List.length_cons]; omega)

theorem pushTwoD_of_full {s : State} (x y : Byte) (h : dsCap < s.ds.length + 2) :
    pushTwoD s x y = .error .dsOverflow := by
  by_cases h1 : s.ds.length < dsCap
  · simp only [pushTwoD, pushD_of_room x h1, ok_bind]
    exact pushD_of_full y (by simp only [State.setDs_ds, List.length_cons]; omega)
  · simp only [pushTwoD, pushD_of_full x (show dsCap ≤ s.ds.length by omega), error_bind]

/-- A return address pushed where there is room for it (R28, R29). -/
theorem pushWordR_of_room {s : State} (a : Word) (h : s.rs.length + 2 ≤ rsCap) :
    pushWordR s a = .ok (s.setRs (loByte a :: hiByte a :: s.rs)) := by
  simp only [pushWordR, pushR_of_room _ (show s.rs.length < rsCap by omega), ok_bind]
  exact pushR_of_room _ (by simp only [State.setRs_rs, List.length_cons]; omega)

theorem pushWordR_of_full {s : State} (a : Word) (h : rsCap < s.rs.length + 2) :
    pushWordR s a = .error .rsOverflow := by
  by_cases h1 : s.rs.length < rsCap
  · simp only [pushWordR, pushR_of_room _ h1, ok_bind]
    exact pushR_of_full _ (by simp only [State.setRs_rs, List.length_cons]; omega)
  · simp only [pushWordR, pushR_of_full _ (show rsCap ≤ s.rs.length by omega), error_bind]

/-- A return address popped, the low byte first (R29). -/
theorem popWordR_of_two {s : State} {lo hi : Byte} {rest : List Byte} (h : s.rs = lo :: hi :: rest) :
    popWordR s = .ok (joinBytes hi lo, s.setRs rest) := by
  simp [popWordR, popR, h, State.setRs]

theorem popWordR_of_short {s : State} (h : s.rs.length < 2) : popWordR s = .error .rsUnderflow := by
  match hr : s.rs with
  | [] => simp [popWordR, popR, hr]
  | [x] => simp [popWordR, popR, hr]
  | _ :: _ :: _ => simp [hr] at h

/-! ## Memory accesses -/

/-- Everything a CPU read can do (R51). -/
theorem memRead_ok {s : State} {a : Word} {x : Access} {v : Byte} :
    memRead s a x = .ok v ↔ busRead s a = some v := by
  unfold memRead; cases busRead s a <;> simp

theorem memRead_of_none {s : State} {a : Word} (x : Access) (h : busRead s a = none) :
    memRead s a x = .error (.unmapped a x) := by simp [memRead, h]

@[simp] theorem memRead_setPc (s : State) (v : Word) (a : Word) (x : Access) :
    memRead (s.setPc v) a x = memRead s a x := rfl
@[simp] theorem memRead_setDs (s : State) (v : List Byte) (a : Word) (x : Access) :
    memRead (s.setDs v) a x = memRead s a x := rfl
@[simp] theorem memRead_setRs (s : State) (v : List Byte) (a : Word) (x : Access) :
    memRead (s.setRs v) a x = memRead s a x := rfl

theorem memRead_of_some {s : State} {a : Word} {v : Byte} (x : Access) (h : busRead s a = some v) :
    memRead s a x = .ok v := memRead_ok.mpr h

/-- Everything a CPU write can do (R52). -/
theorem memWrite_ok {s t : State} {a : Word} {v : Byte} : memWrite s a v = .ok t ↔ busWrite s a v = some t := by
  unfold memWrite; cases busWrite s a v <;> simp

theorem memWrite_of_none {s : State} {a : Word} {v : Byte} (h : busWrite s a v = none) :
    memWrite s a v = .error (.unmapped a .write) := by simp [memWrite, h]

/-- A bus write answers alike, and does the same, whatever `pc` and the stacks hold (R55). -/
theorem busWrite_setDs (s : State) (ds : List Byte) (a : Word) (v : Byte) :
    busWrite (s.setDs ds) a v = (busWrite s a v).map fun t => t.setDs ds := by
  unfold busWrite
  rw [State.setDs_cfg]
  cases findWindow s.cfg a with
  | none => rfl
  | some w => simp only [Option.map_some, writeWindow, writePadCtrl]; split <;> (try split) <;> rfl

theorem busWrite_setPc (s : State) (pc : Word) (a : Word) (v : Byte) :
    busWrite (s.setPc pc) a v = (busWrite s a v).map fun t => t.setPc pc := by
  unfold busWrite
  rw [State.setPc_cfg]
  cases findWindow s.cfg a with
  | none => rfl
  | some w => simp only [Option.map_some, writeWindow, writePadCtrl]; split <;> (try split) <;> rfl

/-- A fault taken, field by field (R213). -/
theorem takeFault_eq_stopped (op : Option Byte) (r : Raise) (s : State) :
    takeFault op r s = stopped s (record s r.kind r.kind.code op r.sub? r.addr? r.access?) := rfl

end Sys2Proof.Machine
end

