-- ==== Sys2Proof/Laws/Exec.lean ====
section
/-!
SUPPORT. What a meaning and a step can do: the bodies behind the arms of `exec`, the two outcomes of `perform`, and
the relation a body without a store keeps (spec/40_system.md R110, spec/60_exceptions.md R213).
-/
namespace Sys2Proof.Machine

open Sys2Proof.Safety

/-- The body each meaning performs; `a` is the opcode's address, which only `WAITVB` uses. -/
def bodyOf (i : Instr) (a : Word) : State → Except Raise State :=
  match i with
  | .nop => fun t => .ok t
  | .trace => fun t => .ok t
  | .puts => bodyPuts
  | .halt => fun t => .ok (t.setRunning false)
  | .drop => bodyDrop
  | .dup => bodyDup
  | .swap => bodySwap
  | .overCopy => bodyOver
  | .rot => bodyRot
  | .ld8 => bodyLd8
  | .st8 => bodySt8
  | .ld16 => bodyLd16
  | .st16 => bodySt16
  | .lit imm => fun t => pushD t imm
  | .lit2 imm => fun t => pushTwoD t (loByte imm) (hiByte imm)
  | .add => bodyBinary fun a b => a + b
  | .sub => bodyBinary fun a b => a - b
  | .and => bodyBinary fun a b => a &&& b
  | .or => bodyBinary fun a b => a ||| b
  | .xor => bodyBinary fun a b => a ^^^ b
  | .not => bodyNot
  | .cmpReserved => fun _ => .error .reservedOpcode
  | .jmp target => fun t => .ok (t.setPc target)
  | .call target => bodyCall target
  | .ret => bodyRet
  | .retz => bodyRetz
  | .bra off => fun t => .ok (t.setPc (t.pc + sext16 off))
  | .tor => bodyTor
  | .fromr => bodyFromr
  | .waitvb => bodyWaitvb a

/-- Every arm of `exec` performs its body. -/
theorem exec_eq_perform (i : Instr) (s : State) : exec i s = perform i (bodyOf i s.pc) s := by
  cases i <;> rfl

/-- A body that answers is the next state. -/
theorem perform_of_ok {i : Instr} {body : State → Except Raise State} {s t : State}
    (h : body (s.setPc (s.pc + BitVec.ofNat 16 i.length)) = .ok t) : perform i body s = .next t := by
  simp [perform, h]

/-- A body that raises is the fault taken from the state before the step. -/
theorem perform_of_error {i : Instr} {body : State → Except Raise State} {s : State} {r : Raise}
    (h : body (s.setPc (s.pc + BitVec.ofNat 16 i.length)) = .error r) :
    perform i body s = .next (takeFault (some i.opcode) r s) := by
  simp [perform, h]

/-- Everything an instruction can do: complete its body, or take one fault. -/
theorem exec_cases (i : Instr) (s : State) :
    (∃ t, bodyOf i s.pc (s.setPc (s.pc + BitVec.ofNat 16 i.length)) = .ok t ∧ exec i s = .next t) ∨
    ∃ r, bodyOf i s.pc (s.setPc (s.pc + BitVec.ofNat 16 i.length)) = .error r ∧
      exec i s = .next (takeFault (some i.opcode) r s) := by
  rw [exec_eq_perform]
  cases h : bodyOf i s.pc (s.setPc (s.pc + BitVec.ofNat 16 i.length)) with
  | ok t => exact .inl ⟨t, rfl, perform_of_ok h⟩
  | error r => exact .inr ⟨r, rfl, perform_of_error h⟩

/-- Everything a step can do: nothing, take the fault of a fetch or decode, or run the instruction fetched. -/
theorem step_cases (s : State) :
    (s.running = false ∧ step s = .next s) ∨
    (s.running = true ∧ ∃ e, fetchInstr s = .error e ∧ step s = .next (takeReject e s)) ∨
    (s.running = true ∧ ∃ i, fetchInstr s = .ok i ∧ step s = exec i s) := by
  cases hr : s.running with
  | false => exact .inl ⟨rfl, by simp [step, hr]⟩
  | true =>
    cases hf : fetchInstr s with
    | ok i => exact .inr (.inr ⟨rfl, i, rfl, by simp [step, hr, hf]⟩)
    | error e => exact .inr (.inl ⟨rfl, e, rfl, by simp [step, hr, hf]⟩)

/-! ## Stack changes -/

/-- Only the stacks change, and neither grows past its capacity. -/
def StacksOnly (s t : State) : Prop :=
  ∃ ds rs, t = (s.setDs ds).setRs rs ∧ (s.ds.length ≤ dsCap → ds.length ≤ dsCap) ∧
    (s.rs.length ≤ rsCap → rs.length ≤ rsCap)

theorem StacksOnly.refl (s : State) : StacksOnly s s := ⟨s.ds, s.rs, rfl, id, id⟩

theorem StacksOnly.trans {s t u : State} (h : StacksOnly s t) (h' : StacksOnly t u) : StacksOnly s u := by
  obtain ⟨ds, rs, rfl, hd, hr⟩ := h
  obtain ⟨ds', rs', rfl, hd', hr'⟩ := h'
  exact ⟨ds', rs', rfl, fun h => hd' (hd h), fun h => hr' (hr h)⟩

theorem popD_stacksOnly {s t : State} {v : Byte} (h : popD s = .ok (v, t)) : StacksOnly s t := by
  obtain ⟨-, -, rfl⟩ := popD_ok h
  exact ⟨s.ds.tail, s.rs, rfl, fun h => by simp only [List.length_tail]; omega, id⟩

theorem pushD_stacksOnly {s t : State} {v : Byte} (h : pushD s v = .ok t) : StacksOnly s t := by
  obtain ⟨hlt, rfl⟩ := pushD_ok h
  exact ⟨v :: s.ds, s.rs, rfl, fun _ => by simp only [List.length_cons]; omega, id⟩

theorem popR_stacksOnly {s t : State} {v : Byte} (h : popR s = .ok (v, t)) : StacksOnly s t := by
  obtain ⟨-, rfl⟩ := popR_ok h
  exact ⟨s.ds, s.rs.tail, rfl, id, fun h => by simp only [List.length_tail]; omega⟩

theorem pushR_stacksOnly {s t : State} {v : Byte} (h : pushR s v = .ok t) : StacksOnly s t := by
  obtain ⟨hlt, rfl⟩ := pushR_ok h
  exact ⟨s.ds, v :: s.rs, rfl, id, fun _ => by simp only [List.length_cons]; omega⟩

theorem popWordD_stacksOnly {s t : State} {a : Word} (h : popWordD s = .ok (a, t)) : StacksOnly s t := by
  obtain ⟨⟨hi, s1⟩, h1, h⟩ := bind_ok h
  obtain ⟨⟨lo, s2⟩, h2, h⟩ := bind_ok h
  cases h
  exact (popD_stacksOnly h1).trans (popD_stacksOnly h2)

theorem popPairD_stacksOnly {s t : State} {a b : Byte} (h : popPairD s = .ok (a, b, t)) : StacksOnly s t := by
  obtain ⟨⟨x, s1⟩, h1, h⟩ := bind_ok h
  obtain ⟨⟨y, s2⟩, h2, h⟩ := bind_ok h
  cases h
  exact (popD_stacksOnly h1).trans (popD_stacksOnly h2)

theorem popWordR_stacksOnly {s t : State} {a : Word} (h : popWordR s = .ok (a, t)) : StacksOnly s t := by
  obtain ⟨⟨lo, s1⟩, h1, h⟩ := bind_ok h
  obtain ⟨⟨hi, s2⟩, h2, h⟩ := bind_ok h
  cases h
  exact (popR_stacksOnly h1).trans (popR_stacksOnly h2)

theorem pushTwoD_stacksOnly {s t : State} {a b : Byte} (h : pushTwoD s a b = .ok t) : StacksOnly s t := by
  obtain ⟨s1, h1, h⟩ := bind_ok h
  exact (pushD_stacksOnly h1).trans (pushD_stacksOnly h)

theorem pushWordR_stacksOnly {s t : State} {a : Word} (h : pushWordR s a = .ok t) : StacksOnly s t := by
  obtain ⟨s1, h1, h⟩ := bind_ok h
  exact (pushR_stacksOnly h1).trans (pushR_stacksOnly h)

end Sys2Proof.Machine
end

