-- ==== Sys2Proof/Laws/Effects.lean ====
section
/-!
SUPPORT. Everything an instruction's body can change: CPU state only, unless it is ST8, ST16 or WAITVB, which write
through the bus (spec/20_memory.md R55, spec/60_exceptions.md R214).
-/
namespace Sys2Proof.Machine

open Sys2Proof.Safety

/-- Only `pc` and the stacks change, and no stack grows past its capacity. -/
def CpuOnly (s t : State) : Prop := ∃ u pc, StacksOnly s u ∧ t = u.setPc pc

theorem StacksOnly.cpuOnly {s t : State} (h : StacksOnly s t) : CpuOnly s t := ⟨t, t.pc, h, rfl⟩

theorem StacksOnly.cpuOnly_setPc {s t : State} (h : StacksOnly s t) (pc : Word) : CpuOnly s (t.setPc pc) :=
  ⟨t, pc, h, rfl⟩

theorem bodyRet_cpuOnly {s t : State} (h : bodyRet s = .ok t) : CpuOnly s t := by
  obtain ⟨⟨a, u⟩, h1, h⟩ := bind_ok h
  cases h
  exact (popWordR_stacksOnly h1).cpuOnly_setPc a

/-- A body that is not HALT's, ST8's, ST16's or WAITVB's changes `pc` and the stacks only. -/
theorem bodyOf_cpuOnly {i : Instr} {a : Word} {s t : State} (hh : i ≠ .halt) (h8 : i ≠ .st8)
    (h16 : i ≠ .st16) (hw : i ≠ .waitvb) (h : bodyOf i a s = .ok t) : CpuOnly s t := by
  cases i with
  | nop => cases h; exact (StacksOnly.refl s).cpuOnly
  | trace => cases h; exact (StacksOnly.refl s).cpuOnly
  | halt => exact absurd rfl hh
  | puts =>
    obtain ⟨⟨x, u⟩, h1, h⟩ := bind_ok h
    simp only at h
    split at h
    · cases h
    · cases h; exact (popWordD_stacksOnly h1).cpuOnly
  | drop =>
    obtain ⟨⟨x, u⟩, h1, h⟩ := bind_ok h
    cases h; exact (popD_stacksOnly h1).cpuOnly
  | dup =>
    obtain ⟨⟨x, u⟩, h1, h⟩ := bind_ok h
    obtain ⟨u2, h2, h⟩ := bind_ok h
    exact (((popD_stacksOnly h1).trans (pushD_stacksOnly h2)).trans (pushD_stacksOnly h)).cpuOnly
  | swap =>
    obtain ⟨⟨x, u⟩, h1, h⟩ := bind_ok h
    obtain ⟨⟨y, u2⟩, h2, h⟩ := bind_ok h
    obtain ⟨u3, h3, h⟩ := bind_ok h
    exact ((((popD_stacksOnly h1).trans (popD_stacksOnly h2)).trans (pushD_stacksOnly h3)).trans
      (pushD_stacksOnly h)).cpuOnly
  | overCopy =>
    obtain ⟨⟨x, u⟩, h1, h⟩ := bind_ok h
    obtain ⟨⟨y, u2⟩, h2, h⟩ := bind_ok h
    obtain ⟨u3, h3, h⟩ := bind_ok h
    obtain ⟨u4, h4, h⟩ := bind_ok h
    exact (((((popD_stacksOnly h1).trans (popD_stacksOnly h2)).trans (pushD_stacksOnly h3)).trans
      (pushD_stacksOnly h4)).trans (pushD_stacksOnly h)).cpuOnly
  | rot =>
    obtain ⟨⟨x, u⟩, h1, h⟩ := bind_ok h
    obtain ⟨⟨y, u2⟩, h2, h⟩ := bind_ok h
    obtain ⟨⟨z, u3⟩, h3, h⟩ := bind_ok h
    obtain ⟨u4, h4, h⟩ := bind_ok h
    obtain ⟨u5, h5, h⟩ := bind_ok h
    exact ((((((popD_stacksOnly h1).trans (popD_stacksOnly h2)).trans (popD_stacksOnly h3)).trans
      (pushD_stacksOnly h4)).trans (pushD_stacksOnly h5)).trans (pushD_stacksOnly h)).cpuOnly
  | ld8 =>
    obtain ⟨⟨x, u⟩, h1, h⟩ := bind_ok h
    obtain ⟨v, -, h⟩ := bind_ok h
    exact ((popWordD_stacksOnly h1).trans (pushD_stacksOnly h)).cpuOnly
  | st8 => exact absurd rfl h8
  | ld16 =>
    obtain ⟨⟨x, u⟩, h1, h⟩ := bind_ok h
    obtain ⟨v, -, h⟩ := bind_ok h
    exact ((popWordD_stacksOnly h1).trans (pushTwoD_stacksOnly h)).cpuOnly
  | st16 => exact absurd rfl h16
  | lit imm => exact (pushD_stacksOnly h).cpuOnly
  | lit2 imm => exact (pushTwoD_stacksOnly h).cpuOnly
  | add | sub | and | or | xor =>
    obtain ⟨⟨x, y, u⟩, h1, h⟩ := bind_ok h
    exact ((popPairD_stacksOnly h1).trans (pushD_stacksOnly h)).cpuOnly
  | not =>
    obtain ⟨⟨x, u⟩, h1, h⟩ := bind_ok h
    exact ((popD_stacksOnly h1).trans (pushD_stacksOnly h)).cpuOnly
  | cmpReserved => cases h
  | jmp target => cases h; exact (StacksOnly.refl s).cpuOnly_setPc target
  | call target =>
    obtain ⟨u, h1, h⟩ := bind_ok h
    cases h; exact (pushWordR_stacksOnly h1).cpuOnly_setPc target
  | ret => exact bodyRet_cpuOnly h
  | retz =>
    obtain ⟨⟨x, u⟩, h1, h⟩ := bind_ok h
    simp only at h
    split at h
    · obtain ⟨⟨y, u2⟩, h2, h⟩ := bind_ok h
      cases h
      exact ((popD_stacksOnly h1).trans (popWordR_stacksOnly h2)).cpuOnly_setPc y
    · cases h; exact (popD_stacksOnly h1).cpuOnly
  | bra off => cases h; exact (StacksOnly.refl s).cpuOnly_setPc _
  | tor =>
    obtain ⟨⟨x, u⟩, h1, h⟩ := bind_ok h
    exact ((popD_stacksOnly h1).trans (pushR_stacksOnly h)).cpuOnly
  | fromr =>
    obtain ⟨⟨x, u⟩, h1, h⟩ := bind_ok h
    exact ((popR_stacksOnly h1).trans (pushD_stacksOnly h)).cpuOnly
  | waitvb => exact absurd rfl hw

/-- Everything ST8's body does when it answers (R133). -/
theorem bodySt8_ok {s t : State} (h : bodySt8 s = .ok t) :
    canPop s 3 ∧ busWrite (s.setDs (s.ds.drop 3)) (topAddr s) (cell s 2) = some t := by
  by_cases h3 : canPop s 3
  · refine ⟨h3, ?_⟩
    have hd := popD_drop (k := 2) h3
    simp only [bodySt8, popWordD_of_canPop (canPop_le h3 (by decide : 2 ≤ 3)), ok_bind, hd] at h
    exact memWrite_ok.mp h
  · by_cases h2 : canPop s 2
    · have hd := popD_drop_error (k := 2) h3
      simp only [bodySt8, popWordD_of_canPop h2, ok_bind, hd, error_bind] at h
      cases h
    · simp only [bodySt8, popWordD_of_not_canPop h2, error_bind] at h
      cases h

/-- Everything ST16's body does when it answers (R135). -/
theorem bodySt16_ok {s t : State} (h : bodySt16 s = .ok t) :
    canPop s 4 ∧ ∃ u, busWrite (s.setDs (s.ds.drop 4)) (topAddr s) (cell s 3) = some u ∧
      busWrite u (topAddr s + 1) (cell s 2) = some t := by
  by_cases h4 : canPop s 4
  · refine ⟨h4, ?_⟩
    have hd2 := popD_drop (k := 2) (canPop_le h4 (by decide : 3 ≤ 4))
    have hd3 := popD_drop (k := 3) h4
    simp only [bodySt16, popWordD_of_canPop (canPop_le h4 (by decide : 2 ≤ 4)), ok_bind, hd2, hd3] at h
    obtain ⟨u, hu, h⟩ := bind_ok h
    exact ⟨u, memWrite_ok.mp hu, memWrite_ok.mp h⟩
  · exfalso
    by_cases h3 : canPop s 3
    · have hd2 := popD_drop (k := 2) h3
      have hd3 := popD_drop_error (k := 3) h4
      simp only [bodySt16, popWordD_of_canPop (canPop_le h3 (by decide : 2 ≤ 3)), ok_bind, hd2, hd3,
        error_bind] at h
      cases h
    · by_cases h2 : canPop s 2
      · have hd2 := popD_drop_error (k := 2) h3
        simp only [bodySt16, popWordD_of_canPop h2, ok_bind, hd2, error_bind] at h
        cases h
      · simp only [bodySt16, popWordD_of_not_canPop h2, error_bind] at h
        cases h

/-- The status register's address, when there is one (R162). -/
theorem statusRegister_ok {c : Config} {a : Word} : statusRegister c = .ok a ↔ statusAddr c = some a := by
  unfold statusRegister
  cases statusAddr c <;> simp

/-- Everything WAITVB's body does when it answers (R162). -/
theorem bodyWaitvb_ok {s t : State} {opcodeAddr : Word} (h : bodyWaitvb opcodeAddr s = .ok t) :
    ∃ a v, statusAddr s.cfg = some a ∧ busRead s a = some v ∧
      ((vblankReady s.cfg v = true ∧ busWrite s a (clearVblank v) = some t) ∨
        (vblankReady s.cfg v = false ∧ t = s.setPc opcodeAddr)) := by
  obtain ⟨a, h0, h⟩ := bind_ok h
  obtain ⟨v, h1, h⟩ := bind_ok h
  refine ⟨a, v, statusRegister_ok.mp h0, memRead_ok.mp h1, ?_⟩
  cases hr : vblankReady s.cfg v with
  | true => rw [hr, if_pos rfl] at h; exact .inl ⟨rfl, memWrite_ok.mp h⟩
  | false =>
    simp only [hr] at h
    cases h
    exact .inr ⟨rfl, rfl⟩

/-- Every body that answers: `pc` and the stacks only, HALT, or one or two bus writes after a change of the
stacks. -/
theorem bodyOf_cases {i : Instr} {a : Word} {s t : State} (h : bodyOf i a s = .ok t) :
    CpuOnly s t ∨
    (i = .halt ∧ t = s.setRunning false) ∨
    (∃ u b v, StacksOnly s u ∧ busWrite u b v = some t) ∨
    (∃ u w b v b' v', StacksOnly s u ∧ busWrite u b v = some w ∧ busWrite w b' v' = some t) := by
  by_cases h8 : i = .st8
  · subst h8
    obtain ⟨-, hb⟩ := bodySt8_ok h
    exact .inr (.inr (.inl ⟨_, _, _,
      ⟨s.ds.drop 3, s.rs, rfl, fun h => by simp only [List.length_drop]; omega, id⟩, hb⟩))
  · by_cases h16 : i = .st16
    · subst h16
      obtain ⟨-, u, hb, hb'⟩ := bodySt16_ok h
      exact .inr (.inr (.inr ⟨_, u, _, _, _, _,
        ⟨s.ds.drop 4, s.rs, rfl, fun h => by simp only [List.length_drop]; omega, id⟩, hb, hb'⟩))
    · by_cases hw : i = .waitvb
      · subst hw
        obtain ⟨_, _, -, -, ⟨-, hb⟩ | ⟨-, rfl⟩⟩ := bodyWaitvb_ok h
        · exact .inr (.inr (.inl ⟨s, _, _, StacksOnly.refl s, hb⟩))
        · exact .inl ((StacksOnly.refl s).cpuOnly_setPc a)
      · by_cases hh : i = .halt
        · subst hh
          cases h
          exact .inr (.inl ⟨rfl, rfl⟩)
        · exact .inl (bodyOf_cpuOnly hh h8 h16 hw h)

/-- A relation that holds across every kind of change holds across a step: a change of `pc` and the stacks, a bus
write, a halt, and a fault taken. -/
theorem step_relation {R : State → State → Prop} (hrefl : ∀ s, R s s)
    (htrans : ∀ s t u, R s t → R t u → R s u) (hcpu : ∀ s t, CpuOnly s t → R s t)
    (hwrite : ∀ s t a v, busWrite s a v = some t → R s t) (hhalt : ∀ s, R s (s.setRunning false))
    (hfault : ∀ op r s, R s (takeFault op r s)) {s t : State} (h : step s = .next t) : R s t := by
  rcases step_cases s with ⟨-, h1⟩ | ⟨-, e, -, h1⟩ | ⟨-, i, -, h1⟩
  · rw [h1] at h; cases h; exact hrefl _
  · rw [h1] at h; cases h; exact hfault _ _ _
  · rw [h1] at h
    rcases exec_cases i s with ⟨u, hu, he⟩ | ⟨r, -, he⟩
    · rw [he] at h; cases h
      have h0 : R s (s.setPc (s.pc + BitVec.ofNat 16 i.length)) :=
        hcpu _ _ ((StacksOnly.refl s).cpuOnly_setPc _)
      rcases bodyOf_cases hu with hc | ⟨-, rfl⟩ | ⟨w, b, v, hs, hb⟩ | ⟨w, x, b, v, b', v', hs, hb, hb'⟩
      · exact htrans _ _ _ h0 (hcpu _ _ hc)
      · exact htrans _ _ _ h0 (hhalt _)
      · exact htrans _ _ _ (htrans _ _ _ h0 (hcpu _ _ hs.cpuOnly)) (hwrite _ _ _ _ hb)
      · exact htrans _ _ _ (htrans _ _ _ (htrans _ _ _ h0 (hcpu _ _ hs.cpuOnly)) (hwrite _ _ _ _ hb))
          (hwrite _ _ _ _ hb')
    · rw [he] at h; cases h; exact hfault _ _ _

end Sys2Proof.Machine
end

