-- ==== Sys2Proof/Laws/External.lean ====
section
/-!
SUPPORT. Loading consecutive bytes (spec/70_reset_and_hazards.md R242, R243): the form it keeps and what it reads as.
-/
namespace Sys2Proof.Machine

/-- Storing consecutive bytes keeps the canonical form. -/
theorem storeFrom_wf {m : Memory} (hm : m.wf = true) (a : Nat) (bs : List Byte) : (storeFrom m a bs).wf = true := by
  induction bs generalizing m a with
  | nil => exact hm
  | cons v bs ih => exact ih (Memory.write_wf hm a v) (a + 1)

/-- What memory reads as after consecutive bytes are stored. -/
theorem storeFrom_read {m : Memory} (hm : m.wf = true) (a : Nat) (bs : List Byte) (b : Nat) :
    (storeFrom m a bs).read b = if a ≤ b ∧ b < a + bs.length then bs.getD (b - a) 0 else m.read b := by
  induction bs generalizing m a with
  | nil => rw [if_neg (by simp)]; rfl
  | cons v bs ih =>
    refine (ih (Memory.write_wf hm a v) (a + 1)).trans ?_
    simp only [List.length_cons]
    by_cases hin : a + 1 ≤ b ∧ b < a + 1 + bs.length
    · rw [if_pos hin, if_pos (by omega)]
      obtain ⟨k, rfl⟩ : ∃ k, b = a + 1 + k := ⟨b - (a + 1), by omega⟩
      rw [show a + 1 + k - (a + 1) = k by omega, show a + 1 + k - a = k + 1 by omega]
      rfl
    · rw [if_neg hin]
      by_cases hb : b = a
      · subst hb
        rw [if_pos (by omega), Memory.read_write_same hm]
        simp
      · rw [if_neg (by omega), Memory.read_write_other _ _ hb]

/-- The cells after consecutive bytes are stored: old ones, or at the stored addresses. -/
theorem storeFrom_mem {m : Memory} {a : Nat} {bs : List Byte} {c : Host.Cell} (h : c ∈ storeFrom m a bs) :
    c ∈ m ∨ (a ≤ c.1 ∧ c.1 < a + bs.length) := by
  induction bs generalizing m a with
  | nil => exact .inl h
  | cons v bs ih =>
    rcases ih h with h | h
    · rcases Memory.mem_write h with h | h
      · exact .inl h
      · exact .inr (by simp [h])
    · exact .inr (by simp only [List.length_cons]; omega)

end Sys2Proof.Machine
end

