-- ==== Sys2Proof/Laws/Fetch.lean ====
section
/-!
SUPPORT. Fetching: what a byte fetch gives from what the bus gives (spec/20_memory.md R51, R61).
-/
namespace Sys2Proof.Machine

/-- Everything a byte fetch can do (R51). -/
theorem fetchByte_ok {s : State} {k : Nat} {b : Byte} :
    fetchByte s k = .ok b ↔ busRead s (s.pc + BitVec.ofNat 16 k) = some b := memRead_ok

theorem fetchByte_of_none {s : State} {k : Nat} (h : busRead s (s.pc + BitVec.ofNat 16 k) = none) :
    fetchByte s k = .error (.unmapped (s.pc + BitVec.ofNat 16 k) .fetch) := memRead_of_none .fetch h

/-- The opcode fetch is a bus read at `pc` (R110). -/
theorem fetchByte_zero_ok {s : State} {b : Byte} : fetchByte s 0 = .ok b ↔ busRead s s.pc = some b := by
  rw [fetchByte_ok]
  simp

theorem fetchByte_one_ok {s : State} {b : Byte} : fetchByte s 1 = .ok b ↔ busRead s (s.pc + 1) = some b :=
  fetchByte_ok

theorem fetchByte_two_ok {s : State} {b : Byte} : fetchByte s 2 = .ok b ↔ busRead s (s.pc + 2) = some b :=
  fetchByte_ok

/-- A running CPU that fetches an instruction runs it (R110). -/
theorem step_of_fetch {s : State} {i : Instr} (hr : s.running = true) (h : fetchInstr s = .ok i) :
    step s = exec i s := by simp [step, hr, h]

/-- A running CPU whose fetch or decode fails takes that fault (R98, R215). -/
theorem step_of_reject {s : State} {e : Reject Raise} (hr : s.running = true) (h : fetchInstr s = .error e) :
    step s = .next (takeReject e s) := by simp [step, hr, h]

end Sys2Proof.Machine
end

