-- ==== Sys2Proof/Laws/Map.lean ====
section
/-!
SUPPORT. Well-formed address maps (spec/20_memory.md R53, R54, R56): one window per region, one window per address.
-/
namespace Sys2Proof.Machine

/-- The members of a pairwise-related list are equal or related one way round. -/
theorem pairwise_eq_or {α : Type} {R : α → α → Prop} {l : List α} (h : l.Pairwise R) {x y : α} (hx : x ∈ l)
    (hy : y ∈ l) : x = y ∨ R x y ∨ R y x := by
  induction h with
  | nil => cases hx
  | cons hd _ ih =>
    rcases List.mem_cons.mp hx with rfl | hx'
    · rcases List.mem_cons.mp hy with rfl | hy'
      · exact .inl rfl
      · exact .inr (.inl (hd _ hy'))
    · rcases List.mem_cons.mp hy with rfl | hy'
      · exact .inr (.inr (hd _ hx'))
      · exact ih hx' hy'

/-- What a well-formed configuration says, part by part. -/
theorem Config.wf_parts {c : Config} (h : c.wf = true) :
    (∀ w ∈ c.map, 0 < w.size) ∧ (∀ w ∈ c.map, w.base + w.size ≤ 0x10000) ∧
    (∀ w ∈ c.map, w.region.sizeOk w.size = true) ∧ c.noOverlap = true ∧ c.regionsOnce = true ∧
    c.mapCols * c.mapRows = 896 := by
  simp only [Config.wf, Bool.and_eq_true, List.all_eq_true, Window.nonempty, Window.inSpace, Window.sized,
    decide_eq_true_eq, Config.gridFits, beq_iff_eq] at h
  exact ⟨h.1.1.1.1.1, h.1.1.1.1.2, h.1.1.1.2, h.1.1.2, h.1.2, h.2⟩

/-- Each region has one window. -/
theorem window_unique_of_region {c : Config} (h : c.wf = true) {v w : Window} (hv : v ∈ c.map) (hw : w ∈ c.map)
    (hr : v.region = w.region) : v = w := by
  have hp := (Config.wf_parts h).2.2.2.2.1
  simp only [Config.regionsOnce, decide_eq_true_eq] at hp
  rcases pairwise_eq_or hp hv hw with h | h | h
  · exact h
  · exact absurd hr h
  · exact absurd hr.symm h

/-- Each address has one window. -/
theorem window_unique_of_handles {c : Config} (h : c.wf = true) {v w : Window} {a : Word} (hv : v ∈ c.map)
    (hw : w ∈ c.map) (hva : windowHandles v a = true) (hwa : windowHandles w a = true) : v = w := by
  have hp := (Config.wf_parts h).2.2.2.1
  simp only [Config.noOverlap, decide_eq_true_eq, Window.disjoint] at hp
  simp only [windowHandles, Bool.and_eq_true, decide_eq_true_eq] at hva hwa
  rcases pairwise_eq_or hp hv hw with h | h | h
  · exact h
  · omega
  · omega

/-- The window an address lies in is the one the bus finds (R51, R54). -/
theorem findWindow_of_handles {c : Config} (h : c.wf = true) {w : Window} {a : Word} (hw : w ∈ c.map)
    (ha : windowHandles w a = true) : findWindow c a = some w := by
  cases hf : findWindow c a with
  | none =>
    have := List.find?_eq_none.mp hf w hw
    exact absurd ha this
  | some v =>
    have hv := List.mem_of_find?_eq_some hf
    rw [window_unique_of_handles h hv hw (findWindow_handles hf) ha]

/-- Under a well-formed map an address is found in a region exactly if that region's window handles it (R51, R56). -/
theorem findWindow_region_iff {c : Config} (h : c.wf = true) {w : Window} (hw : w ∈ c.map) (a : Word) :
    (findWindow c a).map (·.region) = some w.region ↔ windowHandles w a = true := by
  refine ⟨fun hr => ?_, fun ha => by rw [findWindow_of_handles h hw ha]; rfl⟩
  obtain ⟨v, hv, hvr⟩ := Option.map_eq_some_iff.mp hr
  rw [← window_unique_of_region h (List.mem_of_find?_eq_some hv) hw hvr]
  exact findWindow_handles hv

/-- Looking a region up in a well-formed map finds its window. -/
theorem find_region_of_mem {c : Config} (h : c.wf = true) {w : Window} (hw : w ∈ c.map) :
    c.map.find? (fun v => v.region == w.region) = some w := by
  cases hf : c.map.find? (fun v => v.region == w.region) with
  | none =>
    have := List.find?_eq_none.mp hf w hw
    simp at this
  | some v =>
    have hv := List.mem_of_find?_eq_some hf
    have hr : v.region = w.region := by simpa using List.find?_some hf
    rw [window_unique_of_region h hv hw hr]

/-- The base the rasterizer reads a region at is its window's. -/
theorem regionBase_of_mem {c : Config} (h : c.wf = true) {w : Window} (hw : w ∈ c.map) :
    regionBase c w.region = some w.base := by
  rw [regionBase, find_region_of_mem h hw]

/-- The region of an address is its window's. -/
theorem regionAt_of_window {s : State} {a : Word} {w : Window} (h : findWindow s.cfg a = some w) :
    Safety.regionAt s a = some w.region := by simp [Safety.regionAt, h]

/-- Only a write of `pad_ctrl` with bit 0 set changes the latched pads, and it makes them the live ones (R68). -/
theorem busWrite_latched {s t : State} {a : Word} {v : Byte} (h : busWrite s a v = some t) :
    t.latched = s.latched ∨
      (Safety.regionAt s a = some .padCtrl ∧ v.getLsbD 0 = true ∧ t.latched = s.live) := by
  obtain ⟨w, hw, rfl⟩ := busWrite_some h
  rcases writeWindow_cases s w a v with ⟨-, h⟩ | ⟨-, -, h⟩ | ⟨-, h⟩ | ⟨-, h⟩ | ⟨-, h⟩ | ⟨-, h⟩ | ⟨hr, h⟩ <;>
    rw [h] <;> simp
  unfold writePadCtrl
  split
  · rename_i hv; exact .inr ⟨by rw [regionAt_of_window hw, hr], hv, rfl⟩
  · exact .inl rfl

/-- Under a well-formed configuration a write leaves every other address's byte, but for the latched pads (R55). -/
theorem busRead_busWrite_other {s t : State} {a b : Word} {v : Byte} (hc : s.cfg.wf = true)
    (h : busWrite s a v = some t) (hne : b ≠ a) (hl : Safety.regionAt s b ≠ some .latched) :
    busRead t b = busRead s b := by
  obtain ⟨w, hw, rfl⟩ := busWrite_some h
  cases hb : findWindow s.cfg b with
  | none => simp [busRead, hb]
  | some x =>
    rw [busRead_of_window hb, busRead_of_window (w := x) (by simpa using hb)]
    congr 1
    have hxl : x.region ≠ .latched := fun e => hl (by rw [regionAt_of_window hb, e])
    have hxm := List.mem_of_find?_eq_some hb
    have hwm := List.mem_of_find?_eq_some hw
    have hs := (Config.wf_parts hc).2.2.1 w hwm
    have hnn : b.toNat ≠ a.toNat := fun e => hne (BitVec.eq_of_toNat_eq e)
    have single : w.size = 1 → x.region ≠ w.region := by
      intro h1 hr
      have hxw := window_unique_of_region hc hxm hwm hr
      subst hxw
      have h2 := findWindow_handles hb
      have h3 := findWindow_handles hw
      simp only [windowHandles, Bool.and_eq_true, decide_eq_true_eq] at h2 h3
      omega
    rcases writeWindow_cases s w a v with
      ⟨-, h⟩ | ⟨-, -, h⟩ | ⟨hr, h⟩ | ⟨hr, h⟩ | ⟨hr, h⟩ | ⟨hr, h⟩ | ⟨hr, h⟩ <;> rw [h]
    · unfold readWindow; split <;> simp [Memory.read_write_other _ _ hnn]
    all_goals
      rw [hr] at hs single
      have hx := single (by simpa [Region.sizeOk] using hs)
      cases hxr : x.region <;> simp_all [readWindow] <;> (unfold writePadCtrl; split <;> rfl)

end Sys2Proof.Machine
end

