-- ==== Sys2Proof/Laws/PerInstr.lean ====
section
/-!
SUPPORT. The family EncodeLength: every instruction's encoding has the instruction's length, which is 1, 2 or 3
bytes (spec/30_encoding.md R90, R91).
-/
namespace Sys2Proof.Laws.EncodeLength

/-- The encoding is as long as the length says, and no longer than 3 bytes (R91). -/
def Statement (i : Instr) : Prop := (encode i).length = i.length ∧ 1 ≤ i.length ∧ i.length ≤ 3

theorem nop : Statement .nop := ⟨rfl, by decide, by decide⟩
theorem trace : Statement .trace := ⟨rfl, by decide, by decide⟩
theorem puts : Statement .puts := ⟨rfl, by decide, by decide⟩
theorem halt : Statement .halt := ⟨rfl, by decide, by decide⟩
theorem drop : Statement .drop := ⟨rfl, by decide, by decide⟩
theorem dup : Statement .dup := ⟨rfl, by decide, by decide⟩
theorem swap : Statement .swap := ⟨rfl, by decide, by decide⟩
theorem overCopy : Statement .overCopy := ⟨rfl, by decide, by decide⟩
theorem rot : Statement .rot := ⟨rfl, by decide, by decide⟩
theorem ld8 : Statement .ld8 := ⟨rfl, by decide, by decide⟩
theorem st8 : Statement .st8 := ⟨rfl, by decide, by decide⟩
theorem ld16 : Statement .ld16 := ⟨rfl, by decide, by decide⟩
theorem st16 : Statement .st16 := ⟨rfl, by decide, by decide⟩
theorem lit (imm : Byte) : Statement (.lit imm) := ⟨rfl, by simp [Instr.length], by simp [Instr.length]⟩
theorem lit2 (imm : Word) : Statement (.lit2 imm) := ⟨rfl, by simp [Instr.length], by simp [Instr.length]⟩
theorem add : Statement .add := ⟨rfl, by decide, by decide⟩
theorem sub : Statement .sub := ⟨rfl, by decide, by decide⟩
theorem and : Statement .and := ⟨rfl, by decide, by decide⟩
theorem or : Statement .or := ⟨rfl, by decide, by decide⟩
theorem xor : Statement .xor := ⟨rfl, by decide, by decide⟩
theorem not : Statement .not := ⟨rfl, by decide, by decide⟩
theorem cmpReserved : Statement .cmpReserved := ⟨rfl, by decide, by decide⟩
theorem jmp (target : Word) : Statement (.jmp target) := ⟨rfl, by simp [Instr.length], by simp [Instr.length]⟩
theorem call (target : Word) : Statement (.call target) := ⟨rfl, by simp [Instr.length], by simp [Instr.length]⟩
theorem ret : Statement .ret := ⟨rfl, by decide, by decide⟩
theorem retz : Statement .retz := ⟨rfl, by decide, by decide⟩
theorem bra (off : Byte) : Statement (.bra off) := ⟨rfl, by simp [Instr.length], by simp [Instr.length]⟩
theorem tor : Statement .tor := ⟨rfl, by decide, by decide⟩
theorem fromr : Statement .fromr := ⟨rfl, by decide, by decide⟩
theorem waitvb : Statement .waitvb := ⟨rfl, by decide, by decide⟩

end Sys2Proof.Laws.EncodeLength
end

