-- ==== Sys2Proof/Laws/Ppu.lean ====
section
/-!
SUPPORT. The rasterizer's passes (spec/50_ppu.md): the length each keeps, where a pixel stands in a row-major
frame, the nibbles of a tile row, what the background pass leaves at a pixel, and everything one drawn pixel of a
sprite can change.
-/
namespace Sys2Proof.Machine

/-! ## Row-major positions (R195) -/

theorem pos_div {width x y : Nat} (hx : x < width) : (y * width + x) / width = y := by
  rw [Nat.add_comm, Nat.add_mul_div_right _ _ (by omega), Nat.div_eq_of_lt hx, Nat.zero_add]

theorem pos_mod {width x y : Nat} (hx : x < width) : (y * width + x) % width = x := by
  rw [Nat.add_comm, Nat.add_mul_mod_self_right, Nat.mod_eq_of_lt hx]

theorem pos_lt {width height x y : Nat} (hx : x < width) (hy : y < height) : y * width + x < width * height := by
  calc y * width + x < (y + 1) * width := by rw [Nat.add_mul]; omega
    _ ≤ height * width := Nat.mul_le_mul_right _ hy
    _ = width * height := Nat.mul_comm ..

theorem pos_inj {width x y x' y' : Nat} (hx : x < width) (hx' : x' < width) :
    y * width + x = y' * width + x' ↔ x = x' ∧ y = y' := by
  constructor
  · intro h
    have hd := congrArg (· / width) h
    have hm := congrArg (· % width) h
    simp only [pos_div hx, pos_div hx', pos_mod hx, pos_mod hx'] at hd hm
    exact ⟨hm, hd⟩
  · rintro ⟨rfl, rfl⟩
    rfl

/-! ## Folds -/

/-- A fold of steps that keep a list's length keeps it. -/
theorem foldl_keeps_length {α β : Type} {f : List α → β → List α} (h : ∀ l b, (f l b).length = l.length)
    (bs : List β) (l : List α) : (bs.foldl f l).length = l.length := by
  induction bs generalizing l with
  | nil => rfl
  | cons b bs ih => rw [List.foldl_cons, ih, h]

/-- A fold over a range of which only step `i₀` changes what `obs` sees, and only if `Q`. -/
theorem foldl_range_once {α β : Type} {f : β → Nat → β} {obs : β → α} {P : β → Prop} {i₀ : Nat} {Q : Prop}
    [Decidable Q] {v : α} (hP : ∀ b i, P b → P (f b i))
    (h : ∀ b i, P b → obs (f b i) = if i = i₀ ∧ Q then v else obs b) (n : Nat) (b : β) (hb : P b) :
    P ((List.range n).foldl f b) ∧
      obs ((List.range n).foldl f b) = if i₀ < n ∧ Q then v else obs b := by
  induction n with
  | zero => simp [hb]
  | succ n ih =>
    rw [List.range_succ, List.foldl_append]
    refine ⟨hP _ _ ih.1, ?_⟩
    simp only [List.foldl_cons, List.foldl_nil]
    rw [h _ _ ih.1, ih.2]
    by_cases hq : Q
    · simp only [hq, and_true]
      split_ifs <;> first | rfl | omega
    · simp [hq]

/-! ## Tile rows (R175, R183) -/

@[simp] theorem highNibble_toNat (b : Byte) : (highNibble b).toNat = b.toNat / 16 := by revert b; decide

@[simp] theorem lowNibble_toNat (b : Byte) : (lowNibble b).toNat = b.toNat % 16 := by revert b; decide

@[simp] theorem tileRow_length (s : State) (t : Byte) (r : Nat) (h v : Bool) : (tileRow s t r h v).length = 8 := by
  cases h <;> rfl

/-- Column `c` of an unflipped row of the tile store is a nibble of byte `c / 2` of the row. -/
theorem tilePairs_get (s : State) (base : Nat) {c : Nat} (hc : c < 8) :
    (((List.range 4).flatMap (tilePair s base)).getD c 0).toNat =
      if c % 2 = 0 then (vramByte s .tiles (base + c / 2)).toNat / 16
      else (vramByte s .tiles (base + c / 2)).toNat % 16 := by
  have e : (List.range 4).flatMap (tilePair s base) =
      tilePair s base 0 ++ tilePair s base 1 ++ tilePair s base 2 ++ tilePair s base 3 := rfl
  rw [e]
  interval_cases c <;> simp [tilePair]

/-- A row flipped horizontally is the row read from its other end. -/
theorem tileRow_hflip (s : State) (t : Byte) (r : Nat) (v : Bool) {c : Nat} (hc : c < 8) :
    (tileRow s t r true v).getD c 0 = (tileRow s t r false v).getD (7 - c) 0 := by
  have e : tileRow s t r true v = (tileRow s t r false v).reverse := rfl
  rw [e, List.getD_eq_getElem?_getD, List.getElem?_reverse (by rw [tileRow_length]; exact hc), tileRow_length,
    ← List.getD_eq_getElem?_getD]

/-! ## The passes -/

theorem backgroundPass_length (s : State) : (backgroundPass s).length = screenW s.cfg * screenH s.cfg := by
  simp [backgroundPass]

/-- The background pass at one pixel (R186 to R189). -/
theorem backgroundPass_at (s : State) {x y : Nat} (hx : x < screenW s.cfg) (hy : y < screenH s.cfg) :
    (backgroundPass s)[y * screenW s.cfg + x]? = some (bgColour s x y) := by
  rw [backgroundPass, List.getElem?_map, List.getElem?_range (pos_lt hx hy)]
  simp [pos_div hx, pos_mod hx]

/-- The recorded mask at one pixel (R190). -/
theorem maskPass_at (s : State) {x y : Nat} (hx : x < screenW s.cfg) (hy : y < screenH s.cfg) :
    (maskPass s).getD (y * screenW s.cfg + x) false = bgMask s x y := by
  rw [maskPass, List.getD_eq_getElem?_getD, List.getElem?_map, List.getElem?_range (pos_lt hx hy)]
  simp [pos_div hx, pos_mod hx]

theorem drawPixel_length (s : State) (mask : List Bool) (sp : Sprite) (fb : List Rgb) (lx ly : Nat) :
    (drawPixel s mask sp fb lx ly).length = fb.length := by
  unfold drawPixel
  dsimp only
  split
  · rfl
  · split
    · rfl
    · split
      · rfl
      · exact List.length_set

theorem drawRow_length (s : State) (mask : List Bool) (sp : Sprite) (fb : List Rgb) (ly : Nat) :
    (drawRow s mask sp fb ly).length = fb.length :=
  foldl_keeps_length (fun _ _ => drawPixel_length ..) _ fb

theorem drawSprite_length (s : State) (mask : List Bool) (fb : List Rgb) (slot : Nat) :
    (drawSprite s mask fb slot).length = fb.length :=
  foldl_keeps_length (fun _ _ => drawRow_length ..) _ fb

/-- Everything one drawn pixel of a sprite can change (R193, R196 to R198): the frame's pixel it covers, when it
is on the screen, opaque and not masked. -/
theorem drawPixel_at (s : State) (sp : Sprite) (fb : List Rgb) (lx ly : Nat) {x y : Nat} (hx : x < screenW s.cfg)
    (hy : y < screenH s.cfg) (hl : fb.length = screenW s.cfg * screenH s.cfg) :
    (drawPixel s (maskPass s) sp fb lx ly)[y * screenW s.cfg + x]? =
      if lx = x - sp.x.toNat ∧ ly = y - sp.y.toNat ∧ sp.x.toNat ≤ x ∧ sp.y.toNat ≤ y ∧
          spritePixel s sp (x - sp.x.toNat) (y - sp.y.toNat) ≠ 0 ∧ (sp.attr.getLsbD 7 || !bgMask s x y) = true
      then some (palRgb s (spritePixel s sp (x - sp.x.toNat) (y - sp.y.toNat)))
      else fb[y * screenW s.cfg + x]? := by
  have hn : y * screenW s.cfg + x < fb.length := hl ▸ pos_lt hx hy
  by_cases hit : sp.x.toNat + lx = x ∧ sp.y.toNat + ly = y
  · obtain ⟨rfl, rfl⟩ := hit
    simp only [Nat.add_sub_cancel_left, Nat.le_add_right, true_and]
    unfold drawPixel
    dsimp only
    rw [if_neg (by omega), maskPass_at s hx hy]
    by_cases h0 : spritePixel s sp lx ly = 0
    · simp [h0]
    · rw [if_neg h0]
      have h0' : spritePixel s sp lx ly ≠ 0#4 := h0
      cases h7 : sp.attr.getLsbD 7 <;> cases hm : bgMask s (sp.x.toNat + lx) (sp.y.toNat + ly) <;>
        simp [h0', List.getElem?_set_self hn]
  · rw [if_neg (by omega)]
    unfold drawPixel
    dsimp only
    split
    · rfl
    · split
      · rfl
      · split
        · rfl
        · exact List.getElem?_set_ne fun e => hit ((pos_inj (by omega) hx).mp e)

/-- Slots none of which shows at (x, y) leave the colour below (R199). -/
theorem foldl_overlay_of_none_shows (s : State) (x y : Nat) (slots : List Nat) (c : Rgb)
    (h : ∀ k ∈ slots, spriteShows s (readSprite s k) x y = false) : slots.foldl (overlaySprite s x y) c = c := by
  induction slots generalizing c with
  | nil => rfl
  | cons k slots ih =>
    rw [List.foldl_cons, ih _ fun j hj => h j (List.mem_cons_of_mem _ hj)]
    simp [overlaySprite, h k List.mem_cons_self]

end Sys2Proof.Machine
end

