-- ==== Sys2Proof/Tests/Slice0.lean ====
section
/-!
SUPPORT. Tests whose expected results stand in spec/ (95_test_vectors.md and the rules' own examples), the
well-formedness smoke tests, and a witness for the hypotheses of each statement. Stacks are written as the spec
writes them, the top at the right.
-/
namespace Sys2Proof.Tests

open Sys2Proof.Machine Sys2Proof.Safety

/-! ## Helpers -/

/-- The state after reset with stacks as the spec writes them (R9). -/
def withStacks (ds rs : List Byte) : State := { State.reset with ds := ds.reverse, rs := rs.reverse }

/-- Bytes placed from an address on (the host loading ROM, RAM or a device). -/
def place (s : State) (a : Word) : List Byte → State
  | [] => s
  | b :: bs => place (pokeByte s a b) (a + 1) bs

/-- The next state of an outcome. -/
def after (o : Host.Outcome State Fault Refusal) : Option State :=
  match o with
  | .next t => some t
  | _ => none

/-- The data stack of the next state, as the spec writes it. -/
def dsAfter (o : Host.Outcome State Fault Refusal) : Option (List Byte) := (after o).map fun t => t.ds.reverse

/-- The return stack of the next state, as the spec writes it. -/
def rsAfter (o : Host.Outcome State Fault Refusal) : Option (List Byte) := (after o).map fun t => t.rs.reverse

/-- `pc` of the next state. -/
def pcAfter (o : Host.Outcome State Fault Refusal) : Option Word := (after o).map (·.pc)

/-- What a bus read of the next state gives. -/
def busAfter (o : Host.Outcome State Fault Refusal) (a : Word) : Option Byte := (after o).bind (busRead · a)

/-- The fault record of the next state: kind, code, `pc`, opcode, service, address, access, the two depths. -/
def faultAfter (o : Host.Outcome State Fault Refusal) : Option FaultRecord := (after o).bind (·.fault)

/-- The strict configuration (`DS_UNDERFLOW = strict`). -/
def strictConfig : Config := { defaultConfig with dsUnderflow := .strict }

/-- The spinning configuration (`VBLANK_WAIT = spin`). -/
def spinConfig : Config := { defaultConfig with vblankWait := .spin }

/-! ## Well-formedness: each check refuses an ill-formed term -/

theorem test_wf_default : defaultConfig.wf = true := by decide
theorem test_wf_instr_reserved : Instr.cmpReserved.wf = false ∧ Instr.add.wf = true := by decide
theorem test_wf_window_empty : Window.nonempty ⟨.rom, 0, 0⟩ = false := by decide
theorem test_wf_window_past_end : Window.inSpace ⟨.ram, 0xC000, 0x4001⟩ = false := by decide
theorem test_wf_window_size : Window.sized ⟨.oam, 0xA700, 0x00FF⟩ = false := by decide
theorem test_wf_overlap :
    Config.noOverlap { defaultConfig with map := [⟨.rom, 0, 0x8000⟩, ⟨.ram, 0x7FFF, 2⟩] } = false := by decide
theorem test_wf_region_twice :
    Config.regionsOnce { defaultConfig with map := [⟨.ram, 0, 4⟩, ⟨.ram, 8, 4⟩] } = false := by decide
theorem test_wf_grid : Config.gridFits { defaultConfig with mapCols := 33 } = false := by decide
theorem test_wf_image_too_long :
    Config.imageFits { defaultConfig with map := [⟨.rom, 0, 2⟩] } [1, 2, 3] = false := by decide

/-! ## Decoding: every row of R97 and R100, its bytes written out -/

theorem test_decode_system : decode [0x00] = .ok (.nop, []) ∧ decode [0x01, 0x10] = .ok (.trace, []) ∧
    decode [0x01, 0x11] = .ok (.puts, []) ∧ decode [0x02] = .ok (.halt, []) := by decide
theorem test_decode_stack : decode [0x20] = .ok (.drop, []) ∧ decode [0x21] = .ok (.dup, []) ∧
    decode [0x22] = .ok (.swap, []) ∧ decode [0x23] = .ok (.overCopy, []) ∧ decode [0x24] = .ok (.rot, []) := by
  decide
theorem test_decode_literal : decode [0x34, 0x05] = .ok (.lit 0x05, []) ∧
    decode [0x35, 0x00, 0xC0] = .ok (.lit2 0xC000, []) ∧ decode [0x30] = .ok (.ld8, []) ∧
    decode [0x31] = .ok (.st8, []) ∧ decode [0x32] = .ok (.ld16, []) ∧ decode [0x33] = .ok (.st16, []) := by decide
theorem test_decode_alu : decode [0x40] = .ok (.add, []) ∧ decode [0x41] = .ok (.sub, []) ∧
    decode [0x42] = .ok (.and, []) ∧ decode [0x43] = .ok (.or, []) ∧ decode [0x44] = .ok (.xor, []) ∧
    decode [0x45] = .ok (.not, []) ∧ decode [0x46] = .ok (.cmpReserved, []) := by decide
theorem test_decode_control : decode [0x50, 0x00, 0x01] = .ok (.jmp 0x0100, []) ∧
    decode [0x51, 0x10, 0x00] = .ok (.call 0x0010, []) ∧ decode [0x52] = .ok (.ret, []) ∧
    decode [0x53] = .ok (.retz, []) ∧ decode [0x54, 0xFB] = .ok (.bra 0xFB, []) := by decide
theorem test_decode_io : decode [0x60] = .ok (.tor, []) ∧ decode [0x61] = .ok (.fromr, []) ∧
    decode [0x62] = .ok (.waitvb, []) := by decide
theorem test_decode_leaves_the_rest : decode [0x34, 0x05, 0x40] = .ok (.lit 0x05, [0x40]) := by decide
theorem test_decode_refusals : decode [0xEE] = .error (.illegalOpcode 0xEE) ∧
    decode [0x01, 0xFF] = .error (.illegalService 0x01 0xFF) ∧ decode [0x51, 0x10] = .error (.noOperand 0x51 2) ∧
    decode [] = .error (.noOpcode 0) := by decide
/-- The table's numbers have byte 0 most significant (spec/INDEX.md). -/
theorem test_table_words : decodeTableWord 8 0x40 = some .add ∧ decodeTableWord 16 0x0111 = some .puts ∧
    decodeTableWord 16 0x3405 = some (.lit 5) ∧ decodeTableWord 24 0x500001 = some (.jmp 0x0100) ∧
    decodeTableWord 8 0xEE = none := by decide
theorem test_fetch_word_runs :
    pcAfter (step (State.reset.withFetchWord 24 0x501234)) = some 0x3412 := by decide

/-! ## System (SY1 to SY8) -/

theorem test_nop : pcAfter (exec .nop { State.reset with pc := 0x0100 }) = some 0x0101 := by decide
theorem test_trace_output : hostOutput 2 (place { withStacks [5, 2] [] with pc := 0x0010 } 0x0010 [0x01, 0x10]) =
    [.trace 0x0012 [5, 2]] := by decide
theorem test_trace_keeps_stack : dsAfter (exec .trace (withStacks [5, 2] [])) = some [5, 2] := by decide
theorem test_puts : dsAfter (exec .puts (place (withStacks [0x00, 0xC0] []) 0xC000 [0x48, 0x49])) = some [] ∧
    hostOutput 0 (place (place (withStacks [0x00, 0xC0] []) 0xC000 [0x48, 0x49]) 0 [0x01, 0x11]) =
      [.char 0x48, .char 0x49] := by decide
theorem test_puts_unmapped : faultAfter (exec .puts { withStacks [0x00, 0xA9] [] with pc := 0x0020 }) =
    some ⟨.unmappedAddress, 1, 0x0020, some 0x01, none, some 0xA900, some .read, 2, 0⟩ := by decide
theorem test_unknown_service : faultAfter (step (place { State.reset with pc := 0x30 } 0x30 [0x01, 0xFF])) =
    some ⟨.illegalOpcode, 2, 0x0030, some 0x01, some 0xFF, none, none, 0, 0⟩ := by decide
theorem test_halt : (after (exec .halt { State.reset with pc := 0x000A })).map
    (fun t => (t.running, t.pc, t.fault)) = some (false, 0x000B, none) := by decide
theorem test_halted_step : after (step { State.reset with running := false }) =
    some { State.reset with running := false } := by decide

/-! ## Stack (ST1 to ST12) -/

theorem test_drop : dsAfter (exec .drop (withStacks [1, 2] [])) = some [1] ∧
    dsAfter (exec .drop (withStacks [] [])) = some [] := by decide
theorem test_drop_strict : faultAfter (exec .drop { State.reset with cfg := strictConfig }) =
    some ⟨.dataStackUnderflow, 5, 0, some 0x20, none, none, none, 0, 0⟩ := by decide
theorem test_dup : dsAfter (exec .dup (withStacks [7] [])) = some [7, 7] ∧
    dsAfter (exec .dup (withStacks [] [])) = some [0, 0] := by decide
theorem test_swap : dsAfter (exec .swap (withStacks [1, 2] [])) = some [2, 1] ∧
    dsAfter (exec .swap (withStacks [9] [])) = some [9, 0] := by decide
theorem test_over : dsAfter (exec .overCopy (withStacks [1, 2] [])) = some [1, 2, 1] ∧
    dsAfter (exec .overCopy (withStacks [9] [])) = some [0, 9, 0] := by decide
theorem test_rot : dsAfter (exec .rot (withStacks [4, 1, 2, 3] [])) = some [4, 2, 3, 1] ∧
    dsAfter (exec .rot (withStacks [1, 2] [])) = some [1, 2, 0] := by decide

/-! ## Literal and memory (LM1 to LM15) -/

theorem test_lit : dsAfter (exec (.lit 5) State.reset) = some [5] := by decide
theorem test_lit_wraps_pc : (after (step (place (place { State.reset with pc := 0xFFFF } 0xFFFF [0x34]) 0 [0x12]))).map
    (fun t => (t.ds, t.pc)) = some ([0x12], 0x0001) := by decide
theorem test_lit2 : dsAfter (exec (.lit2 0x1234) State.reset) = some [0x34, 0x12] ∧
    pcAfter (exec (.lit2 0x1234) State.reset) = some 3 := by decide
theorem test_ld8 : dsAfter (exec .ld8 (place (withStacks [0x00, 0xC0] []) 0xC000 [0x2A])) = some [0x2A] := by decide
theorem test_ld8_unmapped : faultAfter (exec .ld8 { withStacks [0x00, 0xA9] [] with pc := 0x0050 }) =
    some ⟨.unmappedAddress, 1, 0x0050, some 0x30, none, some 0xA900, some .read, 2, 0⟩ := by decide
theorem test_st8 : busAfter (exec .st8 (withStacks [0x2A, 0x00, 0xC0] [])) 0xC000 = some 0x2A ∧
    busAfter (exec .st8 (place (withStacks [0x99, 0x10, 0x00] []) 0x10 [0x34])) 0x10 = some 0x34 := by decide
theorem test_st8_latches : (after (exec .st8 { withStacks [0x01, 0x02, 0xB0] [] with live := ⟨0x12, 0x34⟩ })).map
    (fun t => (t.padCtrl, t.latched)) = some (0x01, ⟨0x12, 0x34⟩) := by decide
theorem test_ld16 : dsAfter (exec .ld16 (place (withStacks [0x10, 0xC0] []) 0xC010 [0x34, 0x12])) =
    some [0x34, 0x12] := by decide
theorem test_ld16_wraps : dsAfter (exec .ld16 (place (place (withStacks [0xFF, 0xFF] []) 0xFFFF [0xAA]) 0 [0x34])) =
    some [0xAA, 0x34] := by decide
theorem test_st16 : (after (exec .st16 (withStacks [0x00, 0x0F, 0x0C, 0xA8] []))).map
    (fun t => (busRead t 0xA80C, busRead t 0xA80D, palRgb t 6, t.ds)) =
      some (some 0x00, some 0x0F, ⟨255, 0, 0⟩, []) := by decide
/-- V-LM-13's second write misses: the first is undone and the operands are back. -/
theorem test_st16_undone : (after (exec .st16 { withStacks [0x11, 0x22, 0x23, 0xA8] [] with pc := 0x40 })).map
    (fun t => (t.scrollY, t.ds)) = some (0, [0xA8, 0x23, 0x22, 0x11]) := by decide
theorem test_st16_fault : faultAfter (exec .st16 { withStacks [0x11, 0x22, 0x23, 0xA8] [] with pc := 0x40 }) =
    some ⟨.unmappedAddress, 1, 0x0040, some 0x33, none, some 0xA824, some .write, 4, 0⟩ := by decide

/-! ## ALU (AL1 to AL20) -/

theorem test_add : dsAfter (exec .add (withStacks [0xFF, 0x01] [])) = some [0x00] ∧
    dsAfter (exec .add (withStacks [7] [])) = some [7] := by decide
theorem test_sub : dsAfter (exec .sub (withStacks [2, 5] [])) = some [0xFD] ∧
    dsAfter (exec .sub (withStacks [3] [])) = some [0xFD] := by decide
theorem test_and : dsAfter (exec .and (withStacks [0xF0, 0x3C] [])) = some [0x30] := by decide
theorem test_or : dsAfter (exec .or (withStacks [0xF0, 0x0F] [])) = some [0xFF] := by decide
theorem test_xor : dsAfter (exec .xor (withStacks [0xFF, 0x0F] [])) = some [0xF0] := by decide
theorem test_not : dsAfter (exec .not (withStacks [0x0F] [])) = some [0xF0] ∧
    dsAfter (exec .not (withStacks [] [])) = some [0xFF] := by decide
theorem test_reserved : faultAfter (step (place { withStacks [1, 2] [] with pc := 0x20 } 0x20 [0x46])) =
    some ⟨.reservedOpcode, 3, 0x0020, some 0x46, none, none, none, 2, 0⟩ := by decide

/-! ## Control flow (CF1 to CF17) -/

theorem test_jmp : pcAfter (step (place State.reset 0 [0x50, 0x00, 0x01])) = some 0x0100 := by decide
theorem test_call : rsAfter (exec (.call 0x0010) { State.reset with pc := 0x0002 }) = some [0x00, 0x05] ∧
    pcAfter (exec (.call 0x0010) { State.reset with pc := 0x0002 }) = some 0x0010 := by decide
theorem test_call_wraps : rsAfter (exec (.call 0x0100) { State.reset with pc := 0xFFFE }) = some [0x00, 0x01] := by
  decide
theorem test_ret : pcAfter (exec .ret (withStacks [] [0x00, 0x05])) = some 0x0005 := by decide
theorem test_ret_short : faultAfter (exec .ret { withStacks [] [0x05] with pc := 0x10 }) =
    some ⟨.returnStackUnderflow, 4, 0x0010, some 0x52, none, none, none, 0, 1⟩ := by decide
theorem test_retz_returns : pcAfter (exec .retz (withStacks [] [0x12, 0x34])) = some 0x1234 := by decide
theorem test_retz_goes_on : (after (exec .retz (withStacks [2] []))).map (fun t => (t.ds, t.pc, t.fault)) =
    some ([], 0x0001, none) := by decide
theorem test_bra_back : pcAfter (exec (.bra 0xFB) { State.reset with pc := 0x0009 }) = some 0x0006 ∧
    pcAfter (exec (.bra 0x80) State.reset) = some 0xFF82 := by decide
theorem test_bra_wraps : pcAfter (exec (.bra 0x05) { State.reset with pc := 0xFFFD }) = some 0x0004 := by decide

/-! ## I/O and timing (IO1 to IO8) -/

theorem test_tor : rsAfter (exec .tor (withStacks [9] [])) = some [9] ∧
    rsAfter (exec .tor (withStacks [] [])) = some [0] := by decide
theorem test_fromr : dsAfter (exec .fromr (withStacks [] [9])) = some [9] ∧
    rsAfter (exec .fromr (withStacks [] [9])) = some [] := by decide
theorem test_waitvb : (after (exec .waitvb { State.reset with pc := 0x40, status := 0x85, cfg := spinConfig })).map
    (fun t => (t.status, t.pc)) = some (0x05, 0x0041) := by decide
theorem test_waitvb_spins : pcAfter (exec .waitvb { State.reset with pc := 0x40, cfg := spinConfig }) =
    some 0x0040 := by decide

/-! ## Faults, bus and host (FT1 to FT4, V2 to V6) -/

theorem test_fetch_unmapped : faultAfter (step { State.reset with pc := 0xA900 }) =
    some ⟨.unmappedAddress, 1, 0xA900, none, none, some 0xA900, some .fetch, 0, 0⟩ := by decide
theorem test_operand_unmapped : faultAfter (step { State.reset with pc := 0xA823, scrollY := 0x34 }) =
    some ⟨.unmappedAddress, 1, 0xA823, some 0x34, none, some 0xA824, some .fetch, 0, 0⟩ := by decide
theorem test_unknown_opcode : faultAfter (step (place { State.reset with pc := 0x1234 } 0x1234 [0xEE])) =
    some ⟨.illegalOpcode, 2, 0x1234, some 0xEE, none, none, none, 0, 0⟩ := by decide
theorem test_rom_write_discarded : busRead (hostBusWrite (place State.reset 0x10 [0x34]) 0x10 0x99) 0x10 =
    some 0x34 := by decide
theorem test_round_trip : busRead (hostBusWrite State.reset 0xC000 0x1FF) 0xC000 = some 0xFF ∧
    busRead (hostBusWrite State.reset 0xA705 0xAB) 0xA705 = some 0xAB ∧
    busRead (hostBusWrite State.reset 0xA821 0x7F) 0xA821 = some 0x7F := by decide
theorem test_host_miss : hostReply (.busRead 0xA824) State.reset = .unmapped 0xA824 .read ∧
    hostReply (.busWrite 0xBFFF 0) State.reset = .unmapped 0xBFFF .write := by decide
theorem test_frame_boundary : (frameBoundary State.reset).status = 0x80 := by decide

/-! ## The rasterizer (V3, V-PPU-1 to V-PPU-11): one pixel each -/

/-- The palette, and the tile rows a vector looks at, of the PPU vectors' common start: entry 1 white, 2 green,
3 red, 4 blue; row 0 of tile 1 all index 2 and of tile 2 all index 3. -/
def ppuStart : State :=
  place (place (place State.reset 0xA802 [0xFF, 0x0F, 0xF0, 0x00, 0x00, 0x0F, 0x0F, 0x00])
    0x8020 [0x22, 0x22, 0x22, 0x22]) 0x8040 [0x33, 0x33, 0x33, 0x33]

theorem test_ppu_palette : palRgb (place State.reset 0xA800 [0x5A, 0xF3]) 0 = ⟨51, 85, 170⟩ ∧
    palRgb (place State.reset 0xA800 [0x21, 0x03]) 0 = ⟨51, 34, 17⟩ := by decide
theorem test_ppu_tile_row : tileRow (place State.reset 0x80E0 [0x12, 0x34, 0x56, 0x78]) 7 0 true false =
    [8, 7, 6, 5, 4, 3, 2, 1] ∧
    tileRow (place State.reset 0x80E0 [0x12, 0x34, 0x56, 0x78]) 7 7 false true = [1, 2, 3, 4, 5, 6, 7, 8] := by decide
theorem test_ppu_background : bgColour (place ppuStart 0xA001 [1]) 8 0 = ⟨0, 255, 0⟩ ∧
    bgColour (place ppuStart 0xA001 [1]) 7 0 = ⟨0, 0, 0⟩ := by decide
theorem test_ppu_scroll : bgColour { place ppuStart 0xA001 [1] with scrollX := 250 } 14 0 = ⟨0, 255, 0⟩ ∧
    bgColour { place ppuStart 0xA001 [1] with scrollX := 250 } 13 0 = ⟨0, 0, 0⟩ := by decide
theorem test_ppu_mask : pixelAt (place (place ppuStart 0xA380 [0x40]) 0xA700 [4, 0, 1, 0x00]) 4 0 = ⟨0, 0, 0⟩ ∧
    pixelAt (place (place ppuStart 0xA380 [0x40]) 0xA700 [4, 0, 1, 0x00]) 8 0 = ⟨0, 255, 0⟩ ∧
    pixelAt (place (place ppuStart 0xA380 [0x40]) 0xA700 [4, 0, 1, 0x80]) 4 0 = ⟨0, 255, 0⟩ := by decide
theorem test_ppu_higher_slot_wins :
    pixelAt (place (place ppuStart 0xA700 [16, 16, 1, 0]) 0xA710 [20, 16, 2, 0]) 20 16 = ⟨255, 0, 0⟩ ∧
    pixelAt (place (place ppuStart 0xA700 [16, 16, 1, 0]) 0xA710 [20, 16, 2, 0]) 18 16 = ⟨0, 255, 0⟩ := by decide
theorem test_ppu_no_wrap : pixelAt (place ppuStart 0xA700 [252, 0, 1, 0]) 255 0 = ⟨0, 255, 0⟩ ∧
    pixelAt (place ppuStart 0xA700 [252, 0, 1, 0]) 0 0 = ⟨0, 0, 0⟩ := by decide
/-- V-PPU-8, the top row: tile 0x10 white and tile 0x11 green, then with a horizontal flip. -/
def ppuBig (attr : Byte) : State :=
  place (place (place ppuStart 0x8200 [0x11, 0x11, 0x11, 0x11]) 0x8220 [0x22, 0x22, 0x22, 0x22])
    0xA700 [32, 32, 0x10, attr]
theorem test_ppu_big_sprite : pixelAt (ppuBig 0x40) 32 32 = ⟨255, 255, 255⟩ ∧
    pixelAt (ppuBig 0x40) 40 32 = ⟨0, 255, 0⟩ := by decide
theorem test_ppu_big_flip : pixelAt (ppuBig 0x50) 32 32 = ⟨0, 255, 0⟩ ∧
    pixelAt { ppuBig 0x50 with cfg := { defaultConfig with spriteFlip := .perTile } } 32 32 = ⟨255, 255, 255⟩ := by
  decide
theorem test_ppu_quadrants : quadrantTile defaultConfig 0xFF 8 0 = 0x00 ∧ quadrantTile defaultConfig 0xFF 0 8 = 0x0F ∧
    quadrantTile defaultConfig 0xFF 8 8 = 0x10 := by decide

/-! ## The assembler: V1's program, written out as R102 writes programs -/

theorem test_assembler : (assembleText "start: LIT 5 ; push\n TRACE\n LIT 2\nloop: ADD\n SYS 0x10\n BRA loop").toOption =
    some [(0, 0x34), (1, 0x05), (2, 0x01), (3, 0x10), (4, 0x34), (5, 0x02), (6, 0x40), (7, 0x01), (8, 0x10),
      (9, 0x54), (10, 0xFB)] := by decide
theorem test_assembler_directives : (assembleText ".org 0x0010\n .byte 1, 0xFF\nhere: JMP here").toOption =
    some [(16, 0x01), (17, 0xFF), (18, 0x50), (19, 0x12), (20, 0x00)] := by decide

/-! ## Witnesses: states that meet the hypotheses of the statements, at the ends of their ranges -/

set_option maxRecDepth 6000

/-- An outcome that is a next state with a decidable property has one. -/
theorem nextWith {o : Host.Outcome State Fault Refusal} {P : State → Prop} [DecidablePred P]
    (h : (after o).any (fun t => decide (P t)) = true) : ∃ t, o = .next t ∧ P t := by
  match o with
  | .next t => exact ⟨t, rfl, by simpa [after] using h⟩
  | .fault f => cases f
  | .refused r => simp [after] at h

/-- A machine under `strict` whose data stack holds `n` cells. -/
def depth (n : Nat) : State := { State.reset with cfg := strictConfig, ds := List.replicate n 0x07 }

/-- A machine whose return stack holds `n` cells. -/
def rdepth (n : Nat) : State := { State.reset with rs := List.replicate n 0x07 }

/-- A full data stack under `strict` with an address on top. -/
def fullAt (hi lo : Byte) : State :=
  { State.reset with cfg := strictConfig, ds := hi :: lo :: List.replicate 254 0x07 }

/-- `canPop` at the least depth under `strict`, and on the empty stack under `lenient_zero`. -/
theorem witness_canPop : ∀ n ∈ [1, 2, 3, 4], canPop (depth n) n ∧ canPop State.reset n ∧ State.reset.ds = [] := by
  decide
/-- `underflowStops` for one, two, three and four cells, one cell short. -/
theorem witness_underflowStops : ∀ n ∈ [1, 2, 3, 4], ¬ canPop (depth (n - 1)) n ∧ ¬ canPop (depth 0) n := by decide
/-- `operandFetchFaults` for the first operand byte: the opcode in the last mapped byte before the hole. -/
theorem witness_operandFetchFaults_first (op : Byte) :
    let s := { State.reset with pc := 0xA823, scrollY := op }
    s.running = true ∧ busRead s s.pc = some op ∧
      (∀ j, 1 ≤ j → j < 1 → (busRead s (s.pc + BitVec.ofNat 16 j)).isSome = true) ∧
      busRead s (s.pc + BitVec.ofNat 16 1) = none :=
  ⟨rfl, rfl, fun j h1 h2 => absurd h1 (by omega), rfl⟩
/-- `operandFetchFaults` for the second operand byte. -/
theorem witness_operandFetchFaults_second (op : Byte) :
    let s := { State.reset with pc := 0xA822, scrollX := op }
    s.running = true ∧ busRead s s.pc = some op ∧
      (∀ j, 1 ≤ j → j < 2 → (busRead s (s.pc + BitVec.ofNat 16 j)).isSome = true) ∧
      busRead s (s.pc + BitVec.ofNat 16 2) = none :=
  ⟨rfl, rfl, fun j h1 h2 => by obtain rfl : j = 1 := by omega
                               rfl, rfl⟩
theorem witness_DecodedBytesAreTheEncoding : decode [0x51, 0x10, 0x00, 0x40] = .ok (.call 0x0010, [0x40]) := by decide
theorem witness_IllegalOpcodeStops : ∀ op ∈ [0x03, 0x1F, 0x25, 0x2F, 0x36, 0x47, 0x55, 0x63, 0xFF],
    busRead { State.reset with pc := 0xA823, scrollY := op } 0xA823 = some op ∧
      op.toNat ∉ [0x00, 0x01, 0x02, 0x20, 0x21, 0x22, 0x23, 0x24, 0x30, 0x31, 0x32, 0x33, 0x34, 0x35,
        0x40, 0x41, 0x42, 0x43, 0x44, 0x45, 0x46, 0x50, 0x51, 0x52, 0x53, 0x54, 0x60, 0x61, 0x62] := by decide
/-- A label as far back, and as far on, as `BRA` reaches, and one further. -/
theorem witness_AssemblerOperands : (labelAddr [("far", 0)] "far").toOption = some 0 ∧
    ((0 : Nat) : Int) = 126 + 2 + (0x80 : Byte).toInt ∧ ((129 : Nat) : Int) = 0 + 2 + (0x7F : Byte).toInt ∧
    (0 : Nat) + 128 < 127 + 2 ∧ (0 : Nat) + 2 + 127 < 130 := by decide
theorem witness_ReservedOpcodeStops : let s := place State.reset 0 [0x46]
    s.running = true ∧ busRead s s.pc = some 0x46 := by decide
theorem witness_SysServices_known : (let s := place State.reset 0 [0x01, 0x10];
      s.running = true ∧ busRead s s.pc = some 0x01 ∧ busRead s (s.pc + 1) = some 0x10) ∧
    (let s := place State.reset 0 [0x01, 0x11];
      s.running = true ∧ busRead s s.pc = some 0x01 ∧ busRead s (s.pc + 1) = some 0x11) := by decide
theorem witness_SysServices_unknown : ∀ sub ∈ [0x00, 0x0F, 0x12, 0xFF],
    let s := place State.reset 0 [0x01, sub]
    s.running = true ∧ busRead s s.pc = some 0x01 ∧ busRead s (s.pc + 1) = some sub ∧ sub ≠ 0x10 ∧ sub ≠ 0x11 := by
  decide
theorem witness_FetchFaultsStop : State.running { State.reset with pc := 0xA824 } = true ∧
    busRead { State.reset with pc := 0xA824 } 0xA824 = none ∧
    busRead { State.reset with pc := 0xBFFF } 0xBFFF = none := by decide
/-- The hypotheses of `StepRunsDecodedInstruction`: bytes that decode stand at `pc`. -/
theorem witness_StepRunsDecodedInstruction : let s := place { State.reset with pc := 0xFFFF } 0xFFFF [0x34, 0x05]
    s.running = true ∧ decode [0x34, 0x05] = .ok (.lit 0x05, []) ∧ bytesAt s [0x34, 0x05] := by
  unfold bytesAt; decide
theorem witness_RunsSplitAndHaltedRunsRest : (∃ t, run 2 State.reset = .next t ∧ t.pc = 2) ∧
    State.running { State.reset with running := false } = false ∧
    State.reset.running = true ∧ ∃ t, step State.reset = .next t ∧ t.pc = 1 :=
  ⟨nextWith (by decide), rfl, rfl, nextWith (by decide)⟩
theorem witness_HaltResult : ∃ t, exec .halt State.reset = .next t ∧ t.running = false := nextWith (by decide)
theorem witness_TraceResult : let s := place State.reset 0 [0x01, 0x10]
    s.running = true ∧ bytesAt s [0x01, 0x10] := by
  unfold bytesAt; decide
/-- A string that ends in a NUL, an empty one, and the output clause's bytes at `pc`. -/
theorem witness_PutsResult_nul : let s := place (place (withStacks [0xFE, 0xFF] []) 0xFFFE [0x48]) 0 [0x01, 0x11]
    s.running = true ∧ bytesAt s [0x01, 0x11] ∧ canPop s 2 ∧ stringAt s (topAddr s) [0x48] ∧
      stringAt State.reset (topAddr State.reset) [] ∧
      busRead s (topAddr s + BitVec.ofNat 16 [(0x48 : Byte)].length) = some 0 := by
  unfold bytesAt stringAt; decide
/-- A string that runs into the hole after one byte, and one that starts in it. -/
theorem witness_PutsResult_unmapped : let s := { withStacks [0x23, 0xA8] [] with scrollY := 0x48 }
    canPop s 2 ∧ stringAt s (topAddr s) [0x48] ∧
      busRead s (topAddr s + BitVec.ofNat 16 [(0x48 : Byte)].length) = none ∧
      busRead (withStacks [0x24, 0xA8] []) (topAddr (withStacks [0x24, 0xA8] []) + BitVec.ofNat 16 0) = none := by
  unfold stringAt; decide
/-- A machine with a nonzero byte at every address: `ctrl` in a window of the whole address space. -/
def noNul : State :=
  { State.reset with cfg := { defaultConfig with map := [⟨.ctrl, 0, 0x10000⟩] }, ctrl := 0x41 }
/-- A string of 65536 nonzero bytes. -/
theorem witness_PutsResult_limit :
    canPop noNul 2 ∧ stringAt noNul (topAddr noNul) (List.replicate 65536 0x41) ∧
      (List.replicate 65536 (0x41 : Byte)).length = 65536 := by
  have h : ∀ a, busRead noNul a = some 0x41 := fun a => by
    have := a.isLt
    have hw : findWindow noNul.cfg a = some ⟨.ctrl, 0, 0x10000⟩ := by
      simp [findWindow, noNul, windowHandles]
      omega
    rw [busRead, hw]
    rfl
  refine ⟨.inl rfl, fun k hk => ⟨?_, ?_⟩, List.length_replicate⟩
  · rw [h, List.getElem_replicate]
  · rw [List.getElem_replicate]; decide
/-- DUP, OVER, LIT: room for one more cell, and none. -/
theorem witness_push_one : canPop (depth 255) 2 ∧ (depth 255).ds.length < dsCap ∧ (depth 256).ds.length = dsCap := by
  decide
/-- SWAP, ROT, NOT and the binary ALU instructions on a full stack. -/
theorem witness_full_stack : canPop (depth 256) 3 ∧ (depth 256).ds.length ≤ dsCap := by decide
/-- LIT2: room for two cells, and for one. -/
theorem witness_Lit2Result : (depth 254).ds.length + 2 ≤ dsCap ∧ dsCap < (depth 255).ds.length + 2 := by decide
theorem witness_Ld8Result : (let s := fullAt 0xFF 0xFF;
      canPop s 2 ∧ s.ds.length ≤ dsCap ∧ busRead s (topAddr s) = some 0) ∧
    (let s := fullAt 0xA8 0x24;
      canPop s 2 ∧ busRead s (topAddr s) = none) := by decide
theorem witness_St8Result : (let s := fullAt 0xA8 0x23;
      canPop s 3 ∧ (busWrite s (topAddr s) (cell s 2)).isSome = true) ∧
    (let s := fullAt 0xBF 0xFF;
      canPop s 3 ∧ busWrite s (topAddr s) (cell s 2) = none) := by decide
/-- ST8 to the last ROM byte, to a latched pad byte, and to `pad_ctrl` with bit 0 set. -/
theorem witness_St8Result_devices : (let s := fullAt 0x7F 0xFF;
      canPop s 3 ∧ regionAt s (topAddr s) = some .rom) ∧
    (let s := fullAt 0xB0 0x01;
      canPop s 3 ∧ regionAt s (topAddr s) = some .latched) ∧
    (let s := fullAt 0xB0 0x02;
      canPop s 3 ∧ regionAt s (topAddr s) = some .padCtrl ∧ (cell s 2).getLsbD 0 = true) := by decide
theorem witness_Ld16Result : (let s := fullAt 0xFF 0xFF;
      canPop s 2 ∧ s.ds.length ≤ dsCap ∧ busRead s (topAddr s) = some 0 ∧ busRead s (topAddr s + 1) = some 0) ∧
    (let s := fullAt 0xA8 0x24;
      canPop s 2 ∧ busRead s (topAddr s) = none) ∧
    (let s := fullAt 0xA8 0x23;
      canPop s 2 ∧ busRead s (topAddr s) = some 0 ∧ busRead s (topAddr s + 1) = none) := by decide
theorem witness_St16Result : (let s := fullAt 0xFF 0xFF;
      canPop s 4 ∧ ∃ t ∈ busWrite s (topAddr s) (cell s 3), (busWrite t (topAddr s + 1) (cell s 2)).isSome = true) ∧
    (let s := fullAt 0xA8 0x24;
      canPop s 4 ∧ busWrite s (topAddr s) (cell s 3) = none) ∧
    (let s := fullAt 0xA8 0x23;
      canPop s 4 ∧ ∃ t ∈ busWrite s (topAddr s) (cell s 3), busWrite t (topAddr s + 1) (cell s 2) = none) :=
  ⟨⟨by decide, _, rfl, by decide⟩, by decide, by decide, _, rfl, by decide⟩
theorem witness_CallResult : (rdepth 254).rs.length + 2 ≤ rsCap ∧ rsCap < (rdepth 255).rs.length + 2 ∧
    (0x00 : Byte) ++ (0x01 : Byte) = State.pc { rdepth 254 with pc := 0xFFFE } + 3 := by decide
theorem witness_RetResult : (withStacks [] [0x12, 0x34]).rs = 0x34 :: 0x12 :: [] ∧ (rdepth 1).rs.length < 2 ∧
    (rdepth 0).rs.length < 2 := by decide
/-- RETZ: a zero with an address to return to, the lenient zero of an empty stack, a nonzero byte with an empty
return stack, and a zero with one byte on the return stack. -/
theorem witness_RetzResult : (let s := { withStacks [0x00] [0x12, 0x34] with cfg := strictConfig };
      canPop s 1 ∧ cell s 0 = 0 ∧ s.rs = 0x34 :: 0x12 :: []) ∧
    (canPop State.reset 1 ∧ cell State.reset 0 = 0) ∧
    (canPop (depth 1) 1 ∧ cell (depth 1) 0 ≠ 0 ∧ (depth 1).rs = []) ∧
    (canPop (rdepth 1) 1 ∧ cell (rdepth 1) 0 = 0 ∧ (rdepth 1).rs.length < 2) := by decide
theorem witness_TorResult : canPop (rdepth 255) 1 ∧ (rdepth 255).rs.length < rsCap ∧ canPop (rdepth 256) 1 ∧
    (rdepth 256).rs.length = rsCap := by decide
theorem witness_FromrResult : (rdepth 1).rs = 0x07 :: [] ∧ (rdepth 0).rs = [] ∧
    (State.ds { rdepth 1 with ds := List.replicate 255 0x07 }).length < dsCap ∧
    (State.ds { rdepth 1 with ds := List.replicate 256 0x07 }).length = dsCap := by decide
/-- WAITVB: immediate, spinning with the flag set, spinning with it clear, and a map without a status register. -/
theorem witness_WaitvbResult : (statusAddr State.reset.cfg = some 0xA821 ∧ busRead State.reset 0xA821 = some 0 ∧
      State.reset.cfg.vblankWait = .immediate ∧ (busWrite State.reset 0xA821 (0 &&& 0x7F)).isSome = true) ∧
    (let s := { State.reset with cfg := spinConfig, status := 0x80 };
      statusAddr s.cfg = some 0xA821 ∧ busRead s 0xA821 = some 0x80 ∧ (0x80 : Byte).getLsbD 7 = true ∧
        s.cfg.map = defaultMap ∧ (busWrite s 0xA821 (0x80 &&& 0x7F)).isSome = true) ∧
    (let s := { State.reset with cfg := spinConfig, status := 0x7F };
      statusAddr s.cfg = some 0xA821 ∧ busRead s 0xA821 = some 0x7F ∧ s.cfg.vblankWait = .spin ∧
        (0x7F : Byte).getLsbD 7 = false) ∧
    (statusAddr { defaultConfig with map := [⟨.ram, 0, 0x10000⟩] } = none) := by decide
/-- The invariant at a state with full stacks, a listed byte in RAM and a fault record. -/
theorem witness_GoodState : GoodState (takeFault none (.unmapped 0xA900 .fetch)
    { fullAt 0 0 with mem := [(0xFFFF, 0x01)], rs := List.replicate 256 0x07 }) :=
  ⟨by decide, by decide, by decide, by decide, by decide, by decide⟩
theorem witness_InvKeptByStep : GoodState State.reset ∧ ∃ t, step State.reset = .next t ∧ t.pc = 1 :=
  ⟨⟨by decide, by decide, by decide, by decide, by decide, by decide⟩, nextWith (by decide)⟩
theorem witness_InvKeptByHostActions :
    (∃ t, hostAct (.busWrite 0xFFFF 0x101) State.reset = .next t ∧ t.mem = [(0xFFFF, 0x01)]) ∧
    (∃ t, hostRun [.setState 1 0x12, .vblankLatch, .run 2, .frameBoundary] State.reset = .next t ∧
      t.latched = ⟨0, 0x12⟩ ∧ t.pc = 2 ∧ t.status = 0x80) :=
  ⟨nextWith (by decide), nextWith (by decide)⟩
/-- A small well-formed map: two bytes of ROM, RAM up to the end of the address space. -/
def smallConfig : Config := { defaultConfig with map := [⟨.rom, 0, 2⟩, ⟨.ram, 0xFFF0, 16⟩] }
theorem witness_ConstructionLoadsTheImage : Config.wf { defaultConfig with mapCols := 31 } = false ∧
    smallConfig.wf = true ∧ smallConfig.romSize < [(1 : Byte), 2, 3].length ∧
    [(1 : Byte), 2].length ≤ smallConfig.romSize ∧ smallConfig.ramInit = .zero ∧
    (∀ w ∈ smallConfig.map, (w.region = .rom ∧ 1 < w.size) ∨ (w.region = .ram ∧ 15 < w.size)) := by decide
/-- The last byte of RAM under `arbitrary`, and of windows that are neither ROM nor RAM. -/
theorem witness_ConstructionLoadsTheImage_windows :
    let c := { smallConfig with ramInit := .arbitrary, map := ⟨.pal, 0x100, 0x20⟩ :: ⟨.latched, 0x200, 2⟩ :: smallConfig.map }
    c.wf = true ∧ c.ramInit = .arbitrary ∧ [(1 : Byte), 2].length ≤ c.romSize ∧
    ⟨.ram, 0xFFF0, 16⟩ ∈ c.map ∧ 15 < 16 ∧ ⟨.pal, 0x100, 0x20⟩ ∈ c.map ∧ ⟨.latched, 0x200, 2⟩ ∈ c.map := by decide
theorem witness_FaultsArePrecise : ∃ t, step { fullAt 0 0 with pc := 0xA900 } = .next t ∧ t.fault ≠ none :=
  nextWith (by decide)
theorem witness_CpuLeavesConfigAndLivePads :
    ∃ t, step (place { withStacks [0x01, 0x02, 0xB0] [] with live := ⟨0x12, 0x34⟩ } 0 [0x31]) = .next t ∧
      t.latched = ⟨0x12, 0x34⟩ := nextWith (by decide)
theorem witness_RomNeverChanges : regionAt State.reset 0x7FFF = some .rom ∧
    ∃ t, hostAct (.busWrite 0x7FFF 0x99) State.reset = .next t ∧ t = State.reset :=
  ⟨by decide, nextWith (by decide)⟩
theorem witness_OnlyStoresChangeDevices : ∃ t, exec .add (depth 2) = .next t ∧ t.ds = [0x0E] :=
  nextWith (by decide)
/-- A byte next to the one stored, and a store that latches the pads. -/
theorem witness_StoresLeaveOtherBytes_st8 : (let s := withStacks [0x2A, 0xFE, 0xFF] [];
      s.cfg.wf = true ∧ (0xFFFF : Word) ≠ topAddr s ∧ regionAt s 0xFFFF ≠ some .latched ∧
        (after (exec .st8 s)).isSome = true) ∧
    (let s := { withStacks [0x01, 0x02, 0xB0] [] with live := ⟨0x12, 0x34⟩ };
      regionAt s (topAddr s) = some .padCtrl ∧ (cell s 2).getLsbD 0 = true ∧
        (after (exec .st8 s)).map (·.latched) = some s.live) := by decide
theorem witness_StoresLeaveOtherBytes_st16 : let s := withStacks [0x2A, 0x2B, 0xFD, 0xFF] []
    s.cfg.wf = true ∧ (0xFFFF : Word) ≠ topAddr s ∧ (0xFFFF : Word) ≠ topAddr s + 1 ∧
      regionAt s 0xFFFF ≠ some .latched ∧ (after (exec .st16 s)).isSome = true := by decide
theorem witness_StoresLeaveOtherBytes_waitvb : State.reset.cfg.wf = true ∧
    statusAddr State.reset.cfg = some 0xA821 ∧ (after (exec .waitvb State.reset)).isSome = true ∧
    (0xA820 : Word) ≠ 0xA821 := by decide
theorem witness_RunningFlag : State.running { State.reset with running := false } = false ∧
    (∃ t, hostAct (.reset 0x10000) { State.reset with running := false } = .next t ∧ t.running = true) ∧
    (∃ t, hostAct .step (place State.reset 0 [0x02]) = .next t ∧ t.running = false) ∧
    (∃ t, hostAct (.run 1) (place State.reset 0 [0x02]) = .next t ∧ t.running = false) ∧
    (∃ t, step (place State.reset 0 [0x02]) = .next t ∧ t.running = false ∧ t.fault = none) ∧
    (∃ t, step (place State.reset 0 [0x52]) = .next t ∧ t.running = false ∧ t.fault ≠ none) :=
  ⟨rfl, nextWith (by decide), nextWith (by decide), nextWith (by decide), nextWith (by decide), nextWith (by decide)⟩
/-- The last clause of `RetResult`: room for exactly one return address. -/
theorem witness_RetResult_symmetry : (rdepth 254).rs.length + 2 ≤ rsCap := by decide
/-- The last clause of `St16Result`: a store into the last two RAM bytes. -/
theorem witness_St16Result_ram : let s := withStacks [0x34, 0x12, 0xFE, 0xFF] []
    s.mem.wf = true ∧ 4 ≤ s.ds.length ∧ s.ds.length ≤ dsCap ∧ regionAt s (topAddr s) = some .ram ∧
      regionAt s (topAddr s + 1) = some .ram ∧ (after (exec .st16 s)).isSome = true := by decide
/-- Both ends of both holes, and the mapped addresses beside them. -/
theorem witness_UnmappedAddressesOfDefaultMap : State.reset.cfg.map = defaultMap ∧
    (busRead State.reset 0xA824 = none ∧ busRead State.reset 0xAFFF = none ∧ busRead State.reset 0xB003 = none ∧
      busRead State.reset 0xBFFF = none) ∧
    (busRead State.reset 0xA823 = some 0 ∧ busRead State.reset 0xB000 = some 0 ∧
      busRead State.reset 0xB002 = some 0 ∧ busRead State.reset 0xC000 = some 0) := by decide
/-- Each region at both ends of its row of R56. -/
theorem witness_UnmappedAddressesOfDefaultMap_regions :
    [0x0000, 0x7FFF, 0x8000, 0x9FFF, 0xA000, 0xA37F, 0xA380, 0xA6FF, 0xA700, 0xA7FF, 0xA800, 0xA81F].map
      (regionAt State.reset) = [Region.rom, .rom, .tiles, .tiles, .tmap, .tmap, .tattr, .tattr, .oam, .oam, .pal, .pal].map
        some ∧
    [0xA820, 0xA821, 0xA822, 0xA823, 0xB000, 0xB001, 0xB002, 0xC000, 0xFFFF].map (regionAt State.reset) =
      [Region.ctrl, .status, .scrollX, .scrollY, .latched, .latched, .padCtrl, .ram, .ram].map some := by decide
theorem witness_WrittenByteReadsBack : State.reset.mem.wf = true ∧
    regionAt State.reset 0xFFFF = some .ram ∧ regionAt State.reset 0xA81F = some .pal ∧
    regionAt State.reset 0xA823 = some .scrollY ∧ regionAt State.reset 0xB002 = some .padCtrl := by decide
theorem witness_PadAndRomWrites : regionAt State.reset 0x7FFF = some .rom ∧
    regionAt State.reset 0xB001 = some .latched ∧ regionAt State.reset 0xB002 = some .padCtrl ∧
    (0x01 : Byte).getLsbD 0 = true ∧ (0xFE : Byte).getLsbD 0 = false := by decide
theorem witness_HostActionEffects : busRead State.reset 0xA824 = none ∧ busRead State.reset 0xBFFF = none := by decide
/-- A hit at the top of the address space, with a value above 255 (V5). -/
theorem witness_HostActionEffects_hit : (busWrite State.reset 0xFFFF (BitVec.ofNat 8 (0x1FF % 256))).isSome = true ∧
    busRead State.reset 0xFFFF = some 0 := by decide
theorem witness_FrameIsPixelwise : 255 < screenW State.reset.cfg ∧ 223 < screenH State.reset.cfg := by decide
/-- The last pixel of a frame that `ctrl` turns off. -/
theorem witness_FrameSize : let s := { State.reset with cfg := { defaultConfig with honorDisplayControl := true } }
    (renderFrame s)[57343]? = some (palRgb s 0) ∧ 255 < screenW s.cfg ∧ 223 < screenH s.cfg := by
  intro s
  have h : displayOff s = true := by decide
  have hn : screenW s.cfg * screenH s.cfg = 57344 := rfl
  refine ⟨?_, by decide, by decide⟩
  rw [renderFrame, if_pos h, hn, List.getElem?_replicate, if_pos (by decide)]
theorem witness_PaletteChannels : let s := place State.reset 0xA81E [0x5A, 0xF3]
    s.cfg.map = defaultMap ∧ busRead s (0xA800 + BitVec.ofNat 16 (2 * (15 : BitVec 4).toNat)) = some 0x5A ∧
      busRead s (0xA801 + BitVec.ofNat 16 (2 * (15 : BitVec 4).toNat)) = some 0xF3 := by decide
/-- Rows and columns 0 and 7, unflipped and flipped (the tile's last byte is 0x78). -/
theorem witness_TileDecoding : let s := place State.reset 0x80FC [0x12, 0x34, 0x56, 0x78]
    tilePixel s 7 7 7 false false = 8 ∧ tilePixel s 7 7 0 true false = 8 ∧ tilePixel s 7 0 7 false true = 8 ∧
      tilePixel s 7 0 0 true true = 8 := by decide
/-- Both sizes at their last offset, and both flip modes of the larger one. -/
theorem witness_TileDecoding_sprites : (0xBF : Byte).getLsbD 6 = false ∧ (0x40 : Byte).getLsbD 6 = true ∧
    (let s := place ppuStart 0xA7F0 [250, 223, 2, 0xBF];
      (readSprite s 15).attr.getLsbD 6 = false ∧ (7 : Nat) < spriteSize (readSprite s 15)) ∧
    (let s := ppuBig 0x70;
      (readSprite s 0).attr.getLsbD 6 = true ∧ (15 : Nat) < spriteSize (readSprite s 0) ∧
        s.cfg.spriteFlip = .whole) ∧
    { ppuBig 0x70 with cfg := { defaultConfig with spriteFlip := .perTile } }.cfg.spriteFlip = .perTile := by decide
theorem witness_FrameIgnoresOtherDevices : State.reset.cfg.wf = true ∧
    regionAt State.reset 0xFFFF = some .ram ∧ Region.ram.device ≠ .ppu ∧
    regionAt State.reset 0xB002 = some .padCtrl ∧ Region.padCtrl.device ≠ .ppu ∧
    (busWrite State.reset 0xFFFF 0x01).isSome = true ∧ (busWrite State.reset 0xB002 0x01).isSome = true ∧
    (let t := { depth 3 with cfg := State.reset.cfg };
      t.cfg = State.reset.cfg ∧ t.mem = State.reset.mem ∧ t.scrollX = State.reset.scrollX) := by decide
/-- `ctrl` values for each clause, at the screen's last pixel; sprites that cover nothing there, and one that does. -/
theorem witness_DisplayControlGates :
    (let c := { defaultConfig with honorDisplayControl := true };
      c.honorDisplayControl = true ∧ 255 < screenW c ∧ 223 < screenH c) ∧
    ((0xFE : Byte).getLsbD 0 = false) ∧
    ((0x01 : Byte).getLsbD 0 = true ∧ (0x01 : Byte).getLsbD 1 = false ∧ (0x01 : Byte).getLsbD 2 = false) ∧
    ((0x05 : Byte).getLsbD 0 = true ∧ (0x05 : Byte).getLsbD 1 = false ∧ (0x05 : Byte).getLsbD 2 = true) ∧
    ((0x07 : Byte).getLsbD 0 = true ∧ (0x07 : Byte).getLsbD 1 = true ∧ (0x07 : Byte).getLsbD 2 = true) ∧
    ((0x03 : Byte).getLsbD 0 = true ∧ (0x03 : Byte).getLsbD 1 = true ∧ (0x03 : Byte).getLsbD 2 = false) := by decide
/-- No slot opaque at the last pixel, though a transparent sprite covers it. -/
theorem witness_DisplayControlGates_uncovered : let s := place ppuStart 0xA700 [250, 223, 0, 0]
    spriteCovers (readSprite s 0) 255 223 ∧ ∀ k, k < 16 → ¬ spriteOpaque s (readSprite s k) 255 223 := by
  unfold spriteOpaque spriteCovers; decide
/-- Slot 14 opaque at the last pixel, under a transparent sprite in slot 15 that covers it too. -/
theorem witness_DisplayControlGates_covered :
    let s := place (place ppuStart 0xA7E0 [250, 223, 2, 0]) 0xA7F0 [250, 223, 0, 0]
    spriteOpaque s (readSprite s 14) 255 223 ∧ spriteCovers (readSprite s 15) 255 223 ∧
      ∀ j, j < 16 → 14 < j → ¬ spriteOpaque s (readSprite s j) 255 223 := by
  unfold spriteOpaque spriteCovers; decide
theorem witness_RasterizerReadsWhatTheBusReads : State.reset.cfg.map = defaultMap ∧
    busRead (place State.reset 0x9FFF [0x5A]) (BitVec.ofNat 16 (0x8000 + 8191)) = some 0x5A ∧
    busRead (place State.reset 0xA6FF [0x5A]) (BitVec.ofNat 16 (0xA380 + 895)) = some 0x5A ∧
    (let s := { State.reset with ctrl := 1, status := 2, scrollX := 3, scrollY := 4 };
      s.cfg.map = defaultMap ∧ (busRead s 0xA820, busRead s 0xA821, busRead s 0xA822, busRead s 0xA823) =
        (some 1, some 2, some 3, some 4)) := by decide
/-- Different scroll bytes that agree modulo a dimension of 224: Y in the default grid, X in a grid of 28 columns. -/
theorem witness_ScrollWrapsAround : (0 : Byte).toNat % screenH State.reset.cfg = (224 : Byte).toNat % screenH State.reset.cfg ∧
    (let c := { defaultConfig with mapCols := 28, mapRows := 32 };
      c.wf = true ∧ (31 : Byte).toNat % screenW c = (255 : Byte).toNat % screenW c) := by decide
theorem witness_HighestVisibleSpriteWins_none : State.reset.cfg.honorDisplayControl = false ∧
    ∀ k, k < 16 → ¬ spriteSeen State.reset (readSprite State.reset k) 255 223 := by
  unfold spriteSeen spriteOpaque spriteCovers; decide
/-- Slots 0 and 15 both seen at the screen's last pixel: 15 is the highest. -/
theorem witness_HighestVisibleSpriteWins_last :
    let s := place (place ppuStart 0xA700 [252, 223, 1, 0]) 0xA7F0 [250, 223, 2, 0]
    spriteSeen s (readSprite s 15) 255 223 ∧ spriteSeen s (readSprite s 0) 255 223 ∧
      ∀ j, 15 < j → j < 16 → ¬ spriteSeen s (readSprite s j) 255 223 := by
  refine ⟨?_, ?_, fun j h1 h2 => absurd h1 (by omega)⟩ <;> (unfold spriteSeen spriteOpaque spriteCovers; decide)

end Sys2Proof.Tests
end

section
/-!
PROOFS. The `running` flag (spec/10_state.md R22): what a body, a step and a host action do to it and to the fault
record.
-/
namespace Sys2Proof.Machine

open Sys2Proof.Safety

/-! ## Fetching HALT -/

/-- Bytes that decode begin with the instruction's own opcode (R91, R97). -/
theorem decodeFrom_ok_opcode {ε : Type} {get : Nat → Except ε Byte} {i : Instr} (h : decodeFrom get = .ok i) :
    get 0 = .ok i.opcode := by
  unfold decodeFrom at h
  split at h
  · cases h
  · rename_i op h0
    rw [h0]
    congr 1
    split at h
    · cases h
    · rename_i hop
      cases h
      exact (List.cons.inj (opcodeMap_complete hop).1).1.symm
    · rename_i hop
      split at h <;> cases h
      rcases opcodeMap_byte hop with ⟨rfl, rfl⟩ | ⟨rfl, rfl⟩ <;> rfl
    · rename_i hop
      split at h
      · cases h
      · split at h <;> cases h
        rename_i hsub
        rw [opcodeMap_service hop]
        rcases serviceMap_some hsub with ⟨-, rfl⟩ | ⟨-, rfl⟩ <;> rfl
    · rename_i hop
      split at h
      · cases h
      · split at h <;> cases h
        rcases opcodeMap_word hop with ⟨rfl, rfl⟩ | ⟨rfl, rfl⟩ | ⟨rfl, rfl⟩ <;> rfl

/-- An instruction fetched has its opcode at `pc` (R110). -/
theorem busRead_pc_of_fetchInstr {s : State} {i : Instr} (h : fetchInstr s = .ok i) :
    busRead s s.pc = some i.opcode :=
  fetchByte_zero_ok.mp (decodeFrom_ok_opcode h)

/-- HALT is fetched exactly where its byte stands at `pc` (R97, R110). -/
theorem fetchInstr_eq_halt {s : State} : fetchInstr s = .ok .halt ↔ busRead s s.pc = some 0x02 := by
  constructor
  · exact busRead_pc_of_fetchInstr
  · intro h
    have hmap : opcodeMap 0x02 = .complete .halt := rfl
    simp only [fetchInstr, decodeFrom, fetchByte_zero_ok.mpr h, hmap]

/-! ## The flag and the record across a body and a step -/

theorem CpuOnly.running {s t : State} (h : CpuOnly s t) : t.running = s.running := by
  obtain ⟨_, _, ⟨_, _, rfl, -⟩, rfl⟩ := h; rfl

theorem CpuOnly.fault {s t : State} (h : CpuOnly s t) : t.fault = s.fault := by
  obtain ⟨_, _, ⟨_, _, rfl, -⟩, rfl⟩ := h; rfl

/-- A body that answers leaves the fault record; it leaves `running` too, unless it is HALT's (R22, R115). -/
theorem bodyOf_running_fault {i : Instr} {a : Word} {s t : State} (h : bodyOf i a s = .ok t) :
    t.fault = s.fault ∧ (t.running = s.running ∨ i = .halt) := by
  rcases bodyOf_cases h with hc | ⟨hi, rfl⟩ | ⟨u, b, v, hu, hw⟩ | ⟨u, w, b, v, b', v', hu, hw, hw'⟩
  · exact ⟨hc.fault, .inl hc.running⟩
  · exact ⟨rfl, .inr hi⟩
  · exact ⟨(busWrite_fault hw).trans hu.cpuOnly.fault, .inl ((busWrite_running hw).trans hu.cpuOnly.running)⟩
  · exact ⟨(busWrite_fault hw').trans ((busWrite_fault hw).trans hu.cpuOnly.fault),
      .inl ((busWrite_running hw').trans ((busWrite_running hw).trans hu.cpuOnly.running))⟩

/-- Everything a step can do to `running` and the fault record: leave both, execute HALT, which leaves the record,
or take a fault (R22, R115, R213). -/
theorem step_running_fault_cases {s t : State} (h : step s = .next t) :
    (t.running = s.running ∧ t.fault = s.fault) ∨
    (fetchInstr s = .ok .halt ∧ t.fault = s.fault) ∨
    ∃ f, t = stopped s f := by
  rcases step_cases s with ⟨-, hs⟩ | ⟨-, e, -, hs⟩ | ⟨-, i, hi, hs⟩
  · cases hs.symm.trans h
    exact .inl ⟨rfl, rfl⟩
  · cases hs.symm.trans h
    exact .inr (.inr ⟨_, rfl⟩)
  · rcases exec_cases i s with ⟨u, hu, he⟩ | ⟨r, -, he⟩
    · cases (hs.trans he).symm.trans h
      obtain ⟨hfault, hrun | rfl⟩ := bodyOf_running_fault hu
      · exact .inl ⟨hrun, hfault⟩
      · exact .inr (.inl ⟨hi, hfault⟩)
    · cases (hs.trans he).symm.trans h
      exact .inr (.inr ⟨_, rfl⟩)

/-- A stopped CPU's step changes nothing (R22, R110). -/
theorem step_of_stopped {s : State} (h : s.running = false) : step s = .next s := by
  simp [step, h]

/-- A stopped CPU's run changes nothing (R116). -/
theorem run_of_stopped {s : State} (n : Nat) (h : s.running = false) : run n s = .next s := by
  cases n with
  | zero => rfl
  | succ n => simp [run, h]

/-- A step with HALT's byte at `pc` leaves the CPU stopped, whether or not it was running (R22, R115). -/
theorem step_running_of_halt {s t : State} (h : step s = .next t) (hb : busRead s s.pc = some 0x02) :
    t.running = false := by
  cases hr : s.running with
  | false =>
    cases (step_of_stopped hr).symm.trans h
    exact hr
  | true =>
    cases (step_of_fetch hr (fetchInstr_eq_halt.mpr hb)).symm.trans h
    rfl

/-! ## The flag across a host action -/

@[simp] theorem hostBusWrite_running (s : State) (a : Word) (v : Nat) :
    (hostBusWrite s a v).running = s.running := by
  unfold hostBusWrite
  split
  · rename_i hw
    exact busWrite_running hw
  · rfl

/-- Everything a host action can do to `running`: a reset sets it, a step and a run do what they do, and every other
action leaves it (R22, R246). -/
theorem hostAct_running_cases {act : HostAction} {s t : State} (h : hostAct act s = .next t) :
    ((∃ p, act = .reset p) ∧ t.running = true) ∨ (act = .step ∧ step s = .next t) ∨
    (∃ n, act = .run n ∧ run n s = .next t) ∨ t.running = s.running := by
  cases act with
  | reset p => cases h; exact .inl ⟨⟨p, rfl⟩, rfl⟩
  | step => exact .inr (.inl ⟨rfl, h⟩)
  | run n => exact .inr (.inr (.inl ⟨n, rfl, h⟩))
  | busWrite a v => cases h; exact .inr (.inr (.inr (hostBusWrite_running s a v)))
  | renderFrame | setState | vblankLatch | frameBoundary | busRead | inspect | stop =>
    cases h; exact .inr (.inr (.inr rfl))

/-- Only a reset makes a stopped CPU run (R22, R240). -/
theorem reset_of_hostAct_starts {act : HostAction} {s t : State} (h : hostAct act s = .next t)
    (hs : s.running = false) (ht : t.running = true) : ∃ p, act = .reset p := by
  have hne : t.running ≠ s.running := by simp [hs, ht]
  rcases hostAct_running_cases h with ⟨hp, -⟩ | ⟨-, h⟩ | ⟨n, -, h⟩ | hk
  · exact hp
  · cases (step_of_stopped hs).symm.trans h
    exact absurd rfl hne
  · cases (run_of_stopped n hs).symm.trans h
    exact absurd rfl hne
  · exact absurd hk hne

/-- Only a step or a run stops a running CPU (R22, R246). -/
theorem step_or_run_of_hostAct_stops {act : HostAction} {s t : State} (h : hostAct act s = .next t)
    (hs : s.running = true) (ht : t.running = false) : act = .step ∨ ∃ n, act = .run n := by
  rcases hostAct_running_cases h with ⟨-, ht'⟩ | ⟨hstep, -⟩ | ⟨n, hrun, -⟩ | hk
  · simp [ht] at ht'
  · exact .inl hstep
  · exact .inr ⟨n, hrun⟩
  · simp [hs, ht] at hk

/-- Settles O46: what a step does comes from `step_running_fault_cases`, what a host action does from
`hostAct_running_cases`. -/
theorem runningFlag : Obligations.RunningFlag := by
  refine ⟨fun _ => step_of_stopped, fun _ _ _ => reset_of_hostAct_starts, fun _ _ _ => step_or_run_of_hostAct_stops,
    ?_, fun _ _ => step_running_of_halt, ?_⟩
  · intro s t hs h ht
    rcases step_running_fault_cases h with ⟨hrun, -⟩ | ⟨hhalt, -⟩ | hfault
    · simp [hs, ht] at hrun
    · exact .inl (fetchInstr_eq_halt.mp hhalt)
    · exact .inr hfault
  · intro s t h hne
    rcases step_running_fault_cases h with ⟨-, hf⟩ | ⟨-, hf⟩ | ⟨f, rfl⟩
    · exact absurd hf hne
    · exact absurd hf hne
    · rfl

end Sys2Proof.Machine
end

section
/-!
PROOFS. The default address map (spec/20_memory.md R56, R57) and the writes of ROM and of the controller hub (R65, R68).
-/
namespace Sys2Proof.Machine

open Sys2Proof.Safety

/-! ## The default map -/

theorem defaultConfig_wf : defaultConfig.wf = true := by decide

/-- The search for a window sees nothing of a configuration but its map (R51). -/
theorem findWindow_of_defaultMap {s : State} (hm : s.cfg.map = defaultMap) (a : Word) :
    findWindow s.cfg a = findWindow defaultConfig a := by
  rw [findWindow, hm]; rfl

/-- A read under the default map is of the window that map finds (R51). -/
theorem busRead_of_defaultMap {s : State} {a : Word} {w : Window} (hm : s.cfg.map = defaultMap)
    (h : findWindow defaultConfig a = some w) : busRead s a = some (readWindow s w a) :=
  busRead_of_window ((findWindow_of_defaultMap hm a).trans h)

/-- Each row of R56's table: its region lies at exactly the `size` addresses from `base`. -/
theorem regionAt_of_defaultMap {s : State} (hm : s.cfg.map = defaultMap) (a : Word) :
    ∀ w ∈ defaultMap, (regionAt s a = some w.region ↔ w.base ≤ a.toNat ∧ a.toNat < w.base + w.size) := by
  intro w hw
  rw [regionAt, findWindow_of_defaultMap hm, findWindow_region_iff defaultConfig_wf hw]
  simp [windowHandles]

theorem busRead_eq_none_iff {s : State} {a : Word} :
    busRead s a = none ↔ ∀ w ∈ s.cfg.map, ¬ (w.base ≤ a.toNat ∧ a.toNat < w.base + w.size) := by
  rw [Option.isSome_eq_isSome.mp (busRead_isSome s a), findWindow, List.find?_eq_none]
  simp [windowHandles]

/-- A write misses exactly where a read does (R51, R52). -/
theorem busWrite_eq_none_iff {s : State} {a : Word} {v : Byte} : busWrite s a v = none ↔ busRead s a = none :=
  Option.isSome_eq_isSome.mp (busWrite_isSome s a v)

/-- R57's two holes are what R56's rows leave over. -/
theorem busRead_eq_none_of_defaultMap {s : State} (hm : s.cfg.map = defaultMap) (a : Word) :
    busRead s a = none ↔
      (0xA824 ≤ a.toNat ∧ a.toNat ≤ 0xAFFF) ∨ (0xB003 ≤ a.toNat ∧ a.toNat ≤ 0xBFFF) := by
  rw [busRead_eq_none_iff, hm]
  simp only [defaultMap, List.forall_mem_cons, List.not_mem_nil, false_implies, implies_true, and_true]
  omega

/-- Settles O48: the holes by `busRead_eq_none_of_defaultMap`, each region by its row of the table. -/
theorem unmappedAddressesOfDefaultMap : Obligations.UnmappedAddressesOfDefaultMap := by
  intro s a v hm
  have hole := busRead_eq_none_of_defaultMap hm a
  have rows := regionAt_of_defaultMap hm a
  simp only [defaultMap, List.forall_mem_cons] at rows
  obtain ⟨rom, ram, tiles, tmap, tattr, oam, pal, ctrl, status, scrollX, scrollY, latched, padCtrl, -⟩ := rows
  exact ⟨hole, busWrite_eq_none_iff.trans hole, rom.trans (by omega), tiles.trans (by omega), tmap.trans (by omega),
    tattr.trans (by omega), oam.trans (by omega), pal.trans (by omega), ctrl.trans (by bv_omega),
    status.trans (by bv_omega), scrollX.trans (by bv_omega), scrollY.trans (by bv_omega), latched.trans (by bv_omega),
    padCtrl.trans (by bv_omega), ram.trans (by omega)⟩

/-! ## Writes of ROM, of the latched pads and of `pad_ctrl` -/

theorem regionAt_eq_some {s : State} {a : Word} {r : Region} (h : regionAt s a = some r) :
    ∃ w, findWindow s.cfg a = some w ∧ w.region = r :=
  Option.map_eq_some_iff.mp h

/-- ROM and the latched pad bytes discard the write (R65, R68). -/
theorem busWrite_of_discarded {s : State} {a : Word} {v : Byte}
    (h : regionAt s a = some .rom ∨ regionAt s a = some .latched) : busWrite s a v = some s := by
  rcases h with h | h <;>
  · obtain ⟨w, hw, hr⟩ := regionAt_eq_some h
    simp only [busWrite_of_window hw, writeWindow, hr]

theorem busWrite_of_padCtrl {s : State} {a : Word} {v : Byte} (h : regionAt s a = some .padCtrl) :
    busWrite s a v = some (writePadCtrl s v) := by
  obtain ⟨w, hw, hr⟩ := regionAt_eq_some h
  simp only [busWrite_of_window hw, writeWindow, hr]

theorem writePadCtrl_of_set (s : State) {v : Byte} (hv : v.getLsbD 0 = true) :
    writePadCtrl s v = { s with padCtrl := v, latched := s.live } := if_pos hv

theorem writePadCtrl_of_clear (s : State) {v : Byte} (hv : v.getLsbD 0 = false) :
    writePadCtrl s v = { s with padCtrl := v } := if_neg (ne_true_of_eq_false hv)

/-- Under the default map the hub's three addresses read as the latched pads and `pad_ctrl` (R56, R68). -/
theorem busRead_hub_of_defaultMap {s : State} (hm : s.cfg.map = defaultMap) :
    busRead s 0xB000 = some s.latched.pad0 ∧ busRead s 0xB001 = some s.latched.pad1 ∧
      busRead s 0xB002 = some s.padCtrl := by
  rw [busRead_of_defaultMap (w := ⟨.latched, 0xB000, 2⟩) hm (by decide),
    busRead_of_defaultMap (w := ⟨.latched, 0xB000, 2⟩) hm (by decide),
    busRead_of_defaultMap (w := ⟨.padCtrl, 0xB002, 1⟩) hm (by decide)]
  simp [readWindow, PadPair.get]

/-- Settles O50: a discarded write, a `pad_ctrl` write with bit 0 set and with it clear, and the hub's reads. -/
theorem padAndRomWrites : Obligations.PadAndRomWrites := by
  refine ⟨fun _ _ _ => busWrite_of_discarded, ?_, ?_, fun _ => busRead_hub_of_defaultMap⟩
  · intro s a v h hv
    rw [busWrite_of_padCtrl h, writePadCtrl_of_set s hv]
  · intro s a v h hv
    rw [busWrite_of_padCtrl h, writePadCtrl_of_clear s hv]

end Sys2Proof.Machine
end

section
/-!
PROOFS. Decoding and stepping at an illegal opcode, at the reserved opcode 0x46 and at `SYS` (spec/30_encoding.md R98,
R99, R100).
-/
namespace Sys2Proof

section Decoding

variable {ε : Type} {get : Nat → Except ε Byte} {op : Byte}

/-- R97's opcodes are all that the map has (R98). -/
theorem opcodeMap_illegal (h : op.toNat ∉ [0x00, 0x01, 0x02, 0x20, 0x21, 0x22, 0x23, 0x24, 0x30, 0x31, 0x32, 0x33,
    0x34, 0x35, 0x40, 0x41, 0x42, 0x43, 0x44, 0x45, 0x46, 0x50, 0x51, 0x52, 0x53, 0x54, 0x60, 0x61, 0x62]) :
    opcodeMap op = .illegal := by
  unfold opcodeMap
  split
  case h_30 => rfl
  all_goals
    rename_i hop
    rw [hop] at h
    exact absurd (by decide) h

/-- No operand byte is asked for after an illegal opcode (R98). -/
theorem decodeFrom_illegal (h0 : get 0 = .ok op) (hop : opcodeMap op = .illegal) :
    decodeFrom get = .error (.illegalOpcode op) := by
  simp only [decodeFrom, h0, hop]

/-- No operand byte is asked for after an opcode of format `Z` (R91). -/
theorem decodeFrom_complete {i : Instr} (h0 : get 0 = .ok op) (hop : opcodeMap op = .complete i) :
    decodeFrom get = .ok i := by
  simp only [decodeFrom, h0, hop]

theorem decodeFrom_service {sub : Byte} {i : Instr} (h0 : get 0 = .ok 0x01) (h1 : get 1 = .ok sub)
    (hsub : serviceMap sub = some i) : decodeFrom get = .ok i := by
  have hop : opcodeMap 0x01 = .service := rfl
  simp only [decodeFrom, h0, hop, h1, hsub]

theorem decodeFrom_service_unknown {sub : Byte} (h0 : get 0 = .ok 0x01) (h1 : get 1 = .ok sub)
    (hsub : serviceMap sub = none) : decodeFrom get = .error (.illegalService 0x01 sub) := by
  have hop : opcodeMap 0x01 = .service := rfl
  simp only [decodeFrom, h0, hop, h1, hsub]

theorem decodeFrom_service_missing {e : ε} (h0 : get 0 = .ok 0x01) (h1 : get 1 = .error e) :
    decodeFrom get = .error (.noOperand 0x01 e) := by
  have hop : opcodeMap 0x01 = .service := rfl
  simp only [decodeFrom, h0, hop, h1]

/-- Only 0x10 and 0x11 are services (R100). -/
theorem serviceMap_eq_none {sub : Byte} (htrace : sub ≠ 0x10) (hputs : sub ≠ 0x11) : serviceMap sub = none := by
  cases h : serviceMap sub with
  | none => rfl
  | some i =>
    rcases serviceMap_some h with ⟨hsub, -⟩ | ⟨hsub, -⟩
    · exact absurd hsub htrace
    · exact absurd hsub hputs

end Decoding

end Sys2Proof

namespace Sys2Proof.Machine

open Sys2Proof.Safety

/-- Settles O5: the byte is outside the map, so decoding ends at the opcode. -/
theorem illegalOpcodeStops : Obligations.IllegalOpcodeStops := by
  intro s op hr hb hop
  exact step_of_reject hr (decodeFrom_illegal (fetchByte_zero_ok.mpr hb) (opcodeMap_illegal hop))

/-- The reserved opcode's meaning is its fault, whatever the state (R147). -/
theorem exec_cmpReserved (s : State) : exec .cmpReserved s =
    .next (stopped s (record s .reservedOpcode 3 (some 0x46) none none none)) := rfl

/-- Settles O6: opcode 0x46 is complete after its one byte, so its step is its meaning, `exec_cmpReserved`. -/
theorem reservedOpcodeStops : Obligations.ReservedOpcodeStops := by
  refine ⟨rfl, exec_cmpReserved, fun s hr hb => ?_⟩
  have hfetch : fetchInstr s = .ok .cmpReserved := decodeFrom_complete (fetchByte_zero_ok.mpr hb) rfl
  exact (step_of_fetch hr hfetch).trans (exec_cmpReserved s)

/-- `SYS` with a known service is that service's instruction (R100). -/
theorem step_of_service {s : State} {sub : Byte} {i : Instr} (hr : s.running = true)
    (hb : busRead s s.pc = some 0x01) (hb1 : busRead s (s.pc + 1) = some sub) (hsub : serviceMap sub = some i) :
    step s = exec i s :=
  step_of_fetch hr (decodeFrom_service (fetchByte_zero_ok.mpr hb) (fetchByte_one_ok.mpr hb1) hsub)

/-- `SYS` has one operand byte, so the only address its operand fetch can miss is `A + 1` (R61, R100). -/
theorem operandFetchFaults_sys : operandFetchFaults 0x01 1 := by
  intro s k hr hb hk hk' _ hmiss
  obtain rfl : k = 1 := Nat.le_antisymm hk' hk
  exact step_of_reject hr (decodeFrom_service_missing (fetchByte_zero_ok.mpr hb) (fetchByte_of_none hmiss))

/-- Settles O7: the two services by `step_of_service`, an unknown one by the service map, a missing service byte by
`operandFetchFaults_sys`. -/
theorem sysServices : Obligations.SysServices := by
  refine ⟨fun s hr hb hb1 => step_of_service hr hb hb1 rfl, fun s hr hb hb1 => step_of_service hr hb hb1 rfl,
    fun s sub hr hb hb1 htrace hputs => ?_, operandFetchFaults_sys⟩
  have hsub : serviceMap sub = none := serviceMap_eq_none htrace hputs
  exact step_of_reject hr (decodeFrom_service_unknown (fetchByte_zero_ok.mpr hb) (fetchByte_one_ok.mpr hb1) hsub)

end Sys2Proof.Machine
end

section
/-!
PROOFS. `NOP`, `TRACE` and `HALT` (spec/40_system.md R111, R113, R115).
-/
namespace Sys2Proof.Machine

open Sys2Proof.Safety

/-- An instruction whose body answers goes on to the state the body gives (R90, R110). -/
theorem exec_of_bodyOf_ok {i : Instr} {s t : State}
    (h : bodyOf i s.pc (s.setPc (s.pc + BitVec.ofNat 16 i.length)) = .ok t) : exec i s = .next t :=
  (exec_eq_perform i s).trans (perform_of_ok h)

/-- Settles O11: NOP's body answers the state it is given, `pc` already past the one byte. -/
theorem nopResult : Obligations.NopResult :=
  ⟨rfl, fun _ => exec_of_bodyOf_ok rfl⟩

/-! ## TRACE -/

/-- TRACE is fetched where its two bytes stand at `pc` (R100, R110). -/
theorem fetchInstr_trace {s : State} (h : bytesAt s [0x01, 0x10]) : fetchInstr s = .ok .trace := by
  have hop : fetchByte s 0 = .ok 0x01 := fetchByte_ok.mpr (h 0 (by decide))
  have hsub : fetchByte s 1 = .ok 0x10 := fetchByte_ok.mpr (h 1 (by decide))
  exact decodeFrom_service hop hsub rfl

theorem hostOutput_of_trace {s : State} (n : Nat) (hr : s.running = true) (h : fetchInstr s = .ok .trace) :
    hostOutput n s = traceOutput n s := by
  simp [hostOutput, hr, h]

/-- The first `n` cells from the top, top last, are the last `n` cells of the stack written as the spec does (R9). -/
theorem traceOutput_eq (n : Nat) (s : State) :
    traceOutput n s = [.trace (s.pc + 2) (s.ds.reverse.drop (s.ds.length - n))] := by
  rw [← List.reverse_take]
  rfl

/-- Settles O12: the state by TRACE's body, what the host sees by `traceOutput_eq`. -/
theorem traceResult : Obligations.TraceResult := by
  refine ⟨rfl, fun _ => exec_of_bodyOf_ok rfl, fun n s hr hb => ?_⟩
  exact (hostOutput_of_trace n hr (fetchInstr_trace hb)).trans (traceOutput_eq n s)

/-! ## HALT -/

theorem exec_halt (s : State) : exec .halt s = .next { s with pc := s.pc + 1, running := false } :=
  exec_of_bodyOf_ok rfl

/-- Settles O14: the state after HALT is stopped, so `step_of_stopped` says its step rests. -/
theorem haltResult : Obligations.HaltResult := by
  refine ⟨rfl, exec_halt, fun s t h => ?_⟩
  cases (exec_halt s).symm.trans h
  exact step_of_stopped rfl

end Sys2Proof.Machine
end

section
/-!
PROOFS. The stack manipulation instructions (spec/41_stack.md R120 to R124): each body is its pops followed by its
pushes, so the laws of those operations say what it does on a long and on a short stack.
-/
namespace Sys2Proof.Machine

open Sys2Proof.Safety

/-! ## What a body that raises does to the machine -/

/-- An instruction whose body raises stops with the record of that raise (R213). -/
theorem exec_of_bodyOf_error {i : Instr} {s : State} {r : Raise}
    (h : bodyOf i s.pc (s.setPc (s.pc + BitVec.ofNat 16 i.length)) = .error r) :
    exec i s = .next (stopped s (record s r.kind r.kind.code (some i.opcode) r.sub? r.addr? r.access?)) :=
  (exec_eq_perform i s).trans (perform_of_error h)

/-- `underflowStops` asks only that the body underflow wherever `n` cells cannot be popped, as `canPop` does not see
`pc`. -/
theorem underflowStops_of_bodyOf {i : Instr} {n : Nat}
    (h : ∀ (a : Word) (t : State), ¬ canPop t n → bodyOf i a t = .error .dsUnderflow) :
    underflowStops i i.opcode n :=
  fun s hs => exec_of_bodyOf_error (r := .dsUnderflow) (h s.pc _ ((canPop_setPc s _ n).not.mpr hs))

/-- An instruction whose body overflows the data stack stops there (R25, R211, R213). -/
theorem exec_of_bodyOf_overflow {i : Instr} {s : State}
    (h : bodyOf i s.pc (s.setPc (s.pc + BitVec.ofNat 16 i.length)) = .error .dsOverflow) :
    exec i s = .next (stopped s (record s .dataStackOverflow 6 (some i.opcode) none none none)) :=
  exec_of_bodyOf_error (r := .dsOverflow) h

/-! ## Pushing back after the pops -/

/-- A full stack holds any number of cells up to its capacity, so they can be popped under either policy. -/
theorem canPop_of_full {s : State} {n : Nat} (h : s.ds.length = dsCap) (hn : n ≤ dsCap) : canPop s n :=
  .inr (h ▸ hn)

/-- Three data cells pushed in order, the third on top. -/
def pushThreeD (s : State) (first second third : Byte) : Except Raise State := do
  let s ← pushD s first
  pushTwoD s second third

theorem pushThreeD_of_room {s : State} (x y z : Byte) (h : s.ds.length + 3 ≤ dsCap) :
    pushThreeD s x y z = .ok (s.setDs (z :: y :: x :: s.ds)) := by
  simp only [pushThreeD, pushD_of_room x (show s.ds.length < dsCap by omega), ok_bind]
  exact pushTwoD_of_room y z (by simp only [State.setDs_ds, List.length_cons]; omega)

theorem pushThreeD_of_full {s : State} (x y z : Byte) (h : dsCap < s.ds.length + 3) :
    pushThreeD s x y z = .error .dsOverflow := by
  by_cases h1 : s.ds.length < dsCap
  · simp only [pushThreeD, pushD_of_room x h1, ok_bind]
    exact pushTwoD_of_full y z (by simp only [State.setDs_ds, List.length_cons]; omega)
  · simp only [pushThreeD, pushD_of_full x (Nat.le_of_not_lt h1), error_bind]

/-- After `n` pops there is room for `m` cells: the stack before had room for the cells it gains (R24, R25). -/
theorem length_drop_room {s : State} {n m : Nat} (hm : m ≤ dsCap) (h : s.ds.length + m ≤ dsCap + n) :
    (s.setDs (s.ds.drop n)).ds.length + m ≤ dsCap := by
  simp only [State.setDs_ds, List.length_drop]
  omega

/-- Fewer cells popped than pushed overflow a full stack. -/
theorem length_drop_full {s : State} {n m : Nat} (h : s.ds.length = dsCap) (hnm : n < m) :
    dsCap < (s.setDs (s.ds.drop n)).ds.length + m := by
  simp only [State.setDs_ds, List.length_drop]
  omega

/-! ## DROP -/

theorem bodyDrop_of_canPop {s : State} (h : canPop s 1) : bodyDrop s = .ok (s.setDs s.ds.tail) := by
  simp only [bodyDrop, popD_of_canPop h, ok_bind]

theorem bodyDrop_of_not_canPop {s : State} (h : ¬ canPop s 1) : bodyDrop s = .error .dsUnderflow := by
  simp only [bodyDrop, popD_of_not_canPop h, error_bind]

/-- Settles O15: DROP's body is one pop. -/
theorem dropResult : Obligations.DropResult :=
  ⟨rfl, fun s hc => exec_of_bodyOf_ok (bodyDrop_of_canPop ((canPop_setPc s _ 1).mpr hc)),
    underflowStops_of_bodyOf fun _ _ => bodyDrop_of_not_canPop⟩

/-! ## DUP -/

theorem bodyDup_of_canPop {s : State} (h : canPop s 1) :
    bodyDup s = pushTwoD (s.setDs (s.ds.drop 1)) (cell s 0) (cell s 0) := by
  simp only [bodyDup, pushTwoD, popD_drop_zero h, ok_bind]

theorem bodyDup_of_not_canPop {s : State} (h : ¬ canPop s 1) : bodyDup s = .error .dsUnderflow := by
  simp only [bodyDup, popD_of_not_canPop h, error_bind]

theorem bodyDup_of_room {s : State} (hc : canPop s 1) (h : s.ds.length < dsCap) :
    bodyDup s = .ok (s.setDs (cell s 0 :: cell s 0 :: s.ds.tail)) := by
  rw [bodyDup_of_canPop hc, pushTwoD_of_room _ _ (length_drop_room (by decide) (by omega)), State.setDs_ds,
    List.drop_one]
  rfl

theorem bodyDup_of_full {s : State} (h : s.ds.length = dsCap) : bodyDup s = .error .dsOverflow := by
  rw [bodyDup_of_canPop (canPop_of_full h (by decide)), pushTwoD_of_full _ _ (length_drop_full h (by decide))]

/-- Settles O16: DUP's body is one pop and two pushes of the popped cell, so a full stack overflows. -/
theorem dupResult : Obligations.DupResult :=
  ⟨rfl, fun s hc h => exec_of_bodyOf_ok (bodyDup_of_room ((canPop_setPc s _ 1).mpr hc) h),
    underflowStops_of_bodyOf fun _ _ => bodyDup_of_not_canPop,
    fun _ h => exec_of_bodyOf_overflow (bodyDup_of_full h)⟩

/-! ## SWAP -/

/-- SWAP pops its operands as a binary operation does, then pushes them the other way round (R122). -/
theorem bodySwap_eq (s : State) : bodySwap s = popPairD s >>= fun (a, b, t) => pushTwoD t b a := by
  simp only [bodySwap, popPairD, pushTwoD, bind_assoc, ok_bind]

theorem bodySwap_of_room {s : State} (hc : canPop s 2) (h : s.ds.length ≤ dsCap) :
    bodySwap s = .ok (s.setDs (cell s 1 :: cell s 0 :: s.ds.drop 2)) := by
  rw [bodySwap_eq, popPairD_of_canPop hc]
  exact pushTwoD_of_room _ _ (length_drop_room (by decide) (by omega))

theorem bodySwap_of_not_canPop {s : State} (h : ¬ canPop s 2) : bodySwap s = .error .dsUnderflow := by
  rw [bodySwap_eq, popPairD_of_not_canPop h, error_bind]

/-- Settles O17: SWAP's body is a pair popped and pushed back, so it never overflows. -/
theorem swapResult : Obligations.SwapResult :=
  ⟨rfl, fun s hc h => exec_of_bodyOf_ok (bodySwap_of_room ((canPop_setPc s _ 2).mpr hc) h),
    underflowStops_of_bodyOf fun _ _ => bodySwap_of_not_canPop⟩

/-! ## OVER -/

/-- OVER pops a pair and pushes it back with the second cell once more on top (R123). -/
theorem bodyOver_eq (s : State) : bodyOver s = popPairD s >>= fun (a, b, t) => pushThreeD t a b a := by
  simp only [bodyOver, popPairD, pushThreeD, pushTwoD, bind_assoc, ok_bind]

theorem bodyOver_of_room {s : State} (hc : canPop s 2) (h : s.ds.length < dsCap) :
    bodyOver s = .ok (s.setDs (cell s 1 :: cell s 0 :: cell s 1 :: s.ds.drop 2)) := by
  rw [bodyOver_eq, popPairD_of_canPop hc]
  exact pushThreeD_of_room _ _ _ (length_drop_room (by decide) (by omega))

theorem bodyOver_of_not_canPop {s : State} (h : ¬ canPop s 2) : bodyOver s = .error .dsUnderflow := by
  rw [bodyOver_eq, popPairD_of_not_canPop h, error_bind]

theorem bodyOver_of_full {s : State} (h : s.ds.length = dsCap) : bodyOver s = .error .dsOverflow := by
  rw [bodyOver_eq, popPairD_of_canPop (canPop_of_full h (by decide))]
  exact pushThreeD_of_full _ _ _ (length_drop_full h (by decide))

/-- Settles O18: OVER's body is two pops and three pushes, so it overflows exactly a full stack. -/
theorem overResult : Obligations.OverResult :=
  ⟨rfl, fun s hc h => exec_of_bodyOf_ok (bodyOver_of_room ((canPop_setPc s _ 2).mpr hc) h),
    underflowStops_of_bodyOf fun _ _ => bodyOver_of_not_canPop,
    fun _ h => exec_of_bodyOf_overflow (bodyOver_of_full h)⟩

/-! ## ROT -/

/-- ROT pops a pair and a third cell, and pushes the third back last (R124). -/
theorem bodyRot_eq (s : State) :
    bodyRot s = popPairD s >>= fun (b, c, t) => popD t >>= fun (a, u) => pushThreeD u b c a := by
  simp only [bodyRot, popPairD, pushThreeD, pushTwoD, bind_assoc, ok_bind]

theorem bodyRot_of_room {s : State} (hc : canPop s 3) (h : s.ds.length ≤ dsCap) :
    bodyRot s = .ok (s.setDs (cell s 2 :: cell s 0 :: cell s 1 :: s.ds.drop 3)) := by
  have hpop := popD_drop (k := 2) hc
  simp only [bodyRot_eq, popPairD_of_canPop (canPop_le hc (by decide : 2 ≤ 3)), ok_bind, hpop]
  exact pushThreeD_of_room _ _ _ (length_drop_room (by decide) (by omega))

/-- A short stack fails ROT at the pair or at the third cell. -/
theorem bodyRot_of_not_canPop {s : State} (h : ¬ canPop s 3) : bodyRot s = .error .dsUnderflow := by
  by_cases h2 : canPop s 2
  · have hpop := popD_drop_error (k := 2) h
    simp only [bodyRot_eq, popPairD_of_canPop h2, ok_bind, hpop, error_bind]
  · simp only [bodyRot_eq, popPairD_of_not_canPop h2, error_bind]

/-- Settles O19: ROT's body is three pops and three pushes, so it never overflows. -/
theorem rotResult : Obligations.RotResult :=
  ⟨rfl, fun s hc h => exec_of_bodyOf_ok (bodyRot_of_room ((canPop_setPc s _ 3).mpr hc) h),
    underflowStops_of_bodyOf fun _ _ => bodyRot_of_not_canPop⟩

end Sys2Proof.Machine
end

section
/-!
PROOFS. The literal and memory instructions (spec/42_literal_memory.md R130 to R135): fetching their operand bytes, the
faults of their bus accesses, and that a 16-bit load undoes a 16-bit store in RAM.
-/
namespace Sys2Proof

section Decoding

variable {ε : Type} {get : Nat → Except ε Byte} {op : Byte} {e : ε}

theorem decodeFrom_byte_missing {mk : Byte → Instr} (h0 : get 0 = .ok op) (hop : opcodeMap op = .byte mk)
    (h1 : get 1 = .error e) : decodeFrom get = .error (.noOperand op e) := by
  simp only [decodeFrom, h0, hop, h1]

theorem decodeFrom_word_low_missing {mk : Word → Instr} (h0 : get 0 = .ok op) (hop : opcodeMap op = .word mk)
    (h1 : get 1 = .error e) : decodeFrom get = .error (.noOperand op e) := by
  simp only [decodeFrom, h0, hop, h1]

theorem decodeFrom_word_high_missing {mk : Word → Instr} {lo : Byte} (h0 : get 0 = .ok op)
    (hop : opcodeMap op = .word mk) (h1 : get 1 = .ok lo) (h2 : get 2 = .error e) :
    decodeFrom get = .error (.noOperand op e) := by
  simp only [decodeFrom, h0, hop, h1, h2]

end Decoding

end Sys2Proof

namespace Sys2Proof.Machine

open Sys2Proof.Safety

/-! ## Operand fetches that miss -/

/-- An opcode of format `I8` or `S8` has one operand byte to miss (R61, R91). -/
theorem operandFetchFaults_of_byte {op : Byte} {mk : Byte → Instr} (hop : opcodeMap op = .byte mk) :
    operandFetchFaults op 1 := by
  intro s k hr hb hk hk' _ hmiss
  obtain rfl : k = 1 := Nat.le_antisymm hk' hk
  exact step_of_reject hr (decodeFrom_byte_missing (fetchByte_zero_ok.mpr hb) hop (fetchByte_of_none hmiss))

/-- An opcode of format `I16` misses at its low byte, or at its high byte once the low one is there (R61, R91). -/
theorem operandFetchFaults_of_word {op : Byte} {mk : Word → Instr} (hop : opcodeMap op = .word mk) :
    operandFetchFaults op 2 := by
  intro s k hr hb hk hk' hlow hmiss
  have hop0 := fetchByte_zero_ok.mpr hb
  obtain rfl | rfl : k = 1 ∨ k = 2 := by omega
  · exact step_of_reject hr (decodeFrom_word_low_missing hop0 hop (fetchByte_of_none hmiss))
  · obtain ⟨lo, hlo⟩ := Option.isSome_iff_exists.mp (hlow 1 le_rfl (by decide))
    exact step_of_reject hr
      (decodeFrom_word_high_missing hop0 hop (fetchByte_ok.mpr hlo) (fetchByte_of_none hmiss))

/-! ## LIT and LIT2 -/

/-- Settles O20: LIT's body is one push of its operand. -/
theorem litResult : Obligations.LitResult :=
  ⟨fun _ => rfl, fun imm _ h => exec_of_bodyOf_ok (pushD_of_room imm h),
    fun imm _ h => exec_of_bodyOf_overflow (i := .lit imm) (pushD_of_full imm h.ge),
    operandFetchFaults_of_byte (mk := .lit) rfl⟩

/-- The low byte stands first in the stream (R93). -/
theorem encode_lit2 (hi lo : Byte) : encode (.lit2 (joinBytes hi lo)) = [0x35, lo, hi] := by
  simp [encode, Instr.opcode, Instr.operandBytes]

theorem exec_lit2_of_room {s : State} (hi lo : Byte) (h : s.ds.length + 2 ≤ dsCap) :
    exec (.lit2 (joinBytes hi lo)) s = .next { s with pc := s.pc + 3, ds := hi :: lo :: s.ds } := by
  refine exec_of_bodyOf_ok ?_
  simp only [bodyOf, loByte_join, hiByte_join]
  exact pushTwoD_of_room lo hi h

/-- Settles O21: LIT2's body is two pushes, of its low byte and then of its high byte. -/
theorem lit2Result : Obligations.Lit2Result :=
  ⟨encode_lit2, fun hi lo _ => exec_lit2_of_room hi lo,
    fun imm _ h => exec_of_bodyOf_overflow (i := .lit2 imm) (pushTwoD_of_full (loByte imm) (hiByte imm) h),
    operandFetchFaults_of_word (mk := .lit2) rfl⟩

/-! ## Bus accesses that miss, and bus accesses after the pops -/

/-- An instruction whose body misses the bus stops there, with the address and the access (R51, R52, R211). -/
theorem exec_of_bodyOf_unmapped {i : Instr} {s : State} {a : Word} {x : Access}
    (h : bodyOf i s.pc (s.setPc (s.pc + BitVec.ofNat 16 i.length)) = .error (.unmapped a x)) :
    exec i s = .next (stopped s (record s .unmappedAddress 1 (some i.opcode) none (some a) (some x))) :=
  exec_of_bodyOf_error (r := .unmapped a x) h

/-- An operand pair popped after `k` pops (R24, R96). -/
theorem popPairD_drop {s : State} {k : Nat} (h : canPop s (k + 2)) :
    popPairD (s.setDs (s.ds.drop k)) = .ok (cell s (k + 1), cell s k, s.setDs (s.ds.drop (k + 2))) := by
  simp only [popPairD, popD_drop (canPop_le h (Nat.le_succ (k + 1))), ok_bind, popD_drop (k := k + 1) h]

/-- A short stack fails the pair at its first or at its second cell (R24). -/
theorem popPairD_drop_error {s : State} {k : Nat} (h : ¬ canPop s (k + 2)) :
    popPairD (s.setDs (s.ds.drop k)) = .error .dsUnderflow := by
  by_cases h1 : canPop s (k + 1)
  · simp only [popPairD, popD_drop h1, ok_bind, popD_drop_error (k := k + 1) h, error_bind]
  · simp only [popPairD, popD_drop_error h1, error_bind]

/-- The bus write of a body that has popped its operands is the bus write of the state before the step (R55). -/
theorem busWrite_setPc_setDs (s : State) (pc : Word) (ds : List Byte) (a : Word) (v : Byte) :
    busWrite ((s.setPc pc).setDs ds) a v = (busWrite s a v).map fun t => (t.setPc pc).setDs ds := by
  rw [busWrite_setDs, busWrite_setPc, Option.map_map]
  rfl

/-! ## LD8 -/

theorem bodyLd8_of_canPop {s : State} (h : canPop s 2) :
    bodyLd8 s = memRead s (topAddr s) .read >>= pushD (s.setDs (s.ds.drop 2)) := by
  simp only [bodyLd8, popWordD_of_canPop h, ok_bind, memRead_setDs]

theorem bodyLd8_of_not_canPop {s : State} (h : ¬ canPop s 2) : bodyLd8 s = .error .dsUnderflow := by
  simp only [bodyLd8, popWordD_of_not_canPop h, error_bind]

theorem bodyLd8_of_some {s : State} {v : Byte} (hc : canPop s 2) (h : s.ds.length ≤ dsCap)
    (hv : busRead s (topAddr s) = some v) : bodyLd8 s = .ok (s.setDs (v :: s.ds.drop 2)) := by
  rw [bodyLd8_of_canPop hc, memRead_of_some .read hv]
  exact pushD_of_room v (length_drop_room (n := 2) (m := 1) (by decide) (by omega))

theorem bodyLd8_of_none {s : State} (hc : canPop s 2) (h : busRead s (topAddr s) = none) :
    bodyLd8 s = .error (.unmapped (topAddr s) .read) := by
  rw [bodyLd8_of_canPop hc, memRead_of_none .read h, error_bind]

/-- Settles O22: LD8's body is an address popped, one bus read and one push. -/
theorem ld8Result : Obligations.Ld8Result :=
  ⟨rfl, fun s _ hc h hv => exec_of_bodyOf_ok (bodyLd8_of_some ((canPop_setPc s _ 2).mpr hc) h hv),
    underflowStops_of_bodyOf fun _ _ => bodyLd8_of_not_canPop,
    fun s hc h => exec_of_bodyOf_unmapped (bodyLd8_of_none ((canPop_setPc s _ 2).mpr hc) h)⟩

/-! ## LD16 -/

theorem memRead16_of_some {s : State} {a : Word} {lo hi : Byte} (hlo : busRead s a = some lo)
    (hhi : busRead s (a + 1) = some hi) : memRead16 s a = .ok (lo, hi) := by
  simp only [memRead16, nextAddr, memRead_of_some .read hlo, memRead_of_some .read hhi, ok_bind]

theorem memRead16_of_low_none {s : State} {a : Word} (h : busRead s a = none) :
    memRead16 s a = .error (.unmapped a .read) := by
  simp only [memRead16, memRead_of_none .read h, error_bind]

theorem memRead16_of_high_none {s : State} {a : Word} {lo : Byte} (hlo : busRead s a = some lo)
    (h : busRead s (a + 1) = none) : memRead16 s a = .error (.unmapped (a + 1) .read) := by
  simp only [memRead16, nextAddr, memRead_of_some .read hlo, memRead_of_none .read h, ok_bind, error_bind]

theorem bodyLd16_of_canPop {s : State} (h : canPop s 2) :
    bodyLd16 s = memRead16 s (topAddr s) >>= fun (lo, hi) => pushTwoD (s.setDs (s.ds.drop 2)) lo hi := by
  simp only [bodyLd16, memRead16, popWordD_of_canPop h, ok_bind, memRead_setDs]

theorem bodyLd16_of_not_canPop {s : State} (h : ¬ canPop s 2) : bodyLd16 s = .error .dsUnderflow := by
  simp only [bodyLd16, popWordD_of_not_canPop h, error_bind]

theorem bodyLd16_of_some {s : State} {lo hi : Byte} (hc : canPop s 2) (h : s.ds.length ≤ dsCap)
    (hlo : busRead s (topAddr s) = some lo) (hhi : busRead s (topAddr s + 1) = some hi) :
    bodyLd16 s = .ok (s.setDs (hi :: lo :: s.ds.drop 2)) := by
  rw [bodyLd16_of_canPop hc, memRead16_of_some hlo hhi]
  exact pushTwoD_of_room lo hi (length_drop_room (by decide) (by omega))

/-- A load that faults is a fault of LD16 at the same address. -/
theorem bodyLd16_of_memRead16_error {s : State} {r : Raise} (hc : canPop s 2)
    (h : memRead16 s (topAddr s) = .error r) : bodyLd16 s = .error r := by
  rw [bodyLd16_of_canPop hc, h, error_bind]

theorem exec_ld16_of_some {s : State} {lo hi : Byte} (hc : canPop s 2) (h : s.ds.length ≤ dsCap)
    (hlo : busRead s (topAddr s) = some lo) (hhi : busRead s (topAddr s + 1) = some hi) :
    exec .ld16 s = .next { s with pc := s.pc + 1, ds := hi :: lo :: s.ds.drop 2 } :=
  exec_of_bodyOf_ok (bodyLd16_of_some ((canPop_setPc s _ 2).mpr hc) h hlo hhi)

/-- Settles O24: LD16's body is an address popped, two bus reads in order and two pushes. -/
theorem ld16Result : Obligations.Ld16Result :=
  ⟨rfl, fun _ _ _ => exec_ld16_of_some,
    underflowStops_of_bodyOf fun _ _ => bodyLd16_of_not_canPop,
    fun s hc h => exec_of_bodyOf_unmapped
      (bodyLd16_of_memRead16_error ((canPop_setPc s _ 2).mpr hc) (memRead16_of_low_none h)),
    fun s _ hc hlo h => exec_of_bodyOf_unmapped
      (bodyLd16_of_memRead16_error ((canPop_setPc s _ 2).mpr hc) (memRead16_of_high_none hlo h))⟩

/-! ## ST8 -/

theorem bodySt8_of_canPop {s : State} (h : canPop s 3) :
    bodySt8 s = memWrite (s.setDs (s.ds.drop 3)) (topAddr s) (cell s 2) := by
  have hpop := popD_drop (k := 2) h
  simp only [bodySt8, popWordD_of_canPop (canPop_le h (by decide : 2 ≤ 3)), ok_bind, hpop]

/-- A short stack fails ST8 at the address or at the value. -/
theorem bodySt8_of_not_canPop {s : State} (h : ¬ canPop s 3) : bodySt8 s = .error .dsUnderflow := by
  by_cases h2 : canPop s 2
  · have hpop := popD_drop_error (k := 2) h
    simp only [bodySt8, popWordD_of_canPop h2, ok_bind, hpop, error_bind]
  · simp only [bodySt8, popWordD_of_not_canPop h2, error_bind]

theorem exec_st8_of_some {s t : State} (hc : canPop s 3) (h : busWrite s (topAddr s) (cell s 2) = some t) :
    exec .st8 s = .next { t with pc := s.pc + 1, ds := s.ds.drop 3 } := by
  refine exec_of_bodyOf_ok ((bodySt8_of_canPop ((canPop_setPc s _ 3).mpr hc)).trans (memWrite_ok.mpr ?_))
  rw [topAddr_setPc, cell_setPc, busWrite_setPc_setDs, h]
  rfl

theorem exec_st8_of_none {s : State} (hc : canPop s 3) (h : busWrite s (topAddr s) (cell s 2) = none) :
    exec .st8 s = .next (stopped s (record s .unmappedAddress 1 (some 0x31) none (some (topAddr s))
      (some .write))) := by
  refine exec_of_bodyOf_unmapped ((bodySt8_of_canPop ((canPop_setPc s _ 3).mpr hc)).trans (memWrite_of_none ?_))
  rw [topAddr_setPc, cell_setPc, busWrite_setPc_setDs, h, Option.map_none]

/-- Settles O23: ST8's body is three pops and one bus write; ROM and the latched pad bytes discard that write, and
`pad_ctrl` latches on it. -/
theorem st8Result : Obligations.St8Result := by
  refine ⟨rfl, fun _ _ => exec_st8_of_some, underflowStops_of_bodyOf fun _ _ => bodySt8_of_not_canPop,
    fun _ => exec_st8_of_none, fun s hc hr => exec_st8_of_some hc (busWrite_of_discarded hr), fun s hc hr hv => ?_⟩
  rw [exec_st8_of_some hc (busWrite_of_padCtrl hr), writePadCtrl_of_set s hv]

/-! ## ST16 -/

/-- ST16 pops an address and then a pair, the high byte above the low byte (R135). -/
theorem bodySt16_eq (s : State) :
    bodySt16 s = popWordD s >>= fun (a, t) => popPairD t >>= fun (lo, hi, u) => memWrite16 u a lo hi := by
  simp only [bodySt16, popPairD, bind_assoc, ok_bind]

theorem bodySt16_of_canPop {s : State} (h : canPop s 4) :
    bodySt16 s = memWrite16 (s.setDs (s.ds.drop 4)) (topAddr s) (cell s 3) (cell s 2) := by
  have hpop := popPairD_drop (k := 2) h
  simp only [bodySt16_eq, popWordD_of_canPop (canPop_le h (by decide : 2 ≤ 4)), ok_bind, hpop]

/-- A short stack fails ST16 at the address or at the pair. -/
theorem bodySt16_of_not_canPop {s : State} (h : ¬ canPop s 4) : bodySt16 s = .error .dsUnderflow := by
  by_cases h2 : canPop s 2
  · have hpop := popPairD_drop_error (k := 2) h
    simp only [bodySt16_eq, popWordD_of_canPop h2, ok_bind, hpop, error_bind]
  · simp only [bodySt16_eq, popWordD_of_not_canPop h2, error_bind]

section
variable {s t u : State} {pc a : Word} {ds : List Byte} {lo hi : Byte}

theorem memWrite16_of_some (hlo : busWrite s a lo = some t) (hhi : busWrite t (a + 1) hi = some u) :
    memWrite16 ((s.setPc pc).setDs ds) a lo hi = .ok ((u.setPc pc).setDs ds) := by
  simp only [memWrite16, memWrite, nextAddr, busWrite_setPc_setDs, hlo, hhi, Option.map_some, ok_bind]

theorem memWrite16_of_low_none (h : busWrite s a lo = none) :
    memWrite16 ((s.setPc pc).setDs ds) a lo hi = .error (.unmapped a .write) := by
  simp only [memWrite16, memWrite, busWrite_setPc_setDs, h, Option.map_none, error_bind]

theorem memWrite16_of_high_none (hlo : busWrite s a lo = some t) (h : busWrite t (a + 1) hi = none) :
    memWrite16 ((s.setPc pc).setDs ds) a lo hi = .error (.unmapped (a + 1) .write) := by
  simp only [memWrite16, memWrite, nextAddr, busWrite_setPc_setDs, hlo, h, Option.map_some, Option.map_none, ok_bind]

theorem exec_st16_of_some (hc : canPop s 4) (hlo : busWrite s (topAddr s) (cell s 3) = some t)
    (hhi : busWrite t (topAddr s + 1) (cell s 2) = some u) :
    exec .st16 s = .next { u with pc := s.pc + 1, ds := s.ds.drop 4 } :=
  exec_of_bodyOf_ok ((bodySt16_of_canPop ((canPop_setPc s _ 4).mpr hc)).trans (memWrite16_of_some hlo hhi))

/-- A store that faults is a fault of ST16 at the same address, taken from the state before the step (R213). -/
theorem exec_st16_of_unmapped (hc : canPop s 4)
    (h : memWrite16 ((s.setPc (s.pc + 1)).setDs (s.ds.drop 4)) (topAddr s) (cell s 3) (cell s 2) =
      .error (.unmapped a .write)) :
    exec .st16 s = .next (stopped s (record s .unmappedAddress 1 (some 0x33) none (some a) (some .write))) :=
  exec_of_bodyOf_unmapped ((bodySt16_of_canPop ((canPop_setPc s _ 4).mpr hc)).trans h)

end

/-! ## A 16-bit load after a 16-bit store in RAM (R59, R66) -/

theorem busRead_of_ram {s : State} {a : Word} (h : regionAt s a = some .ram) :
    busRead s a = some (s.mem.read a.toNat) := by
  obtain ⟨w, hw, hr⟩ := regionAt_eq_some h
  simp only [busRead_of_window hw, readWindow, hr]

theorem busWrite_of_ram {s : State} {a : Word} (v : Byte) (h : regionAt s a = some .ram) :
    busWrite s a v = some (s.setMem (s.mem.write a.toNat v)) := by
  obtain ⟨w, hw, hr⟩ := regionAt_eq_some h
  simp only [busWrite_of_window hw, writeWindow, hr]

/-- The two bytes of a 16-bit access are apart, though the second address may wrap to 0x0000 (R62). -/
theorem toNat_ne_toNat_next (a : Word) : a.toNat ≠ (a + 1).toNat := by bv_omega

/-- After the two writes the low byte stands at its address, which the write of the high byte does not touch, and the
high byte after it. -/
theorem busRead_of_ram_writes {s t : State} {a : Word} {lo hi : Byte} (hm : s.mem.wf = true)
    (hr : regionAt s a = some .ram) (hr1 : regionAt s (a + 1) = some .ram) (hcfg : t.cfg = s.cfg)
    (hmem : t.mem = (s.mem.write a.toNat lo).write (a + 1).toNat hi) :
    busRead t a = some lo ∧ busRead t (a + 1) = some hi := by
  have hregion : ∀ b, regionAt t b = regionAt s b := fun b => by rw [regionAt, hcfg, regionAt]
  rw [busRead_of_ram ((hregion a).trans hr), busRead_of_ram ((hregion (a + 1)).trans hr1), hmem]
  constructor
  · rw [Memory.read_write_other _ _ (toNat_ne_toNat_next a), Memory.read_write_same hm]
  · rw [Memory.read_write_same (Memory.write_wf hm _ _)]

/-- A 16-bit store at two RAM addresses. -/
theorem exec_st16_of_ram {s : State} (hc : canPop s 4) (hr : regionAt s (topAddr s) = some .ram)
    (hr1 : regionAt s (topAddr s + 1) = some .ram) :
    exec .st16 s = .next { s with
      pc := s.pc + 1
      ds := s.ds.drop 4
      mem := (s.mem.write (topAddr s).toNat (cell s 3)).write (topAddr s + 1).toNat (cell s 2) } :=
  exec_st16_of_some hc (busWrite_of_ram (cell s 3) hr) (busWrite_of_ram (cell s 2) hr1)

/-- The address pushed again, the load reads what `busRead_of_ram_writes` says the store left. -/
theorem exec_ld16_after_st16 {s t : State} (hm : s.mem.wf = true) (h4 : 4 ≤ s.ds.length) (hcap : s.ds.length ≤ dsCap)
    (hr : regionAt s (topAddr s) = some .ram) (hr1 : regionAt s (topAddr s + 1) = some .ram)
    (h : exec .st16 s = .next t) :
    exec .ld16 { t with ds := cell s 0 :: cell s 1 :: t.ds } =
      .next { t with pc := t.pc + 1, ds := cell s 2 :: cell s 3 :: t.ds } := by
  have ht := (exec_st16_of_ram (.inr h4) hr hr1).symm.trans h
  obtain ⟨hlo, hhi⟩ : busRead t (topAddr s) = some (cell s 3) ∧ busRead t (topAddr s + 1) = some (cell s 2) := by
    cases ht
    exact busRead_of_ram_writes hm hr hr1 rfl rfl
  cases ht
  have hroom : (cell s 0 :: cell s 1 :: s.ds.drop 4).length ≤ dsCap := by
    simp only [List.length_cons, List.length_drop]
    omega
  exact exec_ld16_of_some (.inr (Nat.le_add_left _ _)) hroom hlo hhi

/-- Settles O25: ST16's body is four pops and two bus writes in order, a fault of either replaces the whole effect, and
the round trip in RAM is `exec_ld16_after_st16`. -/
theorem st16Result : Obligations.St16Result :=
  ⟨rfl, fun _ _ _ => exec_st16_of_some, underflowStops_of_bodyOf fun _ _ => bodySt16_of_not_canPop,
    fun _ hc h => exec_st16_of_unmapped hc (memWrite16_of_low_none h),
    fun _ _ hc hlo h => exec_st16_of_unmapped hc (memWrite16_of_high_none hlo h),
    fun _ _ => exec_ld16_after_st16⟩

end Sys2Proof.Machine
end

section
/-!
PROOFS. The ALU instructions (spec/43_alu.md R140 to R146): the five binary operations differ only in the function they
apply to the pair popped, so what they do and where they underflow is said once for any such function.
-/
namespace Sys2Proof.Machine

open Sys2Proof.Safety

/-! ## Binary operations -/

/-- One result pushed after at least one pop never overflows (R24, R25). -/
theorem pushD_drop {s : State} {n : Nat} (v : Byte) (hn : 1 ≤ n) (h : s.ds.length ≤ dsCap) :
    pushD (s.setDs (s.ds.drop n)) v = .ok (s.setDs (v :: s.ds.drop n)) :=
  pushD_of_room v (length_drop_room (m := 1) (by decide) (by omega))

theorem bodyBinary_of_canPop {s : State} (f : Byte → Byte → Byte) (hc : canPop s 2) (h : s.ds.length ≤ dsCap) :
    bodyBinary f s = .ok (s.setDs (f (cell s 1) (cell s 0) :: s.ds.drop 2)) := by
  simp only [bodyBinary, popPairD_of_canPop hc, ok_bind]
  exact pushD_drop _ (by decide) h

theorem bodyBinary_of_not_canPop {s : State} (f : Byte → Byte → Byte) (h : ¬ canPop s 2) :
    bodyBinary f s = .error .dsUnderflow := by
  simp only [bodyBinary, popPairD_of_not_canPop h, error_bind]

/-- A one-byte instruction whose body is `Binary(f)` puts `f` of the two top cells in their place (R140). -/
theorem binaryResult_of_bodyOf {i : Instr} {f : Byte → Byte → Byte} (hlen : i.length = 1)
    (hbody : ∀ a, bodyOf i a = bodyBinary f) : binaryResult i f := by
  intro s hc h
  refine exec_of_bodyOf_ok ?_
  rw [hbody, hlen]
  exact bodyBinary_of_canPop f ((canPop_setPc s _ 2).mpr hc) h

/-- An instruction whose body is `Binary(f)` underflows where two cells cannot be popped (R140). -/
theorem underflowStops_of_bodyBinary {i : Instr} {f : Byte → Byte → Byte}
    (hbody : ∀ a, bodyOf i a = bodyBinary f) : underflowStops i i.opcode 2 :=
  underflowStops_of_bodyOf fun a t h => (congrFun (hbody a) t).trans (bodyBinary_of_not_canPop f h)

/-- The difference of two bytes is the integer difference of their values, modulo 256 (R140, R142). -/
theorem byte_sub_eq_ofInt (a b : Byte) : a - b = BitVec.ofInt 8 ((a.toNat : Int) - b.toNat) := by bv_omega

theorem binaryResult_add : binaryResult .add (fun a b => BitVec.ofNat 8 (a.toNat + b.toNat)) :=
  binaryResult_of_bodyOf rfl fun _ => congrArg bodyBinary (funext₂ BitVec.add_def)

theorem binaryResult_sub : binaryResult .sub (fun a b => BitVec.ofInt 8 ((a.toNat : Int) - b.toNat)) :=
  binaryResult_of_bodyOf rfl fun _ => congrArg bodyBinary (funext₂ byte_sub_eq_ofInt)

/-- Settles O26: each body is `Binary` of its function, and the functions of ADD and SUB are the arithmetic of the
values modulo 256. -/
theorem binaryAluResults : Obligations.BinaryAluResults :=
  ⟨⟨rfl, rfl, rfl, rfl, rfl⟩,
    binaryResult_add,
    binaryResult_sub,
    binaryResult_of_bodyOf rfl fun _ => rfl,
    binaryResult_of_bodyOf rfl fun _ => rfl,
    binaryResult_of_bodyOf rfl fun _ => rfl,
    underflowStops_of_bodyBinary fun _ => rfl,
    underflowStops_of_bodyBinary fun _ => rfl,
    underflowStops_of_bodyBinary fun _ => rfl,
    underflowStops_of_bodyBinary fun _ => rfl,
    underflowStops_of_bodyBinary fun _ => rfl⟩

/-! ## NOT -/

/-- The complement of a byte is `0xFF` minus it (R146). -/
theorem byte_not_eq_sub (a : Byte) : ~~~a = 0xFF - a := (BitVec.allOnes_sub_eq_not a).symm

theorem bodyNot_of_canPop {s : State} (hc : canPop s 1) (h : s.ds.length ≤ dsCap) :
    bodyNot s = .ok (s.setDs ((0xFF - cell s 0) :: s.ds.tail)) := by
  simp only [bodyNot, popD_drop_zero hc, ok_bind, byte_not_eq_sub, ← List.drop_one]
  exact pushD_drop _ (by decide) h

theorem bodyNot_of_not_canPop {s : State} (h : ¬ canPop s 1) : bodyNot s = .error .dsUnderflow := by
  simp only [bodyNot, popD_of_not_canPop h, error_bind]

/-- Settles O27: NOT's body is one pop and one push of the complement, so it never overflows. -/
theorem notResult : Obligations.NotResult :=
  ⟨rfl, fun s hc h => exec_of_bodyOf_ok (bodyNot_of_canPop ((canPop_setPc s _ 1).mpr hc) h),
    underflowStops_of_bodyOf fun _ _ => bodyNot_of_not_canPop⟩

end Sys2Proof.Machine
end

section
/-!
PROOFS. JMP, CALL, RET and RETZ (spec/44_control.md R150 to R153): what the return stack holds decides each body, and a
return takes back from it the two halves of the address a call put there.
-/
namespace Sys2Proof.Machine

open Sys2Proof.Safety

/-! ## JMP -/

/-- An instruction of format `I16` is its opcode, then the low byte of its operand, then the high byte (R91, R93). -/
theorem encode_of_word {op : Byte} {mk : Word → Instr} (hop : opcodeMap op = .word mk) (hi lo : Byte) :
    encode (mk (joinBytes hi lo)) = [op, lo, hi] := by
  obtain ⟨rfl, rfl⟩ | ⟨rfl, rfl⟩ | ⟨rfl, rfl⟩ := opcodeMap_word hop <;>
    simp [encode, Instr.opcode, Instr.operandBytes]

/-- Settles O28: JMP's body puts its operand in place of the `pc` after its bytes. -/
theorem jmpResult : Obligations.JmpResult :=
  ⟨encode_of_word (mk := .jmp) rfl, fun _ _ => exec_of_bodyOf_ok rfl, operandFetchFaults_of_word (mk := .jmp) rfl⟩

/-! ## CALL -/

theorem bodyCall_of_room {s : State} (target : Word) (h : s.rs.length + 2 ≤ rsCap) :
    bodyCall target s = .ok ((s.setRs (loByte s.pc :: hiByte s.pc :: s.rs)).setPc target) := by
  simp only [bodyCall, pushWordR_of_room s.pc h, ok_bind]

theorem bodyCall_of_full {s : State} (target : Word) (h : rsCap < s.rs.length + 2) :
    bodyCall target s = .error .rsOverflow := by
  simp only [bodyCall, pushWordR_of_full s.pc h, error_bind]

/-- CALL leaves the two halves of `A + 3` on the return stack, the low one on top (R29, R151). -/
theorem exec_call_of_room {s : State} (target : Word) (h : s.rs.length + 2 ≤ rsCap) :
    exec (.call target) s =
      .next { s with pc := target, rs := loByte (s.pc + 3) :: hiByte (s.pc + 3) :: s.rs } :=
  exec_of_bodyOf_ok (bodyCall_of_room (s := s.setPc (s.pc + 3)) target h)

/-- Settles O29: the cells CALL pushes are the halves of `A + 3`, however that address is written as two bytes. -/
theorem callResult : Obligations.CallResult := by
  refine ⟨encode_of_word (mk := .call) rfl, fun target rhi rlo s hroom hret => ?_,
    fun target _ h => exec_of_bodyOf_error (r := .rsOverflow) (bodyCall_of_full target h),
    operandFetchFaults_of_word (mk := .call) rfl⟩
  have hjoin : s.pc + 3 = joinBytes rhi rlo := hret.symm
  rw [exec_call_of_room target hroom, hjoin, loByte_join, hiByte_join]

/-! ## RET -/

theorem bodyRet_of_two {s : State} {lo hi : Byte} {rest : List Byte} (h : s.rs = lo :: hi :: rest) :
    bodyRet s = .ok ((s.setRs rest).setPc (joinBytes hi lo)) := by
  simp only [bodyRet, popWordR_of_two h, ok_bind]

theorem bodyRet_of_short {s : State} (h : s.rs.length < 2) : bodyRet s = .error .rsUnderflow := by
  simp only [bodyRet, popWordR_of_short h, error_bind]

theorem exec_ret_of_two {s : State} {lo hi : Byte} {rest : List Byte} (h : s.rs = lo :: hi :: rest) :
    exec .ret s = .next { s with pc := joinBytes hi lo, rs := rest } :=
  exec_of_bodyOf_ok (bodyRet_of_two h)

/-- Settles O30: RET joins the two cells it pops, so after a CALL it joins the halves of `A + 3`. -/
theorem retResult : Obligations.RetResult := by
  refine ⟨rfl, fun _ _ _ _ => exec_ret_of_two,
    fun _ h => exec_of_bodyOf_error (r := .rsUnderflow) (bodyRet_of_short h), fun s target hroom => ?_⟩
  refine ⟨_, exec_call_of_room target hroom, rfl, ?_⟩
  rw [exec_ret_of_two rfl, joinBytes_split]

/-! ## RETZ -/

theorem bodyRetz_of_zero {s : State} (hc : canPop s 1) (h : cell s 0 = 0) :
    bodyRetz s = bodyRet (s.setDs s.ds.tail) := by
  simp only [bodyRetz, popD_of_canPop hc, ok_bind, if_pos h]

theorem bodyRetz_of_nonzero {s : State} (hc : canPop s 1) (h : cell s 0 ≠ 0) :
    bodyRetz s = .ok (s.setDs s.ds.tail) := by
  simp only [bodyRetz, popD_of_canPop hc, ok_bind, if_neg h]

theorem bodyRetz_of_not_canPop {s : State} (h : ¬ canPop s 1) : bodyRetz s = .error .dsUnderflow := by
  simp only [bodyRetz, popD_of_not_canPop h, error_bind]

theorem exec_retz_of_two {s : State} {lo hi : Byte} {rest : List Byte} (hc : canPop s 1) (h : cell s 0 = 0)
    (hrs : s.rs = lo :: hi :: rest) :
    exec .retz s = .next { s with pc := joinBytes hi lo, ds := s.ds.tail, rs := rest } :=
  exec_of_bodyOf_ok ((bodyRetz_of_zero ((canPop_setPc s (s.pc + 1) 1).mpr hc) h).trans (bodyRet_of_two hrs))

theorem exec_retz_of_nonzero {s : State} (hc : canPop s 1) (h : cell s 0 ≠ 0) :
    exec .retz s = .next { s with pc := s.pc + 1, ds := s.ds.tail } :=
  exec_of_bodyOf_ok (bodyRetz_of_nonzero ((canPop_setPc s _ 1).mpr hc) h)

/-- The fault of the return is taken from the state before the step, so the byte popped is back (R213). -/
theorem exec_retz_of_short {s : State} (hc : canPop s 1) (h : cell s 0 = 0) (hrs : s.rs.length < 2) :
    exec .retz s = .next (stopped s (record s .returnStackUnderflow 4 (some 0x53) none none none)) :=
  exec_of_bodyOf_error (r := .rsUnderflow)
    ((bodyRetz_of_zero ((canPop_setPc s (s.pc + 1) 1).mpr hc) h).trans (bodyRet_of_short hrs))

/-- Settles O31: on a zero byte RETZ's body is RET's after one pop, and on any other byte it is that pop alone. -/
theorem retzResult : Obligations.RetzResult :=
  ⟨rfl, fun _ _ _ _ => exec_retz_of_two, fun _ => exec_retz_of_nonzero, fun _ => exec_retz_of_short,
    underflowStops_of_bodyOf fun _ _ => bodyRetz_of_not_canPop⟩

end Sys2Proof.Machine
end

section
/-!
PROOFS. TOR and FROMR (spec/45_io_timing.md R160, R161): each body is a pop of one stack followed by a push on the
other, so the pop's fault comes first and the other stack's length decides the rest.
-/
namespace Sys2Proof.Machine

open Sys2Proof.Safety

/-! ## A pop of the return stack -/

theorem popR_of_cons {s : State} {v : Byte} {rest : List Byte} (h : s.rs = v :: rest) :
    popR s = .ok (v, s.setRs rest) := by
  simp only [popR, h]

theorem popR_of_nil {s : State} (h : s.rs = []) : popR s = .error .rsUnderflow := by
  simp only [popR, h]

/-! ## TOR -/

theorem bodyTor_of_canPop {s : State} (h : canPop s 1) :
    bodyTor s = pushR (s.setDs s.ds.tail) (cell s 0) := by
  simp only [bodyTor, popD_of_canPop h, ok_bind]

theorem bodyTor_of_not_canPop {s : State} (h : ¬ canPop s 1) : bodyTor s = .error .dsUnderflow := by
  simp only [bodyTor, popD_of_not_canPop h, error_bind]

theorem bodyTor_of_room {s : State} (hc : canPop s 1) (h : s.rs.length < rsCap) :
    bodyTor s = .ok ((s.setDs s.ds.tail).setRs (cell s 0 :: s.rs)) :=
  (bodyTor_of_canPop hc).trans (pushR_of_room _ h)

theorem bodyTor_of_full {s : State} (hc : canPop s 1) (h : rsCap ≤ s.rs.length) :
    bodyTor s = .error .rsOverflow :=
  (bodyTor_of_canPop hc).trans (pushR_of_full _ h)

/-- Settles O33: the pop does not see the return stack, whose length then decides between the push and its
overflow. -/
theorem torResult : Obligations.TorResult :=
  ⟨rfl, fun s hc h => exec_of_bodyOf_ok (bodyTor_of_room ((canPop_setPc s _ 1).mpr hc) h),
    underflowStops_of_bodyOf fun _ _ => bodyTor_of_not_canPop,
    fun s hc h => exec_of_bodyOf_error (r := .rsOverflow) (bodyTor_of_full ((canPop_setPc s _ 1).mpr hc) h.ge)⟩

/-! ## FROMR -/

theorem bodyFromr_of_cons {s : State} {v : Byte} {rest : List Byte} (h : s.rs = v :: rest) :
    bodyFromr s = pushD (s.setRs rest) v := by
  simp only [bodyFromr, popR_of_cons h, ok_bind]

theorem bodyFromr_of_nil {s : State} (h : s.rs = []) : bodyFromr s = .error .rsUnderflow := by
  simp only [bodyFromr, popR_of_nil h, error_bind]

theorem bodyFromr_of_room {s : State} {v : Byte} {rest : List Byte} (hrs : s.rs = v :: rest)
    (h : s.ds.length < dsCap) : bodyFromr s = .ok ((s.setRs rest).setDs (v :: s.ds)) :=
  (bodyFromr_of_cons hrs).trans (pushD_of_room v h)

theorem bodyFromr_of_full {s : State} {v : Byte} {rest : List Byte} (hrs : s.rs = v :: rest)
    (h : dsCap ≤ s.ds.length) : bodyFromr s = .error .dsOverflow :=
  (bodyFromr_of_cons hrs).trans (pushD_of_full v h)

/-- Settles O34: the pop of the return stack is made first, so its underflow stops FROMR whatever the data stack
holds (R161). -/
theorem fromrResult : Obligations.FromrResult :=
  ⟨rfl, fun _ _ _ hrs h => exec_of_bodyOf_ok (bodyFromr_of_room hrs h),
    fun _ h => exec_of_bodyOf_error (r := .rsUnderflow) (bodyFromr_of_nil h),
    fun _ _ _ hrs h => exec_of_bodyOf_overflow (bodyFromr_of_full hrs h.ge)⟩

end Sys2Proof.Machine
end

section
/-!
PROOFS. What the rasterizer reads as colours (spec/50_ppu.md R175, R179, R182, R183, R194): palette entries, and the
pixels of tiles and sprites as nibbles of the tile store.
-/
namespace Sys2Proof.Machine

open Sys2Proof.Safety

/-! ## Palette entries -/

/-- A storage window's bytes read the same over the bus and from the region (R33, R66). -/
theorem readWindow_of_storage {s : State} {w : Window} {a : Word} (h : isStorage w.region = true) :
    readWindow s w a = s.mem.read a.toNat := by
  cases hr : w.region <;> simp_all [readWindow, isStorage]

/-- The base of a region sees nothing of a configuration but its map. -/
theorem regionBase_of_defaultMap {s : State} (hm : s.cfg.map = defaultMap) {w : Window} (hw : w ∈ defaultMap) :
    regionBase s.cfg w.region = some w.base := by
  rw [← regionBase_of_mem defaultConfig_wf hw, regionBase, hm]
  rfl

/-- Under the default map, byte `k` of a storage region is what the bus reads `k` bytes into its window (R56, R66). -/
theorem busRead_storage_of_defaultMap {s : State} (hm : s.cfg.map = defaultMap) {w : Window} (hw : w ∈ defaultMap)
    (hs : isStorage w.region = true) {k : Nat} (hk : k < w.size) :
    busRead s (BitVec.ofNat 16 (w.base + k)) = some (vramByte s w.region k) := by
  have hspace : w.base + w.size ≤ 0x10000 := (Config.wf_parts defaultConfig_wf).2.1 w hw
  have ha : (BitVec.ofNat 16 (w.base + k)).toNat = w.base + k := by
    rw [BitVec.toNat_ofNat, Nat.mod_eq_of_lt (by omega)]
  have hin : windowHandles w (BitVec.ofNat 16 (w.base + k)) = true := by
    simp only [windowHandles, ha, Bool.and_eq_true, decide_eq_true_eq]
    omega
  rw [busRead_of_defaultMap hm (findWindow_of_handles defaultConfig_wf hw hin), readWindow_of_storage hs, ha,
    vramByte, regionBase_of_defaultMap hm hw]

theorem busRead_pal_of_defaultMap {s : State} (hm : s.cfg.map = defaultMap) {k : Nat} (hk : k < 0x20) :
    busRead s (BitVec.ofNat 16 (0xA800 + k)) = some (vramByte s .pal k) :=
  busRead_storage_of_defaultMap (w := ⟨.pal, 0xA800, 0x20⟩) hm (by decide) rfl hk

/-- 17 times a nibble fits a byte (R182). -/
@[simp] theorem expandChannel_toNat (c : BitVec 4) : (expandChannel c).toNat = 17 * c.toNat := by
  revert c; decide

/-- Settles O54: the two bus bytes are the entry's palette bytes. -/
theorem paletteChannels : Obligations.PaletteChannels := by
  intro s i lo hi hm hlo hhi
  have hbase : (0xA800 : Word) + BitVec.ofNat 16 (2 * i.toNat) = BitVec.ofNat 16 (0xA800 + 2 * i.toNat) :=
    (BitVec.ofNat_add ..).symm
  have hnext : (0xA801 : Word) + BitVec.ofNat 16 (2 * i.toNat) = BitVec.ofNat 16 (0xA800 + (2 * i.toNat + 1)) := by
    rw [← Nat.add_assoc, Nat.add_right_comm]
    exact (BitVec.ofNat_add ..).symm
  rw [hbase, busRead_pal_of_defaultMap hm (by omega), Option.some.injEq] at hlo
  rw [hnext, busRead_pal_of_defaultMap hm (by omega), Option.some.injEq] at hhi
  simp [palRgb, hlo, hhi]

/-! ## Pixels of tiles and sprites -/

/-- An unflipped column of a tile row is a nibble of byte `c / 2` of the row (R175). -/
theorem tilePixel_toNat_of_no_hflip (s : State) (t : Byte) (r : Nat) {c : Nat} (v : Bool) (hc : c < 8) :
    (tilePixel s t r c false v).toNat = tileNibble s t.toNat r c false v :=
  tilePairs_get s _ hc

/-- The pixel of a tile under both flips is a nibble of the tile store (R175, R183). -/
theorem tilePixel_toNat (s : State) (t : Byte) (r : Nat) {c : Nat} (h v : Bool) (hc : c < 8) :
    (tilePixel s t r c h v).toNat = tileNibble s t.toNat r c h v := by
  cases h with
  | false => exact tilePixel_toNat_of_no_hflip s t r v hc
  | true =>
    rw [tilePixel, tileRow_hflip s t r v hc]
    exact tilePixel_toNat_of_no_hflip s t r v (by omega)

theorem spriteSize_of_small {sp : Sprite} (h : sp.attr.getLsbD 6 = false) : spriteSize sp = 8 :=
  if_neg (ne_true_of_eq_false h)

theorem spriteSize_of_big {sp : Sprite} (h : sp.attr.getLsbD 6 = true) : spriteSize sp = 16 := if_pos h

theorem spritePixel_of_small (s : State) {sp : Sprite} (lx ly : Nat) (h : sp.attr.getLsbD 6 = false) :
    spritePixel s sp lx ly = tilePixel s sp.tile ly lx (sp.attr.getLsbD 4) (sp.attr.getLsbD 5) := by
  simp only [spritePixel, spriteSize_of_small h, if_true]

/-- A flip of the whole image picks the quadrant and the pixel in it, which is then not flipped again (R194). -/
theorem spritePixel_of_big_whole {s : State} {sp : Sprite} (lx ly : Nat) (h : sp.attr.getLsbD 6 = true)
    (hf : s.cfg.spriteFlip = .whole) :
    spritePixel s sp lx ly =
      let fx := if sp.attr.getLsbD 4 = true then 15 - lx else lx
      let fy := if sp.attr.getLsbD 5 = true then 15 - ly else ly
      tilePixel s (quadrantTile s.cfg sp.tile fx fy) (fy % 8) (fx % 8) false false := by
  simp only [spritePixel, spriteSize_of_big h, hf]
  rfl

/-- A flip per tile leaves the quadrants in place (R194). -/
theorem spritePixel_of_big_perTile {s : State} {sp : Sprite} (lx ly : Nat) (h : sp.attr.getLsbD 6 = true)
    (hf : s.cfg.spriteFlip = .perTile) :
    spritePixel s sp lx ly =
      tilePixel s (quadrantTile s.cfg sp.tile lx ly) (ly % 8) (lx % 8) (sp.attr.getLsbD 4) (sp.attr.getLsbD 5) := by
  simp only [spritePixel, spriteSize_of_big h, hf]
  rfl

/-- A pixel of a quadrant's tile, whose number is modulo 256 (R184, R194). -/
theorem quadrantPixel_toNat (s : State) (t : Byte) (fx fy : Nat) (h v : Bool) :
    (tilePixel s (quadrantTile s.cfg t fx fy) (fy % 8) (fx % 8) h v).toNat =
      tileNibble s ((t.toNat + fy / 8 * s.cfg.spriteRowStride + fx / 8) % 256) (fy % 8) (fx % 8) h v := by
  rw [tilePixel_toNat _ _ _ _ _ (Nat.mod_lt _ (by decide)), quadrantTile, BitVec.toNat_ofNat]

/-- Settles O55: the pixel of a sprite is a tile's pixel by its size and flip mode, and a tile's pixel is
`tilePixel_toNat`. -/
theorem tileDecoding : Obligations.TileDecoding := by
  refine ⟨fun s t r c h v _ hc => tilePixel_toNat s t r h v hc, fun _ _ _ => rfl,
    fun sp => ⟨spriteSize_of_small, spriteSize_of_big⟩, ?_, ?_, ?_⟩
  · intro s sp lx ly h hx _
    rw [spritePixel_of_small s lx ly h, tilePixel_toNat s _ _ _ _ hx]
  · intro s sp lx ly h hf _ _
    rw [spritePixel_of_big_whole lx ly h hf]
    exact quadrantPixel_toNat ..
  · intro s sp lx ly h hf _ _
    rw [spritePixel_of_big_perTile lx ly h hf]
    exact quadrantPixel_toNat ..

end Sys2Proof.Machine
end

section
/-!
PROOFS. The frame (spec/50_ppu.md R185, R191 to R201): the sprite pass pixel by pixel, the framebuffer's bytes, and
what `ctrl` turns off.
-/
namespace Sys2Proof.Machine

open Sys2Proof.Safety

/-! ## The sprite pass, pixel by pixel -/

/-- A sprite shows where it is opaque and not behind the mask (R193, R196, R197). -/
theorem spriteShows_iff {s : State} {sp : Sprite} {x y : Nat} :
    spriteShows s sp x y = true ↔
      spriteOpaque s sp x y ∧ (sp.attr.getLsbD 7 || !bgMask s x y) = true := by
  simp only [spriteShows, spriteOpaque, spriteCovers, Bool.and_eq_true, decide_eq_true_eq, and_assoc]

section Drawing

variable (s : State) (sp : Sprite) {fb : List Rgb} {x y : Nat} (hx : x < screenW s.cfg) (hy : y < screenH s.cfg)
  (hl : fb.length = screenW s.cfg * screenH s.cfg)

include hx hy hl

/-- Only one pixel of one row of a sprite can change the frame's pixel (x, y). -/
theorem drawRow_at (ly : Nat) :
    (drawRow s (maskPass s) sp fb ly)[y * screenW s.cfg + x]? =
      if x - sp.x.toNat < spriteSize sp ∧ ly = y - sp.y.toNat ∧ sp.x.toNat ≤ x ∧ sp.y.toNat ≤ y ∧
          spritePixel s sp (x - sp.x.toNat) (y - sp.y.toNat) ≠ 0 ∧ (sp.attr.getLsbD 7 || !bgMask s x y) = true
      then some (palRgb s (spritePixel s sp (x - sp.x.toNat) (y - sp.y.toNat)))
      else fb[y * screenW s.cfg + x]? :=
  (foldl_range_once (P := fun fb => fb.length = screenW s.cfg * screenH s.cfg)
    (obs := fun fb => fb[y * screenW s.cfg + x]?) (fun _ _ h => (drawPixel_length ..).trans h)
    (fun fb lx h => drawPixel_at s sp fb lx ly hx hy h) _ fb hl).2

/-- Drawing the sprite of a slot changes the frame's pixel (x, y) exactly where the sprite shows (R193 to R198). -/
theorem drawSprite_at (slot : Nat) :
    (drawSprite s (maskPass s) fb slot)[y * screenW s.cfg + x]? =
      if spriteShows s (readSprite s slot) x y = true
      then some (palRgb s (spritePixel s (readSprite s slot) (x - (readSprite s slot).x.toNat)
        (y - (readSprite s slot).y.toNat)))
      else fb[y * screenW s.cfg + x]? := by
  generalize hsp : readSprite s slot = sp
  have hrows := (foldl_range_once (P := fun fb => fb.length = screenW s.cfg * screenH s.cfg)
    (obs := fun fb => fb[y * screenW s.cfg + x]?) (fun _ _ h => (drawRow_length ..).trans h)
    (fun fb ly h => (drawRow_at s sp hx hy h ly).trans (if_congr and_left_comm rfl rfl)) (spriteSize sp) fb hl).2
  rw [drawSprite, hsp]
  refine hrows.trans (if_congr ?_ rfl rfl)
  rw [spriteShows_iff, spriteOpaque, spriteCovers]
  constructor
  · rintro ⟨hrow, hcol, hleft, htop, hopaque, hprio⟩
    exact ⟨⟨⟨hleft, by omega, htop, by omega⟩, hopaque⟩, hprio⟩
  · rintro ⟨⟨⟨hleft, hright, htop, hbottom⟩, hopaque⟩, hprio⟩
    exact ⟨by omega, by omega, hleft, htop, hopaque, hprio⟩

/-- Drawing slots one after the other over the whole frame overlays them at each pixel (R191, R198). -/
theorem drawSprites_at {c : Rgb} (slots : List Nat) (hc : fb[y * screenW s.cfg + x]? = some c) :
    (slots.foldl (drawSprite s (maskPass s)) fb)[y * screenW s.cfg + x]? =
      some (slots.foldl (overlaySprite s x y) c) := by
  induction slots generalizing fb c with
  | nil => exact hc
  | cons slot slots ih =>
    refine ih ((drawSprite_length ..).trans hl) ?_
    rw [drawSprite_at s hx hy hl, hc, overlaySprite]
    split <;> rfl

end Drawing

theorem spritePass_length (s : State) (fb : List Rgb) : (spritePass s fb).length = fb.length :=
  foldl_keeps_length (fun _ _ => drawSprite_length ..) _ fb

theorem renderFrame_length (s : State) : (renderFrame s).length = screenW s.cfg * screenH s.cfg := by
  unfold renderFrame
  split
  · exact List.length_replicate
  · split
    · exact backgroundPass_length s
    · rw [spritePass_length, backgroundPass_length]

/-- The frame's pixel at (x, y) is the colour computed for it alone (R185, R195, R201). -/
theorem renderFrame_at (s : State) {x y : Nat} (hx : x < screenW s.cfg) (hy : y < screenH s.cfg) :
    (renderFrame s)[y * screenW s.cfg + x]? = some (pixelAt s x y) := by
  unfold renderFrame pixelAt
  split
  · exact List.getElem?_replicate_of_lt (pos_lt hx hy)
  · split
    · exact backgroundPass_at s hx hy
    · exact drawSprites_at s hx hy (backgroundPass_length s) _ (backgroundPass_at s hx hy)

/-! ## The framebuffer's bytes -/

theorem framebufferBytes_length (fb : List Rgb) : (framebufferBytes fb).length = 3 * fb.length := by
  induction fb with
  | nil => rfl
  | cons q fb ih =>
    have hcons : framebufferBytes (q :: fb) = q.r :: q.g :: q.b :: framebufferBytes fb := rfl
    simp only [hcons, List.length_cons, ih]
    omega

/-- The three bytes of a pixel (R195). -/
theorem framebufferBytes_at {fb : List Rgb} {n : Nat} {p : Rgb} (h : fb[n]? = some p) :
    (framebufferBytes fb)[3 * n]? = some p.r ∧ (framebufferBytes fb)[3 * n + 1]? = some p.g ∧
      (framebufferBytes fb)[3 * n + 2]? = some p.b := by
  induction fb generalizing n with
  | nil => simp at h
  | cons q fb ih =>
    cases n with
    | zero =>
      cases h
      exact ⟨rfl, rfl, rfl⟩
    | succ n => exact ih h

/-- Settles O53: the bytes of `framebufferBytes_at`, at the pixels of `renderFrame_at`. -/
theorem frameSize : Obligations.FrameSize := fun s =>
  ⟨renderFrame_length s, by rw [framebufferBytes_length, renderFrame_length], fun _ _ => framebufferBytes_at,
    fun _ _ hx hy => framebufferBytes_at (renderFrame_at s hx hy)⟩

/-! ## What `ctrl` turns off -/

/-- The state with another `ctrl` and another `HONOR_DISPLAY_CONTROL`. -/
def withDisplayControl (s : State) (v : Byte) (honor : Bool) : State :=
  { s with ctrl := v, cfg := { s.cfg with honorDisplayControl := honor } }

/-- The rasterizer sees `ctrl` and `HONOR_DISPLAY_CONTROL` through R200's three gates only. -/
theorem renderFrame_withDisplayControl {s : State} {v : Byte} {honor : Bool}
    (hdisplay : displayOff (withDisplayControl s v honor) = displayOff s)
    (hsprites : spritesOff (withDisplayControl s v honor) = spritesOff s)
    (hbg : bgOff (withDisplayControl s v honor) = bgOff s) :
    renderFrame (withDisplayControl s v honor) = renderFrame s := by
  have hcolour : bgColour (withDisplayControl s v honor) = bgColour s := by
    funext x y
    rw [bgColour, hbg]
    rfl
  have hback : backgroundPass (withDisplayControl s v honor) = backgroundPass s := by
    rw [backgroundPass, hcolour]
    rfl
  have hmask : maskPass (withDisplayControl s v honor) = maskPass s := by
    have hpixel : bgMask (withDisplayControl s v honor) = bgMask s := by
      funext x y
      rw [bgMask, hbg]
      rfl
    rw [maskPass, hpixel]
    rfl
  have hpass : spritePass (withDisplayControl s v honor) = spritePass s := by
    funext fb
    rw [spritePass, hmask]
    rfl
  rw [renderFrame, hdisplay, hsprites, hback, hpass]
  rfl

/-- With `HONOR_DISPLAY_CONTROL` each gate is a clear bit of `ctrl` (R200). -/
theorem gates_of_honored {s : State} (h : s.cfg.honorDisplayControl = true) :
    displayOff s = !s.ctrl.getLsbD 0 ∧ spritesOff s = !s.ctrl.getLsbD 1 ∧ bgOff s = !s.ctrl.getLsbD 2 := by
  simp only [displayOff, spritesOff, bgOff, h, Bool.true_and, and_self]

/-- Without it nothing is turned off (R200). -/
theorem gates_of_ignored {s : State} (h : s.cfg.honorDisplayControl = false) :
    displayOff s = false ∧ spritesOff s = false ∧ bgOff s = false := by
  simp only [displayOff, spritesOff, bgOff, h, Bool.false_and, and_self]

/-- Without `HONOR_DISPLAY_CONTROL` the frame does not depend on `ctrl` (R200). -/
theorem renderFrame_ctrl_of_ignored {s : State} (v : Byte) (h : s.cfg.honorDisplayControl = false) :
    renderFrame { s with ctrl := v } = renderFrame s := by
  obtain ⟨hd, hs, hb⟩ := gates_of_ignored h
  obtain ⟨hd', hs', hb'⟩ := gates_of_ignored (s := { s with ctrl := v }) h
  exact renderFrame_withDisplayControl (v := v) (honor := s.cfg.honorDisplayControl)
    (hd'.trans hd.symm) (hs'.trans hs.symm) (hb'.trans hb.symm)

/-- Where nothing is turned off the frame is that of the setting false (R200). -/
theorem renderFrame_honor_of_gates_open {s : State} (hd : displayOff s = false) (hs : spritesOff s = false)
    (hb : bgOff s = false) :
    renderFrame s = renderFrame { s with cfg := { s.cfg with honorDisplayControl := false } } := by
  obtain ⟨hd', hs', hb'⟩ :=
    gates_of_ignored (s := { s with cfg := { s.cfg with honorDisplayControl := false } }) rfl
  exact (renderFrame_withDisplayControl (v := s.ctrl) (honor := false)
    (hd'.trans hd.symm) (hs'.trans hs.symm) (hb'.trans hb.symm)).symm

/-! ## A pixel under each gate -/

/-- The highest slot that shows at a pixel gives its colour (R199). -/
theorem foldl_overlay_of_highest_shows {s : State} {x y k n : Nat} (c : Rgb) (hk : k < n)
    (hshows : spriteShows s (readSprite s k) x y = true)
    (habove : ∀ j, k < j → j < n → spriteShows s (readSprite s j) x y = false) :
    (List.range n).foldl (overlaySprite s x y) c =
      palRgb s (spritePixel s (readSprite s k) (x - (readSprite s k).x.toNat) (y - (readSprite s k).y.toNat)) := by
  obtain ⟨m, rfl⟩ := Nat.exists_eq_add_of_le hk
  rw [List.range_add, List.foldl_append, foldl_overlay_of_none_shows]
  · rw [List.range_succ, List.foldl_append, List.foldl_cons, List.foldl_nil, overlaySprite, if_pos hshows]
  · intro j hj
    obtain ⟨i, hi, rfl⟩ := List.mem_map.mp hj
    rw [List.mem_range] at hi
    exact habove _ (by omega) (by omega)

section Pixel

variable {s : State} {x y : Nat}

/-- With the background off no sprite is masked, so each shows where it is opaque (R200). -/
theorem spriteShows_of_bgOff {sp : Sprite} (h : bgOff s = true) :
    spriteShows s sp x y = true ↔ spriteOpaque s sp x y := by
  simp [spriteShows_iff, bgMask, h]

theorem bgColour_of_bgOff (h : bgOff s = true) : bgColour s x y = palRgb s 0 := if_pos h

theorem bgColour_of_bgOn (h : bgOff s = false) : bgColour s x y = palRgb s (bgIndex s x y) :=
  if_neg (ne_true_of_eq_false h)

theorem pixelAt_of_displayOff (h : displayOff s = true) : pixelAt s x y = palRgb s 0 := if_pos h

theorem pixelAt_of_spritesOff (hd : displayOff s = false) (h : spritesOff s = true) :
    pixelAt s x y = bgColour s x y := by
  rw [pixelAt, if_neg (ne_true_of_eq_false hd), if_pos h]

theorem pixelAt_of_spritesOn (hd : displayOff s = false) (h : spritesOff s = false) :
    pixelAt s x y = (List.range 16).foldl (overlaySprite s x y) (bgColour s x y) := by
  rw [pixelAt, if_neg (ne_true_of_eq_false hd), if_neg (ne_true_of_eq_false h)]

/-- The sprites alone decide a pixel where some show (R199). -/
theorem pixelAt_of_highest_shows {k : Nat} (hd : displayOff s = false) (hs : spritesOff s = false) (hk : k < 16)
    (hshows : spriteShows s (readSprite s k) x y = true)
    (habove : ∀ j, k < j → j < 16 → spriteShows s (readSprite s j) x y = false) :
    pixelAt s x y =
      palRgb s (spritePixel s (readSprite s k) (x - (readSprite s k).x.toNat) (y - (readSprite s k).y.toNat)) :=
  (pixelAt_of_spritesOn hd hs).trans (foldl_overlay_of_highest_shows _ hk hshows habove)

theorem pixelAt_of_none_shows (hd : displayOff s = false) (hs : spritesOff s = false)
    (hnone : ∀ k, k < 16 → spriteShows s (readSprite s k) x y = false) : pixelAt s x y = bgColour s x y :=
  (pixelAt_of_spritesOn hd hs).trans
    (foldl_overlay_of_none_shows s x y _ _ fun k hk => hnone k (List.mem_range.mp hk))

end Pixel

/-- Settles O56: each setting of the three bits decides the three gates, and the gates decide the pixel. -/
theorem displayControlGates : Obligations.DisplayControlGates := by
  refine ⟨fun s x y hh hx hy => ?_, fun _ v hh => renderFrame_ctrl_of_ignored v hh⟩
  obtain ⟨hd, hs, hb⟩ := gates_of_honored hh
  simp only [renderFrame_at s hx hy, Option.some.injEq]
  refine ⟨fun h0 => ?_, fun h0 h1 h2 => ?_, fun h0 h1 h2 => ?_, fun h0 h1 h2 => ?_,
    fun h0 h1 h2 k hk hopaque habove => ?_, fun h0 h1 h2 hnone => ?_⟩ <;> rw [h0] at hd
  · exact pixelAt_of_displayOff hd
  all_goals rw [h1] at hs; rw [h2] at hb
  · exact (pixelAt_of_spritesOff hd hs).trans (bgColour_of_bgOff hb)
  · exact (pixelAt_of_spritesOff hd hs).trans (bgColour_of_bgOn hb)
  · exact renderFrame_honor_of_gates_open hd hs hb
  · exact pixelAt_of_highest_shows hd hs hk ((spriteShows_of_bgOff hb).mpr hopaque)
      fun j hj hj' => eq_false_of_ne_true ((spriteShows_of_bgOff hb).not.mpr (habove j hj hj'))
  · exact (pixelAt_of_none_shows hd hs fun k hk =>
      eq_false_of_ne_true ((spriteShows_of_bgOff hb).not.mpr (hnone k hk))).trans (bgColour_of_bgOff hb)

end Sys2Proof.Machine
end

section
/-!
PROOFS. Precise faults (spec/60_exceptions.md R213, R214): a step that does not keep the fault record is a fault taken
from the state before it.
-/
namespace Sys2Proof.Machine

open Sys2Proof.Safety

/-- An instruction leaves the fault record, or takes one fault from the state before the step (R213). -/
theorem exec_keeps_fault_or_takeFault {i : Instr} {s t : State} (h : exec i s = .next t) :
    t.fault = s.fault ∨ ∃ op r, t = takeFault op r s := by
  rcases exec_cases i s with ⟨u, hu, he⟩ | ⟨r, -, he⟩
  · cases he.symm.trans h
    exact .inl (bodyOf_running_fault hu).1
  · cases he.symm.trans h
    exact .inr ⟨_, r, rfl⟩

/-- A step leaves the fault record, or takes one fault from the state before it: the fault of the fetch, of the decode
or of the instruction (R213). -/
theorem step_keeps_fault_or_takeFault {s t : State} (h : step s = .next t) :
    t.fault = s.fault ∨ ∃ op r, t = takeFault op r s := by
  rcases step_cases s with ⟨-, hs⟩ | ⟨-, e, -, hs⟩ | ⟨-, i, -, hs⟩
  · cases hs.symm.trans h
    exact .inl rfl
  · cases hs.symm.trans h
    exact .inr ⟨rejectOpcode e, rejectRaise e, rfl⟩
  · exact exec_keeps_fault_or_takeFault (hs.symm.trans h)

/-- Settles O40: the step took a fault, and `takeFault_eq_stopped` spells out what that leaves. -/
theorem faultsArePrecise : Obligations.FaultsArePrecise := by
  intro s t h hne
  obtain hkept | ⟨op, r, ht⟩ := step_keeps_fault_or_takeFault h
  · exact absurd hkept hne
  · exact ⟨_, ht.trans (takeFault_eq_stopped op r s), rfl, rfl, rfl, rfl⟩

end Sys2Proof.Machine
end

section
/-!
PROOFS. The decoder and the encoder undo each other (spec/30_encoding.md R90, R91, R97, R100, R101): both follow the
four formats of an instruction, which are said once in `HasFormat`.
-/
namespace Sys2Proof

/-! ## The four formats -/

/-- `bs` is `i` in one of R91's formats, with R97's opcode and R100's service byte. -/
inductive HasFormat : Instr → List Byte → Prop
  | complete {op : Byte} {i : Instr} (hop : opcodeMap op = .complete i) : HasFormat i [op]
  | byte {op : Byte} {mk : Byte → Instr} (b : Byte) (hop : opcodeMap op = .byte mk) : HasFormat (mk b) [op, b]
  | word {op : Byte} {mk : Word → Instr} (hi lo : Byte) (hop : opcodeMap op = .word mk) :
      HasFormat (mk (joinBytes hi lo)) [op, lo, hi]
  | service {sub : Byte} {i : Instr} (hsub : serviceMap sub = some i) : HasFormat i [0x01, sub]

/-- An instruction of format `I16` and its two operand bytes, the low byte first (R91, R93). -/
theorem hasFormat_of_word {op : Byte} {mk : Word → Instr} (hop : opcodeMap op = .word mk) (w : Word) :
    HasFormat (mk w) [op, loByte w, hiByte w] := by
  simpa using HasFormat.word (hiByte w) (loByte w) hop

/-- Every instruction is encoded in one of the formats. -/
theorem hasFormat_encode (i : Instr) : HasFormat i (encode i) := by
  cases i with
  | trace => exact .service rfl
  | puts => exact .service rfl
  | lit imm => exact .byte (mk := .lit) imm rfl
  | bra off => exact .byte (mk := .bra) off rfl
  | lit2 imm => exact hasFormat_of_word (mk := .lit2) rfl imm
  | jmp target => exact hasFormat_of_word (mk := .jmp) rfl target
  | call target => exact hasFormat_of_word (mk := .call) rfl target
  | _ => exact .complete rfl

/-- An instruction has no other bytes than its encoding. -/
theorem HasFormat.eq_encode {i : Instr} {bs : List Byte} (h : HasFormat i bs) : bs = encode i := by
  cases h with
  | complete hop => exact (opcodeMap_complete hop).1.symm
  | byte b hop => obtain ⟨rfl, rfl⟩ | ⟨rfl, rfl⟩ := opcodeMap_byte hop <;> rfl
  | word hi lo hop => exact (Machine.encode_of_word hop hi lo).symm
  | service hsub => obtain ⟨rfl, rfl⟩ | ⟨rfl, rfl⟩ := serviceMap_some hsub <;> rfl

theorem encode_length (i : Instr) : (encode i).length = i.length := by
  cases i <;> rfl

/-! ## Decoding asks for exactly the bytes of a format -/

/-- The source of bytes begins with `bs`. -/
def Gives {ε : Type} (get : Nat → Except ε Byte) (bs : List Byte) : Prop :=
  ∀ (k : Nat) (b : Byte), bs[k]? = some b → get k = .ok b

@[simp] theorem gives_nil {ε : Type} (get : Nat → Except ε Byte) : Gives get [] := by
  simp [Gives]

@[simp] theorem gives_cons {ε : Type} {get : Nat → Except ε Byte} {b : Byte} {bs : List Byte} :
    Gives get (b :: bs) ↔ get 0 = .ok b ∧ Gives (fun k => get (k + 1)) bs := by
  constructor
  · exact fun h => ⟨h 0 b rfl, fun k => h (k + 1)⟩
  · rintro ⟨h0, h⟩ k c hc
    cases k with
    | zero => cases hc; exact h0
    | succ k => exact h k c hc

section Decoding

variable {ε : Type} {get : Nat → Except ε Byte} {op : Byte}

theorem decodeFrom_byte {mk : Byte → Instr} {b : Byte} (h0 : get 0 = .ok op) (hop : opcodeMap op = .byte mk)
    (h1 : get 1 = .ok b) : decodeFrom get = .ok (mk b) := by
  simp only [decodeFrom, h0, hop, h1]

theorem decodeFrom_word {mk : Word → Instr} {lo hi : Byte} (h0 : get 0 = .ok op) (hop : opcodeMap op = .word mk)
    (h1 : get 1 = .ok lo) (h2 : get 2 = .ok hi) : decodeFrom get = .ok (mk (joinBytes hi lo)) := by
  simp only [decodeFrom, h0, hop, h1, h2]

theorem decodeFrom_of_hasFormat {i : Instr} {bs : List Byte} (h : HasFormat i bs) (hg : Gives get bs) :
    decodeFrom get = .ok i := by
  cases h with
  | complete hop => exact decodeFrom_complete (hg 0 _ rfl) hop
  | byte b hop => exact decodeFrom_byte (hg 0 _ rfl) hop (hg 1 _ rfl)
  | word hi lo hop => exact decodeFrom_word (hg 0 _ rfl) hop (hg 1 _ rfl) (hg 2 _ rfl)
  | service hsub => exact decodeFrom_service (hg 0 _ rfl) (hg 1 _ rfl) hsub

/-- What decodes begins with bytes of the instruction's format (R90, R98). -/
theorem hasFormat_of_decodeFrom {i : Instr} (h : decodeFrom get = .ok i) : ∃ bs, HasFormat i bs ∧ Gives get bs := by
  unfold decodeFrom at h
  split at h
  case h_1 => cases h
  case h_2 op h0 =>
    split at h
    case h_1 => cases h
    case h_2 i' hop =>
      cases h
      exact ⟨_, .complete hop, by simp [h0]⟩
    case h_3 mk hop =>
      split at h <;> cases h
      rename_i b h1
      exact ⟨_, .byte b hop, by simp [h0, h1]⟩
    case h_4 hop =>
      split at h
      case h_1 => cases h
      case h_2 sub h1 =>
        split at h <;> cases h
        rename_i hsub
        cases opcodeMap_service hop
        exact ⟨_, .service hsub, by simp [h0, h1]⟩
    case h_5 mk hop =>
      split at h
      case h_1 => cases h
      case h_2 lo h1 =>
        split at h <;> cases h
        rename_i hi h2
        exact ⟨_, .word hi lo hop, by simp [h0, h1, h2]⟩

/-- Decoding gives an instruction exactly from a source that begins with its encoding. -/
theorem decodeFrom_eq_ok_iff {i : Instr} : decodeFrom get = .ok i ↔ Gives get (encode i) := by
  constructor
  · intro h
    obtain ⟨bs, hf, hg⟩ := hasFormat_of_decodeFrom h
    exact hf.eq_encode ▸ hg
  · exact decodeFrom_of_hasFormat (hasFormat_encode i)

end Decoding

/-! ## Lists of bytes -/

/-- A list is a source that begins with whatever the list begins with. -/
theorem gives_byteOf {bs cs : List Byte} : Gives (byteOf cs) bs ↔ bs <+: cs := by
  simp only [Gives, byteOf_ok, List.prefix_iff_getElem?]
  constructor
  · exact fun h k hk => h k _ (List.getElem?_eq_getElem hk)
  · intro h k b hb
    obtain ⟨hk, rfl⟩ := List.getElem?_eq_some_iff.mp hb
    exact h k hk

theorem decode_eq_ok_iff {bs rest : List Byte} {i : Instr} :
    decode bs = .ok (i, rest) ↔ decodeFrom (byteOf bs) = .ok i ∧ bs.drop i.length = rest := by
  unfold decode
  cases h : decodeFrom (byteOf bs) with
  | ok j =>
    simp only [Except.ok.injEq, Prod.mk.injEq]
    exact and_congr_right fun hj => by rw [hj]
  | error e => simp

/-- Settles O1: the bytes begin with the encoding, which is what decoding asks for. -/
theorem decodeEncodeRoundTrip : Obligations.DecodeEncodeRoundTrip := by
  intro i rest
  refine decode_eq_ok_iff.mpr ⟨decodeFrom_eq_ok_iff.mpr (gives_byteOf.mpr (List.prefix_append _ _)), ?_⟩
  exact List.drop_left' (encode_length i)

/-- Settles O2: decoding asks for exactly the encoding, and leaves what is after its length. -/
theorem decodedBytesAreTheEncoding : Obligations.DecodedBytesAreTheEncoding := by
  intro bs i rest h
  obtain ⟨hi, rfl⟩ := decode_eq_ok_iff.mp h
  obtain ⟨tail, rfl⟩ := gives_byteOf.mp (decodeFrom_eq_ok_iff.mp hi)
  rw [List.drop_left' (encode_length i)]

/-- Settles O3: the six words are encodings, which the round trip decodes; the other two end at the opcode map and at
the service map. -/
theorem specWordsDecode : Obligations.SpecWordsDecode :=
  ⟨decodeEncodeRoundTrip .add [], decodeEncodeRoundTrip (.lit 0x05) [], decodeEncodeRoundTrip (.bra 0xFB) [],
    decodeEncodeRoundTrip (.call 0x0010) [], decodeEncodeRoundTrip .trace [], decodeEncodeRoundTrip .puts [], rfl, rfl⟩

end Sys2Proof

namespace Sys2Proof.Machine

open Sys2Proof.Safety

/-! ## Fetching and stepping -/

/-- Bytes at `pc` are what the fetch gets (R61, R91). -/
theorem fetchByte_of_byteOf {s : State} {bs : List Byte} (h : bytesAt s bs) {k : Nat} {b : Byte}
    (hb : byteOf bs k = .ok b) : fetchByte s k = .ok b := by
  obtain ⟨hk, rfl⟩ := List.getElem?_eq_some_iff.mp (byteOf_ok.mp hb)
  exact fetchByte_ok.mpr (h k hk)

/-- The fetch gets every byte the list has, so it decodes what the list does (R110). -/
theorem fetchInstr_of_bytesAt {s : State} {bs rest : List Byte} {i : Instr} (hdec : decode bs = .ok (i, rest))
    (h : bytesAt s bs) : fetchInstr s = .ok i := by
  obtain ⟨hi, -⟩ := decode_eq_ok_iff.mp hdec
  exact decodeFrom_mono hi fun _ _ => fetchByte_of_byteOf h

/-- Settles O9: `fetchInstr_of_bytesAt` and the step of what is fetched. -/
theorem stepRunsDecodedInstruction : Obligations.StepRunsDecodedInstruction :=
  fun _ _ _ _ hr hdec hbytes => step_of_fetch hr (fetchInstr_of_bytesAt hdec hbytes)

theorem decodeFrom_opcode_missing {ε : Type} {get : Nat → Except ε Byte} {e : ε} (h0 : get 0 = .error e) :
    decodeFrom get = .error (.noOpcode e) := by
  simp only [decodeFrom, h0]

/-- The opcode fetch misses: the record has no opcode (R211, R215). -/
theorem step_of_opcode_unmapped {s : State} (hr : s.running = true) (h : busRead s s.pc = none) :
    step s = .next (stopped s (record s .unmappedAddress 1 none none (some s.pc) (some .fetch))) := by
  have h0 : fetchByte s 0 = .error (.unmapped s.pc .fetch) := by
    simpa using fetchByte_of_none (s := s) (k := 0) (by simpa using h)
  exact step_of_reject hr (decodeFrom_opcode_missing h0)

/-- A format's operand bytes are fetched in order, so the first one missing is the fault (R61, R215). -/
theorem operandFetchFaults_of_hasFormat {i : Instr} {op : Byte} {operands : List Byte}
    (h : HasFormat i (op :: operands)) : operandFetchFaults op operands.length := by
  cases h with
  | complete hop => intro s k _ _ hk hk'; exact absurd (hk.trans hk') (by decide)
  | byte b hop => exact operandFetchFaults_of_byte hop
  | word hi lo hop => exact operandFetchFaults_of_word hop
  | service hsub => exact operandFetchFaults_sys

/-- Settles O8: the opcode byte by `step_of_opcode_unmapped`, operand bytes by the instruction's format. -/
theorem fetchFaultsStop : Obligations.FetchFaultsStop := by
  refine ⟨fun s => step_of_opcode_unmapped, fun i => ?_⟩
  have hlen : i.operandBytes.length = i.length - 1 := by rw [← encode_length i]; rfl
  exact hlen ▸ operandFetchFaults_of_hasFormat (hasFormat_encode i)

end Sys2Proof.Machine
end

section
/-!
PROOFS. What every step and every host action keeps (spec/10_state.md sections 2, 3, 5 and 7, spec/60_exceptions.md
section 3, spec/70_reset_and_hazards.md section 3): the invariant, the configuration and the live pads, the ROM. Each
is a relation that the changes of `step_relation` keep, and a run and a schedule keep what a step and an action keep.
-/
namespace Sys2Proof.Machine

open Sys2Proof.Safety

/-! ## A next state in every case -/

theorem exec_next (i : Instr) (s : State) : ∃ t, exec i s = .next t := by
  rcases exec_cases i s with ⟨t, -, h⟩ | ⟨r, -, h⟩
  · exact ⟨t, h⟩
  · exact ⟨_, h⟩

theorem step_next (s : State) : ∃ t, step s = .next t := by
  rcases step_cases s with ⟨-, h⟩ | ⟨-, e, -, h⟩ | ⟨-, i, -, h⟩
  · exact ⟨s, h⟩
  · exact ⟨_, h⟩
  · exact h ▸ exec_next i s

/-- Settles O41: `exec_next` and `step_next`. -/
theorem stepAlwaysAnswersNext : Obligations.StepAlwaysAnswersNext := ⟨exec_next, step_next⟩

/-! ## Runs -/

/-- A run of a running CPU is a step and then the rest of the run (R116). -/
theorem run_succ_of_step {s t : State} (n : Nat) (hr : s.running = true) (h : step s = .next t) :
    run (n + 1) s = run n t := by
  simp [run, hr, h]

/-- A run that comes to `t` goes on from `t`: a stopped CPU stays where it is (R116). -/
theorem run_add {m : Nat} (n : Nat) {s t : State} (h : run m s = .next t) : run (m + n) s = run n t := by
  induction m generalizing s with
  | zero =>
    cases h
    rw [Nat.zero_add]
  | succ m ih =>
    cases hr : s.running with
    | false =>
      cases (run_of_stopped (m + 1) hr).symm.trans h
      rw [run_of_stopped _ hr, run_of_stopped _ hr]
    | true =>
      obtain ⟨u, hu⟩ := step_next s
      rw [run_succ_of_step m hr hu] at h
      rw [Nat.add_right_comm, run_succ_of_step (m + n) hr hu, ih h]

/-- Settles O10: the splitting is `run_add`. -/
theorem runsSplitAndHaltedRunsRest : Obligations.RunsSplitAndHaltedRunsRest :=
  ⟨fun _ => step_of_stopped, fun n _ => run_of_stopped n, fun _ => rfl, fun n _ _ => run_succ_of_step n,
    fun _ n _ _ => run_add n⟩

/-- A relation kept by every step is kept by every run (R116). -/
theorem run_relation {R : State → State → Prop} (hrefl : ∀ s, R s s) (htrans : ∀ s t u, R s t → R t u → R s u)
    (hstep : ∀ s t, step s = .next t → R s t) {n : Nat} {s t : State} (h : run n s = .next t) : R s t := by
  induction n generalizing s with
  | zero =>
    cases h
    exact hrefl _
  | succ n ih =>
    cases hr : s.running with
    | false =>
      cases (run_of_stopped (n + 1) hr).symm.trans h
      exact hrefl _
    | true =>
      obtain ⟨u, hu⟩ := step_next s
      exact htrans _ _ _ (hstep _ _ hu) (ih ((run_succ_of_step n hr hu).symm.trans h))

/-- A relation that holds across a step, a reset, a bus write, and a change of the pads or of `status` holds across
every host action (R246). -/
theorem hostAct_relation {R : State → State → Prop} (hrefl : ∀ s, R s s) (htrans : ∀ s t u, R s t → R t u → R s u)
    (hstep : ∀ s t, step s = .next t → R s t) (hreset : ∀ p s, R s (cpuReset p s))
    (hlive : ∀ s v, R s (s.setLive v)) (hlatched : ∀ s v, R s (s.setLatched v))
    (hstatus : ∀ s v, R s (s.setStatus v)) (hwrite : ∀ s t a v, busWrite s a v = some t → R s t)
    {act : HostAction} {s t : State} (h : hostAct act s = .next t) : R s t := by
  cases act with
  | reset p => cases h; exact hreset p s
  | step => exact hstep _ _ h
  | run n => exact run_relation hrefl htrans hstep h
  | setState pad bitmask => cases h; exact hlive s _
  | vblankLatch => cases h; exact hlatched s _
  | frameBoundary => cases h; exact hstatus s _
  | busWrite a v =>
    cases h
    unfold hostBusWrite
    split
    case h_1 u hu => exact hwrite _ _ _ _ hu
    case h_2 => exact hrefl s
  | renderFrame | busRead | inspect | stop => cases h; exact hrefl _

/-! ## The configuration and the pads -/

theorem CpuOnly.cfg {s t : State} (h : CpuOnly s t) : t.cfg = s.cfg := by
  obtain ⟨_, _, ⟨_, _, rfl, -⟩, rfl⟩ := h; rfl

theorem CpuOnly.mem {s t : State} (h : CpuOnly s t) : t.mem = s.mem := by
  obtain ⟨_, _, ⟨_, _, rfl, -⟩, rfl⟩ := h; rfl

/-- What O42 says of a step. -/
def KeepsConfigAndLivePads (s t : State) : Prop :=
  t.cfg = s.cfg ∧ t.live = s.live ∧ (t.latched = s.latched ∨ t.latched = s.live)

theorem KeepsConfigAndLivePads.refl (s : State) : KeepsConfigAndLivePads s s := ⟨rfl, rfl, .inl rfl⟩

theorem KeepsConfigAndLivePads.trans {s t u : State} (h : KeepsConfigAndLivePads s t)
    (h' : KeepsConfigAndLivePads t u) : KeepsConfigAndLivePads s u := by
  obtain ⟨hcfg, hlive, hlatched⟩ := h
  obtain ⟨hcfg', hlive', hlatched'⟩ := h'
  refine ⟨hcfg'.trans hcfg, hlive'.trans hlive, ?_⟩
  rcases hlatched' with hkept | hnew
  · rw [hkept]; exact hlatched
  · exact .inr (hnew.trans hlive)

theorem CpuOnly.keepsConfigAndLivePads {s t : State} (h : CpuOnly s t) : KeepsConfigAndLivePads s t := by
  obtain ⟨_, _, ⟨_, _, rfl, -⟩, rfl⟩ := h
  exact .refl s

theorem busWrite_keepsConfigAndLivePads {s t : State} {a : Word} {v : Byte} (h : busWrite s a v = some t) :
    KeepsConfigAndLivePads s t :=
  ⟨busWrite_cfg h, busWrite_live h, (busWrite_latched h).imp_right fun ⟨_, _, hl⟩ => hl⟩

/-- Settles O42: a bus write is the only change that reaches a device, and `busWrite_latched` says what it latches. -/
theorem cpuLeavesConfigAndLivePads : Obligations.CpuLeavesConfigAndLivePads := fun _ _ =>
  step_relation .refl (fun _ _ _ => .trans) (fun _ _ => CpuOnly.keepsConfigAndLivePads)
    (fun _ _ _ _ => busWrite_keepsConfigAndLivePads) .refl fun _ _ => .refl

/-! ## ROM -/

/-- The map is the same, and what it gives to ROM reads the same. -/
def KeepsRom (s t : State) : Prop :=
  t.cfg = s.cfg ∧ ∀ a, regionAt s a = some .rom → busRead t a = busRead s a

theorem KeepsRom.refl (s : State) : KeepsRom s s := ⟨rfl, fun _ _ => rfl⟩

theorem KeepsRom.trans {s t u : State} (h : KeepsRom s t) (h' : KeepsRom t u) : KeepsRom s u := by
  obtain ⟨hcfg, hread⟩ := h
  obtain ⟨hcfg', hread'⟩ := h'
  refine ⟨hcfg'.trans hcfg, fun a ha => (hread' a ?_).trans (hread a ha)⟩
  rw [regionAt, hcfg]
  exact ha

/-- A ROM address reads from storage (R65). -/
theorem busRead_of_rom {s : State} {a : Word} (h : regionAt s a = some .rom) :
    busRead s a = some (s.mem.read a.toNat) := by
  obtain ⟨w, hw, hr⟩ := regionAt_eq_some h
  rw [busRead_of_window hw, readWindow_of_storage (by rw [hr]; rfl)]

/-- ROM sees a change of storage only. -/
theorem keepsRom_of_mem {s t : State} (hcfg : t.cfg = s.cfg) (hmem : t.mem = s.mem) : KeepsRom s t := by
  refine ⟨hcfg, fun a ha => ?_⟩
  have ha' : regionAt t a = some .rom := by rw [regionAt, hcfg]; exact ha
  rw [busRead_of_rom ha, busRead_of_rom ha', hmem]

/-- A write of `pad_ctrl` changes that byte and the latched pads only (R68). -/
theorem writePadCtrl_eq (s : State) (v : Byte) : ∃ p, writePadCtrl s v = { s with padCtrl := v, latched := p } := by
  unfold writePadCtrl
  split
  · exact ⟨s.live, rfl⟩
  · exact ⟨s.latched, rfl⟩

/-- Everything a bus write can do to storage: nothing, or one byte of it at an address that is not ROM's (R55, R65). -/
theorem busWrite_mem_cases {s t : State} {a : Word} {v : Byte} (h : busWrite s a v = some t) :
    t.mem = s.mem ∨ ∃ w, findWindow s.cfg a = some w ∧ isStorage w.region = true ∧ w.region ≠ .rom ∧
      t.mem = s.mem.write a.toNat v := by
  obtain ⟨w, hw, rfl⟩ := busWrite_some h
  rcases writeWindow_cases s w a v with ⟨-, h⟩ | ⟨hs, hr, h⟩ | ⟨-, h⟩ | ⟨-, h⟩ | ⟨-, h⟩ | ⟨-, h⟩ | ⟨-, h⟩ <;> rw [h]
  case inr.inl => exact .inr ⟨w, hw, hs, hr, rfl⟩
  case inr.inr.inr.inr.inr.inr =>
    obtain ⟨p, hp⟩ := writePadCtrl_eq s v
    exact .inl (by rw [hp])
  all_goals exact .inl rfl

/-- A bus write to ROM is discarded, and one elsewhere is at another address (R65). -/
theorem busWrite_keepsRom {s t : State} {b : Word} {v : Byte} (h : busWrite s b v = some t) : KeepsRom s t := by
  have hcfg := busWrite_cfg h
  rcases busWrite_mem_cases h with hmem | ⟨w, hw, -, hr, hmem⟩
  · exact keepsRom_of_mem hcfg hmem
  · refine ⟨hcfg, fun a ha => ?_⟩
    have ha' : regionAt t a = some .rom := by rw [regionAt, hcfg]; exact ha
    have hne : a ≠ b := by
      rintro rfl
      rw [regionAt_of_window hw, Option.some.injEq] at ha
      exact hr ha
    rw [busRead_of_rom ha, busRead_of_rom ha', hmem, Memory.read_write_other _ _ (BitVec.toNat_ne.mp hne)]

theorem step_keepsRom {s t : State} : step s = .next t → KeepsRom s t :=
  step_relation .refl (fun _ _ _ => .trans) (fun _ _ h => keepsRom_of_mem h.cfg h.mem)
    (fun _ _ _ _ => busWrite_keepsRom) .refl fun _ _ => .refl

/-- Settles O43: of the changes a host action is made of only a bus write reaches storage, and `busWrite_keepsRom`
says it leaves ROM. -/
theorem romNeverChanges : Obligations.RomNeverChanges := by
  intro act s t a ha h
  have hkeeps : KeepsRom s t :=
    hostAct_relation .refl (fun _ _ _ => .trans) (fun _ _ => step_keepsRom) (fun _ => .refl) (fun s _ => .refl s)
      (fun s _ => keepsRom_of_mem rfl rfl) (fun s _ => keepsRom_of_mem rfl rfl) (fun _ _ _ _ => busWrite_keepsRom) h
  exact hkeeps.2 a ha

end Sys2Proof.Machine

namespace Sys2Proof.Safety

open Sys2Proof.Machine

/-! ## The invariant -/

/-- Settles O36: the reset state's storage and stacks are empty and it has no record. -/
theorem invHoldsAtReset : Obligations.InvHoldsAtReset :=
  ⟨rfl, rfl, Nat.zero_le _, Nat.zero_le _, nofun, nofun⟩

/-- Where `running` and the record are kept, storage and the depths of the stacks remain to be checked. -/
theorem GoodState.of_mem {s t : State} (h : GoodState s) (hwf : t.mem.wf = true) (hmap : memInMap t = true)
    (hds : t.ds.length ≤ dsCap) (hrs : t.rs.length ≤ rsCap) (hrun : t.running = s.running)
    (hfault : t.fault = s.fault) : GoodState t where
  memWf := hwf
  memMapped := hmap
  dsBound := hds
  rsBound := hrs
  faultStops := by
    rw [hfault, hrun]
    exact h.faultStops
  faultCode := by
    rw [hfault]
    exact h.faultCode

theorem GoodState.cpuOnly {s t : State} (hc : CpuOnly s t) (h : GoodState s) : GoodState t := by
  have hrun := hc.running
  have hfault := hc.fault
  obtain ⟨_, pc, ⟨ds, rs, rfl, hds, hrs⟩, rfl⟩ := hc
  exact h.of_mem h.memWf h.memMapped (hds h.dsBound) (hrs h.rsBound) hrun hfault

theorem GoodState.halt {s : State} (h : GoodState s) : GoodState (s.setRunning false) :=
  { h with faultStops := fun _ => rfl }

theorem GoodState.takeFault {s : State} (op : Option Byte) (r : Raise) (h : GoodState s) :
    GoodState (takeFault op r s) where
  memWf := h.memWf
  memMapped := h.memMapped
  dsBound := h.dsBound
  rsBound := h.rsBound
  faultStops _ := rfl
  faultCode := by
    intro f hf
    cases hf
    rfl

theorem GoodState.cpuReset {s : State} (p : Nat) (h : GoodState s) : GoodState (cpuReset p s) where
  memWf := h.memWf
  memMapped := h.memMapped
  dsBound := Nat.zero_le _
  rsBound := Nat.zero_le _
  faultStops := nofun
  faultCode := nofun

/-- The map has storage at an address. -/
def storageAt (c : Config) (a : Word) : Prop := ∃ w, findWindow c a = some w ∧ isStorage w.region = true

/-- The cells of a memory stand where the map has storage. -/
def MemMapped (c : Config) (m : Memory) : Prop := ∀ x ∈ m, x.1 < 0x10000 ∧ storageAt c (BitVec.ofNat 16 x.1)

theorem memInMap_iff {s : State} : memInMap s = true ↔ MemMapped s.cfg s.mem := by
  simp only [memInMap, MemMapped, List.all_eq_true, Bool.and_eq_true, decide_eq_true_eq, storageAt]
  refine forall₂_congr fun x _ => and_congr_right fun _ => ?_
  cases findWindow s.cfg (BitVec.ofNat 16 x.1) <;> simp

section

variable {s t : State} {a : Word} {v : Byte} (hw : busWrite s a v = some t)

include hw

theorem mem_wf_of_busWrite (h : s.mem.wf = true) : t.mem.wf = true := by
  rcases busWrite_mem_cases hw with hmem | ⟨_, -, -, -, hmem⟩ <;> rw [hmem]
  · exact h
  · exact Memory.write_wf h a.toNat v

/-- A bus write lists no address that the map does not give to storage. -/
theorem memInMap_of_busWrite (h : memInMap s = true) : memInMap t = true := by
  rw [memInMap_iff, busWrite_cfg hw]
  intro x hx
  rcases busWrite_mem_cases hw with hmem | ⟨w, hfind, hs, -, hmem⟩ <;> rw [hmem] at hx
  · exact memInMap_iff.mp h x hx
  · rcases Memory.mem_write hx with hold | ⟨rfl, -⟩
    · exact memInMap_iff.mp h x hold
    · exact ⟨a.isLt, w, by simpa using hfind, hs⟩

theorem GoodState.busWrite (h : GoodState s) : GoodState t :=
  h.of_mem (mem_wf_of_busWrite hw h.memWf) (memInMap_of_busWrite hw h.memMapped) (busWrite_ds hw ▸ h.dsBound)
    (busWrite_rs hw ▸ h.rsBound) (busWrite_running hw) (busWrite_fault hw)

end

/-- Settles O37: each of the changes a step is made of keeps the invariant. -/
theorem invKeptByStep : Obligations.InvKeptByStep := fun _ _ hs h =>
  step_relation (R := fun s t => GoodState s → GoodState t) (fun _ => id) (fun _ _ _ h h' hs => h' (h hs))
    (fun _ _ => GoodState.cpuOnly) (fun _ _ _ _ => GoodState.busWrite) (fun _ => GoodState.halt)
    (fun op r _ => GoodState.takeFault op r) h hs

theorem GoodState.hostAct {act : HostAction} {s t : State} (hs : GoodState s) (h : hostAct act s = .next t) :
    GoodState t :=
  hostAct_relation (R := fun s t => GoodState s → GoodState t) (fun _ => id) (fun _ _ _ h h' hs => h' (h hs))
    (fun s t h hs => invKeptByStep s t hs h) (fun p _ => GoodState.cpuReset p) (fun _ _ h => { h with })
    (fun _ _ h => { h with }) (fun _ _ h => { h with }) (fun _ _ _ _ => GoodState.busWrite) h hs

/-- A schedule keeps what every action keeps. -/
theorem GoodState.hostRun {acts : List HostAction} {s t : State} (hs : GoodState s) (h : hostRun acts s = .next t) :
    GoodState t := by
  induction acts generalizing s with
  | nil =>
    cases h
    exact hs
  | cons act rest ih =>
    unfold Machine.hostRun at h
    split at h
    case h_1 u hu => exact ih (hs.hostAct hu) h
    all_goals cases h

/-- Settles O38: an action by `GoodState.hostAct`, a schedule by induction over its actions. -/
theorem invKeptByHostActions : Obligations.InvKeptByHostActions :=
  ⟨fun _ _ _ => GoodState.hostAct, fun _ _ _ => GoodState.hostRun⟩

end Sys2Proof.Safety
end

section
/-!
PROOFS. PUTS, BRA and WAITVB (spec/40_system.md R114, spec/44_control.md R154, spec/45_io_timing.md R162).
-/
namespace Sys2Proof.Machine

open Sys2Proof.Safety

/-! ## PUTS: the scan of a string -/

/-- The scan sees the bus only (R64). -/
theorem putsScan_congr {s t : State} (h : ∀ a, busRead t a = busRead s a) (n : Nat) (a : Word) :
    putsScan t n a = putsScan s n a := by
  induction n generalizing a with
  | zero => rfl
  | succ n ih => simp only [putsScan, h, ih]

@[simp] theorem putsScan_setPc (s : State) (pc : Word) (n : Nat) (a : Word) :
    putsScan (s.setPc pc) n a = putsScan s n a := putsScan_congr (busRead_setPc s pc) n a

@[simp] theorem putsScan_setDs (s : State) (ds : List Byte) (n : Nat) (a : Word) :
    putsScan (s.setDs ds) n a = putsScan s n a := putsScan_congr (busRead_setDs s ds) n a

theorem putsScan_of_nul {s : State} {a : Word} (n : Nat) (h : busRead s a = some 0) :
    putsScan s (n + 1) a = ([], none) := by
  simp [putsScan, h]

theorem putsScan_of_none {s : State} {a : Word} (n : Nat) (h : busRead s a = none) :
    putsScan s (n + 1) a = ([], some a) := by
  simp [putsScan, h]

theorem putsScan_of_char {s : State} {a : Word} {b : Byte} (n : Nat) (h : busRead s a = some b) (hb : b ≠ 0) :
    putsScan s (n + 1) a = (b :: (putsScan s n (a + 1)).1, (putsScan s n (a + 1)).2) := by
  simp only [putsScan, h, if_neg hb]

/-- The address one further on, counted from the next one. -/
theorem addr_succ (a : Word) (k : Nat) : a + BitVec.ofNat 16 (k + 1) = a + 1 + BitVec.ofNat 16 k := by
  rw [Nat.add_comm, BitVec.ofNat_add, ← BitVec.add_assoc]
  rfl

theorem stringAt_cons {s : State} {a : Word} {b : Byte} {bs : List Byte} (h : stringAt s a (b :: bs)) :
    busRead s a = some b ∧ b ≠ 0 ∧ stringAt s (a + 1) bs := by
  obtain ⟨hread, hne⟩ := h 0 (Nat.succ_pos _)
  refine ⟨by simpa using hread, hne, fun k hk => ?_⟩
  rw [← addr_succ]
  exact h (k + 1) (Nat.succ_lt_succ hk)

/-- The scan shows a string of nonzero bytes and goes on after it (R114). -/
theorem putsScan_of_stringAt {s : State} {a : Word} {bs : List Byte} (n : Nat) (h : stringAt s a bs) :
    putsScan s (bs.length + n) a =
      (bs ++ (putsScan s n (a + BitVec.ofNat 16 bs.length)).1, (putsScan s n (a + BitVec.ofNat 16 bs.length)).2) := by
  induction bs generalizing a with
  | nil => simp
  | cons b bs ih =>
    obtain ⟨hread, hne, htail⟩ := stringAt_cons h
    rw [List.length_cons, Nat.add_right_comm, putsScan_of_char _ hread hne, ih htail, addr_succ, List.cons_append]

section Scan

variable {s : State} {a : Word} {bs : List Byte} {n : Nat} (h : stringAt s a bs)

include h

theorem putsScan_of_string_nul (hn : bs.length < n) (hend : busRead s (a + BitVec.ofNat 16 bs.length) = some 0) :
    putsScan s n a = (bs, none) := by
  obtain ⟨k, rfl⟩ := Nat.exists_eq_add_of_lt hn
  rw [Nat.add_assoc, putsScan_of_stringAt _ h, putsScan_of_nul k hend, List.append_nil]

theorem putsScan_of_string_unmapped (hn : bs.length < n) (hend : busRead s (a + BitVec.ofNat 16 bs.length) = none) :
    putsScan s n a = (bs, some (a + BitVec.ofNat 16 bs.length)) := by
  obtain ⟨k, rfl⟩ := Nat.exists_eq_add_of_lt hn
  rw [Nat.add_assoc, putsScan_of_stringAt _ h, putsScan_of_none k hend, List.append_nil]

/-- The bound ends a string that no NUL ends (R114, D36). -/
theorem putsScan_of_string_limit (hn : bs.length = n) : putsScan s n a = (bs, none) := by
  rw [← hn, ← Nat.add_zero bs.length, putsScan_of_stringAt 0 h]
  simp [putsScan]

/-- A string that a NUL or the bound ends is shown whole. -/
theorem putsScan_of_string_end
    (hend : bs.length < n ∧ busRead s (a + BitVec.ofNat 16 bs.length) = some 0 ∨ bs.length = n) :
    putsScan s n a = (bs, none) := by
  rcases hend with ⟨hn, hend⟩ | hn
  · exact putsScan_of_string_nul h hn hend
  · exact putsScan_of_string_limit h hn

/-- The bytes shown are the string before the NUL, the unmapped address or the bound. -/
theorem putsScan_shows
    (hend : bs.length < n ∧ (busRead s (a + BitVec.ofNat 16 bs.length) = some 0 ∨
      busRead s (a + BitVec.ofNat 16 bs.length) = none) ∨ bs.length = n) : (putsScan s n a).1 = bs := by
  rcases hend with ⟨hn, hnul | hmiss⟩ | hn
  · rw [putsScan_of_string_nul h hn hnul]
  · rw [putsScan_of_string_unmapped h hn hmiss]
  · rw [putsScan_of_string_limit h hn]

end Scan

/-! ## PUTS: the instruction -/

theorem bodyPuts_of_not_canPop {s : State} (h : ¬ canPop s 2) : bodyPuts s = .error .dsUnderflow := by
  simp only [bodyPuts, popWordD_of_not_canPop h, error_bind]

section Puts

variable {s : State} {bs : List Byte} {miss : Word} (hc : canPop s 2)

include hc

/-- After the pops the scan reads what the state before them has. -/
theorem bodyPuts_of_end (h : putsScan s putsLimit (topAddr s) = (bs, none)) :
    bodyPuts s = .ok (s.setDs (s.ds.drop 2)) := by
  simp only [bodyPuts, popWordD_of_canPop hc, ok_bind, putsScan_setDs, h]

theorem bodyPuts_of_unmapped (h : putsScan s putsLimit (topAddr s) = (bs, some miss)) :
    bodyPuts s = .error (.unmapped miss .read) := by
  simp only [bodyPuts, popWordD_of_canPop hc, ok_bind, putsScan_setDs, h]

theorem exec_puts_of_end (h : putsScan s putsLimit (topAddr s) = (bs, none)) :
    exec .puts s = .next { s with pc := s.pc + 2, ds := s.ds.drop 2 } :=
  exec_of_bodyOf_ok (bodyPuts_of_end ((canPop_setPc s _ 2).mpr hc) ((putsScan_setPc ..).trans h))

theorem exec_puts_of_unmapped (h : putsScan s putsLimit (topAddr s) = (bs, some miss)) :
    exec .puts s = .next (stopped s (record s .unmappedAddress 1 (some 0x01) none (some miss) (some .read))) :=
  exec_of_bodyOf_unmapped (bodyPuts_of_unmapped ((canPop_setPc s _ 2).mpr hc) ((putsScan_setPc ..).trans h))

end Puts

/-- The host sees what the scan shows (R114). -/
theorem hostOutput_of_puts {s : State} (n : Nat) (hr : s.running = true) (hb : bytesAt s [0x01, 0x11])
    (hc : canPop s 2) : hostOutput n s = (putsScan s putsLimit (topAddr s)).1.map .char := by
  have hfetch : fetchInstr s = .ok .puts := fetchInstr_of_bytesAt (decodeEncodeRoundTrip .puts []) hb
  simp only [hostOutput, hr, if_true, hfetch, putsOutput, popWordD_of_canPop hc, putsScan_setDs]

/-- Settles O13: the three ends of a string decide the scan, and the scan decides the next state and the output. -/
theorem putsResult : Obligations.PutsResult := by
  refine ⟨rfl, fun s bs hc hs hend => exec_puts_of_end hc (putsScan_of_string_end hs hend),
    fun s bs hc hs hn hend => exec_puts_of_unmapped hc (putsScan_of_string_unmapped hs hn hend),
    underflowStops_of_bodyOf fun _ _ => bodyPuts_of_not_canPop, fun n s bs hr hb hc hs hend => ?_⟩
  rw [hostOutput_of_puts n hr hb hc, putsScan_shows (n := putsLimit) hs hend]

/-! ## BRA -/

/-- The wrapping sum of a word and a sign-extended byte is the integer sum modulo 0x10000 (R8, R154). -/
theorem add_sext16 (w : Word) (off : Byte) :
    w + 2 + sext16 off = BitVec.ofInt 16 ((w.toNat : Int) + 2 + off.toInt) := by
  have hw : BitVec.ofInt 16 (w.toNat : Int) = w := by rw [BitVec.ofInt_natCast, BitVec.ofNat_toNat, BitVec.setWidth_eq]
  rw [BitVec.ofInt_add, BitVec.ofInt_add, hw]
  rfl

theorem exec_bra (off : Byte) (s : State) :
    exec (.bra off) s = .next { s with pc := BitVec.ofInt 16 ((s.pc.toNat : Int) + 2 + off.toInt) } := by
  rw [← add_sext16]
  exact exec_of_bodyOf_ok rfl

/-- Settles O32: BRA's body adds the sign-extended offset to the `pc` after its two bytes. -/
theorem braResult : Obligations.BraResult :=
  ⟨fun _ => rfl, exec_bra, operandFetchFaults_of_byte (mk := .bra) rfl⟩

/-! ## WAITVB -/

theorem vblankReady_iff {c : Config} {v : Byte} :
    vblankReady c v = true ↔ c.vblankWait = .immediate ∨ v.getLsbD 7 = true := by
  simp [vblankReady, vblankFlag]

section Waitvb

variable {s t : State} {a opcodeAddr : Word} {v : Byte}

theorem bodyWaitvb_of_status (ha : statusAddr s.cfg = some a) (hv : busRead s a = some v) :
    bodyWaitvb opcodeAddr s =
      if vblankReady s.cfg v then memWrite s a (clearVblank v) else .ok (s.setPc opcodeAddr) := by
  simp only [bodyWaitvb, statusRegister_ok.mpr ha, memRead_of_some .read hv, ok_bind]

theorem exec_waitvb_of_ready (ha : statusAddr s.cfg = some a) (hv : busRead s a = some v)
    (hready : s.cfg.vblankWait = .immediate ∨ v.getLsbD 7 = true) (hw : busWrite s a (v &&& 0x7F) = some t) :
    exec .waitvb s = .next { t with pc := s.pc + 1 } := by
  have hwrite : busWrite (s.setPc (s.pc + 1)) a (clearVblank v) = some (t.setPc (s.pc + 1)) := by
    rw [busWrite_setPc, clearVblank, hw]
    rfl
  exact exec_of_bodyOf_ok ((bodyWaitvb_of_status (s := s.setPc (s.pc + 1)) ha hv).trans
    ((if_pos (vblankReady_iff.mpr hready)).trans (memWrite_ok.mpr hwrite)))

/-- Waiting puts `pc` back on the opcode, which is the state before the step (R162). -/
theorem exec_waitvb_of_waiting (ha : statusAddr s.cfg = some a) (hv : busRead s a = some v)
    (hspin : s.cfg.vblankWait = .spin) (hflag : v.getLsbD 7 = false) : exec .waitvb s = .next s := by
  have hwait : ¬ (s.cfg.vblankWait = .immediate ∨ v.getLsbD 7 = true) :=
    not_or.mpr ⟨by rw [hspin]; decide, ne_true_of_eq_false hflag⟩
  exact exec_of_bodyOf_ok ((bodyWaitvb_of_status (s := s.setPc (s.pc + 1)) ha hv).trans
    (if_neg (vblankReady_iff.not.mpr hwait)))

theorem bodyWaitvb_of_no_status (h : statusAddr s.cfg = none) :
    bodyWaitvb opcodeAddr s = .error (.unmapped defaultStatusAddr .read) := by
  simp only [bodyWaitvb, statusRegister, h, error_bind]

end Waitvb

/-- Under the default map the status register is at 0xA821 (R56). -/
theorem findWindow_status_of_defaultMap {s : State} (hm : s.cfg.map = defaultMap) :
    findWindow s.cfg 0xA821 = some ⟨.status, 0xA821, 1⟩ :=
  (findWindow_of_defaultMap hm _).trans (by decide)

theorem statusAddr_of_defaultMap {s : State} (hm : s.cfg.map = defaultMap) : statusAddr s.cfg = some 0xA821 := by
  rw [statusAddr, hm]
  rfl

/-- Settles O35: the map's status register decides between the fault and the read, and the byte read between going on
and waiting. -/
theorem waitvbResult : Obligations.WaitvbResult := by
  refine ⟨rfl, fun _ _ _ _ => exec_waitvb_of_ready, fun _ _ _ => exec_waitvb_of_waiting,
    fun s h => ⟨_, exec_of_bodyOf_unmapped (bodyWaitvb_of_no_status h), rfl, rfl, rfl, rfl, rfl⟩, fun s hm hready => ?_⟩
  have hfind := findWindow_status_of_defaultMap hm
  exact exec_waitvb_of_ready (statusAddr_of_defaultMap hm) (busRead_of_window hfind) hready (busWrite_of_window hfind _)

end Sys2Proof.Machine
end

section
/-!
PROOFS. What instructions leave of the devices (spec/20_memory.md R55, R64 to R68): all of them but for a store, every
other byte for a store, and the byte stored reads back.
-/
namespace Sys2Proof.Machine

open Sys2Proof.Safety

/-! ## A byte written reads back (R66 to R68) -/

@[simp] theorem writePadCtrl_padCtrl (s : State) (v : Byte) : (writePadCtrl s v).padCtrl = v := by
  obtain ⟨p, h⟩ := writePadCtrl_eq s v
  rw [h]

/-- A window that does not discard writes holds the byte written. -/
theorem readWindow_writeWindow {s : State} {w : Window} (a : Word) (v : Byte) (hm : s.mem.wf = true)
    (hrom : w.region ≠ .rom) (hlatched : w.region ≠ .latched) : readWindow (writeWindow s w a v) w a = v := by
  rcases writeWindow_cases s w a v with ⟨hr | hr, -⟩ | ⟨hs, -, h⟩ | ⟨hr, h⟩ | ⟨hr, h⟩ | ⟨hr, h⟩ | ⟨hr, h⟩ | ⟨hr, h⟩
  · exact absurd hr hrom
  · exact absurd hr hlatched
  · rw [h, readWindow_of_storage hs]
    exact Memory.read_write_same hm a.toNat v
  all_goals simp [h, readWindow, hr]

/-- Settles O49: the write finds the window the read finds. -/
theorem writtenByteReadsBack : Obligations.WrittenByteReadsBack := by
  intro s a v r hm hr hrom hlatched
  obtain ⟨w, hw, rfl⟩ := regionAt_eq_some hr
  refine ⟨_, busWrite_of_window hw v, ?_⟩
  rw [busRead_of_window ((writeWindow_cfg s w a v).symm ▸ hw), readWindow_writeWindow a v hm hrom hlatched]

/-! ## Instructions without a store -/

/-- An instruction that does not store changes the CPU only, whether it completes or faults (R55, R214). -/
theorem exec_changes_cpu {i : Instr} {s t : State} (h8 : i ≠ .st8) (h16 : i ≠ .st16) (hw : i ≠ .waitvb)
    (h : exec i s = .next t) :
    ∃ pc running ds rs fault, t = { s with pc := pc, running := running, ds := ds, rs := rs, fault := fault } := by
  rcases exec_cases i s with ⟨u, hu, he⟩ | ⟨r, -, he⟩ <;> cases he.symm.trans h
  · by_cases hh : i = .halt
    · subst hh
      cases hu
      exact ⟨_, _, _, _, _, rfl⟩
    · obtain ⟨_, _, ⟨_, _, rfl, -⟩, rfl⟩ := bodyOf_cpuOnly hh h8 h16 hw hu
      exact ⟨_, _, _, _, _, rfl⟩
  · exact ⟨_, _, _, _, _, rfl⟩

/-- Settles O44: the devices and the bus see none of the CPU's fields. -/
theorem onlyStoresChangeDevices : Obligations.OnlyStoresChangeDevices := by
  intro i s t h8 h16 hw h
  obtain ⟨_, _, _, _, _, rfl⟩ := exec_changes_cpu h8 h16 hw h
  exact ⟨rfl, rfl, rfl, rfl, rfl, rfl, rfl, rfl, fun _ => rfl⟩

/-! ## What a store leaves -/

theorem regionAt_congr {s t : State} (h : t.cfg = s.cfg) (a : Word) : regionAt t a = regionAt s a := by
  rw [regionAt, h, regionAt]

/-- Between `s` and `t` only the bytes `stored` and the latched pads may have changed, the latter only if `latches`;
or a fault was taken (R55, R68, R214). -/
structure StoreFrame (s t : State) (stored : Word → Prop) (latches : Prop) : Prop where
  rs : t.rs = s.rs
  cfg : t.cfg = s.cfg
  live : t.live = s.live
  flag : t.running = s.running ∧ t.fault = s.fault ∨ t.running = false ∧ t.fault.isSome = true
  bytes : ∀ b, ¬ stored b → regionAt s b ≠ some .latched → busRead t b = busRead s b
  latched : t.latched = s.latched ∨ latches ∧ t.latched = s.live

theorem storeFrame_of_takeFault (op : Option Byte) (r : Raise) (s : State) (stored : Word → Prop) (latches : Prop) :
    StoreFrame s (takeFault op r s) stored latches :=
  ⟨rfl, rfl, rfl, .inr ⟨rfl, rfl⟩, fun _ _ _ => rfl, .inl rfl⟩

theorem storeFrame_of_busWrite {s t : State} {a : Word} {v : Byte} (hc : s.cfg.wf = true)
    (h : busWrite s a v = some t) :
    StoreFrame s t (· = a) (regionAt s a = some .padCtrl ∧ v.getLsbD 0 = true) :=
  ⟨busWrite_rs h, busWrite_cfg h, busWrite_live h, .inl ⟨busWrite_running h, busWrite_fault h⟩,
    fun _ => busRead_busWrite_other hc h, by simpa only [and_assoc] using busWrite_latched h⟩

section

variable {s t u : State} {stored stored' : Word → Prop} {latches latches' : Prop}

/-- `pc` and the data stack are not in the frame. -/
theorem StoreFrame.setPc_setDs (h : StoreFrame s t stored latches) (pc : Word) (ds : List Byte) :
    StoreFrame s ((t.setPc pc).setDs ds) stored latches := { h with }

theorem StoreFrame.trans (h : StoreFrame s t stored latches) (h' : StoreFrame t u stored' latches') :
    StoreFrame s u (fun b => stored b ∨ stored' b) (latches ∨ latches') where
  rs := h'.rs.trans h.rs
  cfg := h'.cfg.trans h.cfg
  live := h'.live.trans h.live
  flag := by
    rcases h'.flag with ⟨hrun, hfault⟩ | hfaulted
    · rw [hrun, hfault]
      exact h.flag
    · exact .inr hfaulted
  bytes b hb hl := by
    obtain ⟨hs, hs'⟩ := not_or.mp hb
    exact (h'.bytes b hs' (regionAt_congr h.cfg b ▸ hl)).trans (h.bytes b hs hl)
  latched := by
    rcases h'.latched with hkept | ⟨hlatches, hnew⟩
    · rw [hkept]
      exact h.latched.imp_right fun ⟨hlatches, hlive⟩ => ⟨.inl hlatches, hlive⟩
    · exact .inr ⟨.inr hlatches, hnew.trans h.live⟩

end

/-- A bus write made after the pops is the bus write of the state before the step (R55). -/
theorem busWrite_setPc_setDs_some {s t : State} {pc a : Word} {ds : List Byte} {v : Byte}
    (h : busWrite ((s.setPc pc).setDs ds) a v = some t) :
    ∃ u, busWrite s a v = some u ∧ t = (u.setPc pc).setDs ds := by
  rw [busWrite_setPc_setDs] at h
  obtain ⟨u, hu, rfl⟩ := Option.map_eq_some_iff.mp h
  exact ⟨u, hu, rfl⟩

theorem exec_st8_frame {s t : State} (hc : s.cfg.wf = true) (h : exec .st8 s = .next t) :
    StoreFrame s t (· = topAddr s) (regionAt s (topAddr s) = some .padCtrl ∧ (cell s 2).getLsbD 0 = true) := by
  rcases exec_cases .st8 s with ⟨u, hu, he⟩ | ⟨r, -, he⟩ <;> cases he.symm.trans h
  · obtain ⟨-, hbody⟩ := bodySt8_ok hu
    obtain ⟨u, hw, rfl⟩ := busWrite_setPc_setDs_some hbody
    exact (storeFrame_of_busWrite hc hw).setPc_setDs _ _
  · exact storeFrame_of_takeFault ..

theorem exec_st16_frame {s t : State} (hc : s.cfg.wf = true) (h : exec .st16 s = .next t) :
    StoreFrame s t (fun b => b = topAddr s ∨ b = topAddr s + 1)
      (regionAt s (topAddr s) = some .padCtrl ∧ (cell s 3).getLsbD 0 = true ∨
        regionAt s (topAddr s + 1) = some .padCtrl ∧ (cell s 2).getLsbD 0 = true) := by
  rcases exec_cases .st16 s with ⟨u, hu, he⟩ | ⟨r, -, he⟩ <;> cases he.symm.trans h
  · obtain ⟨-, _, hbody, hbody'⟩ := bodySt16_ok hu
    obtain ⟨v, hlo, rfl⟩ := busWrite_setPc_setDs_some hbody
    obtain ⟨w, hhi, rfl⟩ := busWrite_setPc_setDs_some hbody'
    have hcfg := busWrite_cfg hlo
    have hframe := (storeFrame_of_busWrite hc hlo).trans (storeFrame_of_busWrite (hcfg ▸ hc) hhi)
    rw [regionAt_congr hcfg] at hframe
    exact hframe.setPc_setDs _ _
  · exact storeFrame_of_takeFault ..

/-! ## WAITVB's store to the status register -/

/-- Under a well-formed map the status register is one byte, at `STATUS_ADDR` (R56, R162). -/
theorem status_window {c : Config} {a : Word} (hc : c.wf = true) (h : statusAddr c = some a) :
    ∃ w ∈ c.map, w.region = .status ∧ w.base = a.toNat ∧ w.size = 1 := by
  unfold statusAddr at h
  split at h
  · rename_i w hw
    cases h
    have hmem := List.mem_of_find?_eq_some hw
    have hr : w.region = .status := by simpa using List.find?_some hw
    obtain ⟨-, hspace, hsized, -⟩ := Config.wf_parts hc
    have hsize : w.size = 1 := by simpa [hr, Region.sizeOk] using hsized w hmem
    have hlt := hspace w hmem
    refine ⟨w, hmem, hr, ?_, hsize⟩
    rw [BitVec.toNat_ofNat, Nat.mod_eq_of_lt (by omega)]
  · cases h

/-- The status register is the only byte of its region. -/
theorem regionAt_status_iff {s : State} {a : Word} (hc : s.cfg.wf = true) (h : statusAddr s.cfg = some a) (b : Word) :
    regionAt s b = some .status ↔ b = a := by
  obtain ⟨w, hw, hr, hbase, hsize⟩ := status_window hc h
  rw [regionAt, ← hr, findWindow_region_iff hc hw b]
  simp only [windowHandles, hbase, hsize, Bool.and_eq_true, decide_eq_true_eq]
  bv_omega

theorem busRead_setStatus_other {s : State} {b : Word} (v : Byte) (h : regionAt s b ≠ some .status) :
    busRead (s.setStatus v) b = busRead s b := by
  cases hw : findWindow s.cfg b with
  | none => simp [busRead, hw]
  | some w =>
    rw [regionAt_of_window hw] at h
    rw [busRead_of_window (s := s.setStatus v) hw, busRead_of_window hw]
    cases hr : w.region <;> simp_all [readWindow]

/-- Everything WAITVB does where there is a status register (R162): wait, or clear the flag and go on. -/
theorem exec_waitvb_cases {s t : State} {a : Word} (hc : s.cfg.wf = true) (ha : statusAddr s.cfg = some a)
    (h : exec .waitvb s = .next t) : t = s ∨ t = (s.setStatus (s.status &&& 0x7F)).setPc (s.pc + 1) := by
  obtain ⟨w, hw, hr⟩ := regionAt_eq_some ((regionAt_status_iff hc ha a).mpr rfl)
  have hread : busRead s a = some s.status := by simp only [busRead_of_window hw, readWindow, hr]
  have hwrite : busWrite s a (s.status &&& 0x7F) = some (s.setStatus (s.status &&& 0x7F)) := by
    simp only [busWrite_of_window hw, writeWindow, hr]
  by_cases hready : s.cfg.vblankWait = .immediate ∨ s.status.getLsbD 7 = true
  · cases (exec_waitvb_of_ready ha hread hready hwrite).symm.trans h
    exact .inr rfl
  · obtain ⟨himm, hflag⟩ := not_or.mp hready
    have hspin : s.cfg.vblankWait = .spin := by cases hv : s.cfg.vblankWait <;> simp_all
    cases (exec_waitvb_of_waiting ha hread hspin (eq_false_of_ne_true hflag)).symm.trans h
    exact .inl rfl

/-- Settles O45: the frames of the two stores, and WAITVB's two outcomes, which leave every other byte by
`busRead_setStatus_other`. -/
theorem storesLeaveOtherBytes : Obligations.StoresLeaveOtherBytes := by
  refine ⟨fun s t hc h => ?_, fun s t hc h => ?_, fun s t a hc ha h => ?_⟩
  · obtain ⟨hrs, hcfg, hlive, hflag, hbytes, hlatched⟩ := exec_st8_frame hc h
    exact ⟨hrs, hcfg, hlive, hflag, hbytes, by simpa only [and_assoc] using hlatched⟩
  · obtain ⟨hrs, hcfg, hlive, hflag, hbytes, hlatched⟩ := exec_st16_frame hc h
    exact ⟨hrs, hcfg, hlive, hflag, fun b hb hb1 => hbytes b (not_or.mpr ⟨hb, hb1⟩), hlatched⟩
  · obtain rfl | rfl := exec_waitvb_cases hc ha h
    · exact ⟨rfl, rfl, rfl, rfl, rfl, rfl, fun _ _ => rfl⟩
    · exact ⟨rfl, rfl, rfl, rfl, rfl, rfl,
        fun b hb => busRead_setStatus_other _ ((regionAt_status_iff hc ha b).not.mpr hb)⟩

end Sys2Proof.Machine
end

section
/-!
PROOFS. Construction, reset and the host's actions (spec/70_reset_and_hazards.md R240 to R246): where the image and
the draw of RAM stand in a well-formed map, and what each action changes and reports.
-/
namespace Sys2Proof.Machine

open Sys2Proof.Safety

/-! ## Windows of a well-formed map -/

section Window

variable {c : Config} {w : Window} {k : Nat} (hc : c.wf = true) (hw : w ∈ c.map) (hk : k < w.size)

include hc hw hk

/-- An address inside a window does not wrap (R35). -/
theorem window_addr_toNat : (BitVec.ofNat 16 (w.base + k)).toNat = w.base + k := by
  obtain ⟨-, hspace, -⟩ := Config.wf_parts hc
  have hlt := hspace w hw
  rw [BitVec.toNat_ofNat, Nat.mod_eq_of_lt (by omega)]

theorem window_addr_handles : windowHandles w (BitVec.ofNat 16 (w.base + k)) = true := by
  simp only [windowHandles, window_addr_toNat hc hw hk, Bool.and_eq_true, decide_eq_true_eq]
  omega

theorem findWindow_window_addr : findWindow c (BitVec.ofNat 16 (w.base + k)) = some w :=
  findWindow_of_handles hc hw (window_addr_handles hc hw hk)

/-- An address inside a window is in no window of another region (R54). -/
theorem not_in_other_window {v : Window} (hv : v ∈ c.map) (hne : v.region ≠ w.region) :
    ¬ (v.base ≤ w.base + k ∧ w.base + k < v.base + v.size) := by
  intro hin
  have hva : windowHandles v (BitVec.ofNat 16 (w.base + k)) = true := by
    simpa only [windowHandles, window_addr_toNat hc hw hk, Bool.and_eq_true, decide_eq_true_eq] using hin
  exact hne (congrArg _ (window_unique_of_handles hc hv hw hva (window_addr_handles hc hw hk)))

theorem storageAt_window_addr (hs : isStorage w.region = true) :
    w.base + k < 0x10000 ∧ storageAt c (BitVec.ofNat 16 (w.base + k)) :=
  ⟨window_addr_toNat hc hw hk ▸ BitVec.isLt _, w, findWindow_window_addr hc hw hk, hs⟩

end Window

/-! ## The image in ROM and the draw in RAM (R242, R243) -/

/-- Bytes stored from the base of a storage window on, no more than it holds, stand where the map has storage. -/
theorem memMapped_storeFrom {c : Config} {m : Memory} {w : Window} {bs : List Byte} (h : MemMapped c m)
    (hc : c.wf = true) (hw : w ∈ c.map) (hs : isStorage w.region = true) (hlen : bs.length ≤ w.size) :
    MemMapped c (storeFrom m w.base bs) := by
  intro x hx
  rcases storeFrom_mem hx with hold | ⟨hlow, hhigh⟩
  · exact h x hold
  · obtain ⟨k, hk⟩ := Nat.exists_eq_add_of_le hlow
    rw [hk]
    exact storageAt_window_addr hc hw (by omega) hs

/-- Everything the loading of the image does: nothing where the map has no ROM, or store it from ROM's base on. -/
theorem romImage_cases (c : Config) (image : List Byte) :
    romImage c image = [] ∨
    ∃ w ∈ c.map, w.region = .rom ∧ c.romSize = w.size ∧ romImage c image = storeFrom [] w.base image := by
  unfold romImage regionBase Config.romSize
  cases h : c.map.find? (fun w => w.region == Region.rom) with
  | none => exact .inl rfl
  | some w => exact .inr ⟨w, List.mem_of_find?_eq_some h, by simpa using List.find?_some h, rfl, rfl⟩

/-- Everything the filling of RAM does: nothing, or store the draw over the RAM window under `arbitrary`. -/
theorem initRam_cases (c : Config) (draw : Nat → Byte) (m : Memory) :
    initRam c draw m = m ∨
    ∃ w ∈ c.map, w.region = .ram ∧ initRam c draw m = storeFrom m w.base ((List.range w.size).map draw) := by
  unfold initRam
  split
  · rename_i w _ h
    exact .inr ⟨w, List.mem_of_find?_eq_some h, by simpa using List.find?_some h, rfl⟩
  · exact .inl rfl

theorem Memory.nil_wf : Memory.wf [] = true := rfl

section Loading

variable {c : Config} {image : List Byte} {draw : Nat → Byte} {m : Memory} {w : Window} {k : Nat}

theorem romImage_wf : (romImage c image).wf = true := by
  obtain h | ⟨w, -, -, -, h⟩ := romImage_cases c image
  · rw [h]; rfl
  · rw [h]; exact storeFrom_wf Memory.nil_wf _ _

theorem initRam_wf (hm : m.wf = true) : (initRam c draw m).wf = true := by
  obtain h | ⟨w, -, -, h⟩ := initRam_cases c draw m
  · rw [h]; exact hm
  · rw [h]; exact storeFrom_wf hm _ _

theorem initRam_of_zero (hz : c.ramInit = .zero) : initRam c draw m = m := by
  simp only [initRam, hz]

variable (hc : c.wf = true)

include hc

theorem romImage_mapped (himage : image.length ≤ c.romSize) : MemMapped c (romImage c image) := by
  obtain h | ⟨w, hw, hr, hsize, h⟩ := romImage_cases c image
  · rw [h]; nofun
  · rw [h]; exact memMapped_storeFrom nofun hc hw (by rw [hr]; rfl) (hsize ▸ himage)

theorem initRam_mapped (hm : MemMapped c m) : MemMapped c (initRam c draw m) := by
  obtain h | ⟨w, hw, hr, h⟩ := initRam_cases c draw m
  · rw [h]; exact hm
  · rw [h]; exact memMapped_storeFrom hm hc hw (by rw [hr]; rfl) (by simp)

variable (hw : w ∈ c.map)

include hw

/-- ROM reads as the image followed by 0x00 (R243). -/
theorem romImage_read_rom (hr : w.region = .rom) : (romImage c image).read (w.base + k) = image.getD k 0 := by
  have hbase : regionBase c .rom = some w.base := hr ▸ regionBase_of_mem hc hw
  simp only [romImage, hbase, storeFrom_read Memory.nil_wf, Nat.le_add_right, true_and, Nat.add_lt_add_iff_left,
    Nat.add_sub_cancel_left]
  split
  · rfl
  · rename_i hk
    simp only [List.getD_eq_default _ _ (Nat.le_of_not_lt hk)]
    rfl

/-- RAM under `arbitrary` reads as the draw (R242). -/
theorem initRam_read_ram (hm : m.wf = true) (hk : k < w.size) (hr : w.region = .ram) (ha : c.ramInit = .arbitrary) :
    (initRam c draw m).read (w.base + k) = draw k := by
  have hfind : c.map.find? (fun v => v.region == Region.ram) = some w := hr ▸ find_region_of_mem hc hw
  simp only [initRam, ha, hfind, storeFrom_read hm]
  simp [hk]

variable (hk : k < w.size)

include hk

theorem romImage_read_other (himage : image.length ≤ c.romSize) (hr : w.region ≠ .rom) :
    (romImage c image).read (w.base + k) = 0 := by
  obtain h | ⟨v, hv, hvr, hsize, h⟩ := romImage_cases c image
  · rw [h]; rfl
  · have hout := not_in_other_window hc hw hk hv (hvr ▸ hr.symm)
    rw [h, storeFrom_read Memory.nil_wf, if_neg (by omega)]
    rfl

theorem initRam_read_other (hm : m.wf = true) (hr : w.region ≠ .ram) :
    (initRam c draw m).read (w.base + k) = m.read (w.base + k) := by
  obtain h | ⟨v, hv, hvr, h⟩ := initRam_cases c draw m
  · rw [h]
  · have hout := not_in_other_window hc hw hk hv (hvr ▸ hr.symm)
    rw [h, storeFrom_read hm, if_neg (by simpa using hout)]

end Loading

/-! ## Construction -/

theorem construct_of_wf {c : Config} {image : List Byte} (draw : Nat → Byte) (hc : c.wf = true)
    (himage : image.length ≤ c.romSize) :
    construct c image draw = .ok (constructed c (initRam c draw (romImage c image))) := by
  simp [construct, hc, Config.imageFits, himage]

theorem construct_of_badConfig {c : Config} (image : List Byte) (draw : Nat → Byte) (hc : c.wf = false) :
    construct c image draw = .error .badConfig := by
  simp [construct, hc]

theorem construct_of_long {c : Config} {image : List Byte} (draw : Nat → Byte) (hc : c.wf = true)
    (himage : c.romSize < image.length) : construct c image draw = .error .imageTooLong := by
  simp [construct, hc, Config.imageFits, himage]

theorem goodState_constructed {c : Config} {m : Memory} (hm : m.wf = true) (hmap : MemMapped c m) :
    GoodState (constructed c m) where
  memWf := hm
  memMapped := memInMap_iff.mpr hmap
  dsBound := Nat.zero_le _
  rsBound := Nat.zero_le _
  faultStops := nofun
  faultCode := nofun

section Reads

variable {c : Config} {m : Memory} {w : Window} {k : Nat} (hc : c.wf = true) (hw : w ∈ c.map) (hk : k < w.size)

include hc hw hk

theorem busRead_constructed_storage (hs : isStorage w.region = true) :
    busRead (constructed c m) (BitVec.ofNat 16 (w.base + k)) = some (m.read (w.base + k)) := by
  rw [busRead_of_window (s := constructed c m) (findWindow_window_addr hc hw hk), readWindow_of_storage hs,
    window_addr_toNat hc hw hk]
  rfl

/-- The registers and the pads are 0x00 at construction (R36). -/
theorem busRead_constructed_register (hs : isStorage w.region = false) :
    busRead (constructed c m) (BitVec.ofNat 16 (w.base + k)) = some 0 := by
  rw [busRead_of_window (s := constructed c m) (findWindow_window_addr hc hw hk)]
  cases hr : w.region <;> simp_all [isStorage, readWindow, constructed, PadPair.get]

end Reads

/-- Settles O39: the two refusals are `construct`'s own checks; each window's bytes are those of the image, the draw, or
neither. -/
theorem constructionLoadsTheImage : Obligations.ConstructionLoadsTheImage := by
  refine ⟨fun _ image draw => construct_of_badConfig image draw, fun _ _ draw => construct_of_long draw,
    fun c image draw hc himage => ?_⟩
  refine ⟨_, construct_of_wf draw hc himage,
    goodState_constructed (initRam_wf romImage_wf) (initRam_mapped hc (romImage_mapped hc himage)), rfl,
    ⟨rfl, rfl, rfl, rfl, rfl⟩, ⟨rfl, rfl, rfl, rfl, rfl, rfl, rfl⟩, fun w k hw hk => ?_⟩
  have hstorage := busRead_constructed_storage (m := initRam c draw (romImage c image)) hc hw hk
  refine ⟨fun hr => ?_, fun hr hz => ?_, fun hr ha => ?_, fun hrom hram => ?_⟩
  · rw [hstorage (by rw [hr]; rfl), initRam_read_other hc hw hk romImage_wf (by rw [hr]; decide),
      romImage_read_rom hc hw hr]
  · rw [hstorage (by rw [hr]; rfl), initRam_of_zero hz, romImage_read_other hc hw hk himage (by rw [hr]; decide)]
  · rw [hstorage (by rw [hr]; rfl), initRam_read_ram hc hw romImage_wf hk hr ha]
  · cases hs : isStorage w.region with
    | false => exact busRead_constructed_register hc hw hk hs
    | true => rw [hstorage hs, initRam_read_other hc hw hk romImage_wf hram, romImage_read_other hc hw hk himage hrom]

/-! ## Reset and the other actions -/

theorem byte_ofNat_mod (m : Nat) : BitVec.ofNat 8 (m % 256) = BitVec.ofNat 8 m := BitVec.eq_of_toNat_eq (by simp)

theorem word_ofNat_mod (m : Nat) : BitVec.ofNat 16 (m % 0x10000) = BitVec.ofNat 16 m := BitVec.eq_of_toNat_eq (by simp)

theorem hostAct_reset (p : Nat) (s : State) : hostAct (.reset p) s =
    .next { s with pc := BitVec.ofNat 16 (p % 0x10000), running := true, ds := [], rs := [], fault := none } := by
  rw [word_ofNat_mod p]
  rfl

/-- Settles O47: the reset state is the default machine, constructed with an empty image, after its reset. -/
theorem resetStartsTheCpu : Obligations.ResetStartsTheCpu :=
  ⟨hostAct_reset, fun draw => ⟨_, construct_of_wf draw defaultConfig_wf (Nat.zero_le _), rfl⟩⟩

theorem hostAct_busWrite_of_some {s t : State} {a : Word} {v : Nat}
    (h : busWrite s a (BitVec.ofNat 8 (v % 256)) = some t) :
    hostAct (.busWrite a v) s = .next t ∧ hostReply (.busWrite a v) s = .nothing := by
  rw [byte_ofNat_mod v] at h
  simp only [hostAct, hostBusWrite, hostReply, h, and_self]

theorem hostAct_busRead_of_some {s : State} {a : Word} {b : Byte} (h : busRead s a = some b) :
    hostAct (.busRead a) s = .next s ∧ hostReply (.busRead a) s = .byte b := by
  simp only [hostAct, hostReply, h, and_self]

/-- A host access that misses changes nothing and is reported (R218). -/
theorem hostAct_of_unmapped {s : State} {a : Word} (v : Nat) (h : busRead s a = none) :
    hostAct (.busWrite a v) s = .next s ∧ hostReply (.busWrite a v) s = .unmapped a .write ∧
      hostAct (.busRead a) s = .next s ∧ hostReply (.busRead a) s = .unmapped a .read := by
  have hwrite : busWrite s a (BitVec.ofNat 8 v) = none := busWrite_eq_none_iff.mpr h
  simp only [hostAct, hostBusWrite, hostReply, h, hwrite, and_self]

/-- Settles O51: the actions by their definitions, the bus accesses by whether they hit. -/
theorem hostActionEffects : Obligations.HostActionEffects := by
  refine ⟨fun s m => ?_, fun s m => ?_, fun _ => rfl, fun _ => rfl, fun _ => ⟨rfl, rfl⟩, fun _ => ⟨rfl, rfl⟩,
    fun _ => rfl, fun _ => rfl, fun _ _ => rfl, fun _ _ _ _ => hostAct_busWrite_of_some,
    fun _ _ _ => hostAct_busRead_of_some, fun _ _ v => hostAct_of_unmapped v⟩
  all_goals
    rw [byte_ofNat_mod m]
    rfl

end Sys2Proof.Machine
end

section
/-!
PROOFS. The whole frame (spec/50_ppu.md sections 2, 3 and 6): that it is drawn pixel by pixel, what it depends on and
what it does not, and which sprite shows.
-/
namespace Sys2Proof.Machine

open Sys2Proof.Safety

/-- Settles O52: `renderFrame_at`. -/
theorem frameIsPixelwise : Obligations.FrameIsPixelwise := fun s _ _ => renderFrame_at s

/-! ## What the bus reads of the PPU -/

/-- Settles O57: the regions by `busRead_storage_of_defaultMap`, the registers by their windows. -/
theorem rasterizerReadsWhatTheBusReads : Obligations.RasterizerReadsWhatTheBusReads := by
  intro s hm
  refine ⟨fun k => busRead_storage_of_defaultMap (w := ⟨.tiles, 0x8000, 0x2000⟩) hm (by decide) rfl,
    fun k => busRead_storage_of_defaultMap (w := ⟨.tmap, 0xA000, 0x0380⟩) hm (by decide) rfl,
    fun k => busRead_storage_of_defaultMap (w := ⟨.tattr, 0xA380, 0x0380⟩) hm (by decide) rfl,
    fun k => busRead_storage_of_defaultMap (w := ⟨.oam, 0xA700, 0x0100⟩) hm (by decide) rfl,
    fun k => busRead_pal_of_defaultMap hm,
    busRead_of_defaultMap (w := ⟨.ctrl, 0xA820, 1⟩) hm (by decide),
    busRead_of_window (findWindow_status_of_defaultMap hm),
    busRead_of_defaultMap (w := ⟨.scrollX, 0xA822, 1⟩) hm (by decide),
    busRead_of_defaultMap (w := ⟨.scrollY, 0xA823, 1⟩) hm (by decide)⟩

/-! ## States that show the same picture -/

/-- Frames of one configuration are equal if every pixel is (R195). -/
theorem renderFrame_eq_of_pixelAt {s t : State} (hcfg : t.cfg = s.cfg) (h : ∀ x y, pixelAt t x y = pixelAt s x y) :
    renderFrame t = renderFrame s := by
  have hlen : (renderFrame t).length = (renderFrame s).length := by
    rw [renderFrame_length, renderFrame_length, hcfg]
  refine List.ext_getElem? fun n => ?_
  by_cases hn : n < (renderFrame s).length
  · have hn' := hn
    rw [renderFrame_length] at hn'
    have hx : n % screenW s.cfg < screenW s.cfg := Nat.mod_lt _ (Nat.pos_of_lt_mul_right hn')
    have hy : n / screenW s.cfg < screenH s.cfg := Nat.div_lt_of_lt_mul hn'
    have ht := renderFrame_at t (hcfg ▸ hx) (hcfg ▸ hy)
    rw [hcfg, h, ← renderFrame_at s hx hy, Nat.div_add_mod'] at ht
    exact ht
  · have hn := Nat.le_of_not_lt hn
    rw [List.getElem?_eq_none hn, List.getElem?_eq_none (hlen ▸ hn)]

/-- Both states show the rasterizer the same colours, background, sprites and tiles. -/
structure SamePicture (s t : State) : Prop where
  cfg : t.cfg = s.cfg
  ctrl : t.ctrl = s.ctrl
  colour : ∀ i, palRgb t i = palRgb s i
  index : ∀ x y, bgIndex t x y = bgIndex s x y
  attr : ∀ x y, cellAttr t (bgCell t x y) = cellAttr s (bgCell s x y)
  sprite : ∀ k, k < 16 → readSprite t k = readSprite s k
  tile : ∀ (n : Byte) (r c : Nat) (h v : Bool), r < 8 → tilePixel t n r c h v = tilePixel s n r c h v

namespace SamePicture

variable {s t : State} (h : SamePicture s t)

include h

theorem gates : displayOff t = displayOff s ∧ spritesOff t = spritesOff s ∧ bgOff t = bgOff s := by
  simp only [displayOff, spritesOff, bgOff, h.cfg, h.ctrl, and_self]

theorem background (x y : Nat) : bgColour t x y = bgColour s x y ∧ bgMask t x y = bgMask s x y := by
  obtain ⟨-, -, hb⟩ := h.gates
  simp only [bgColour, bgMask, hb, h.colour, h.index, h.attr, and_self]

/-- A row inside a sprite is a row inside a tile (R194). -/
theorem pixel (sp : Sprite) (lx : Nat) {ly : Nat} (hy : ly < spriteSize sp) :
    spritePixel t sp lx ly = spritePixel s sp lx ly := by
  cases hsize : sp.attr.getLsbD 6 with
  | false =>
    rw [spriteSize_of_small hsize] at hy
    rw [spritePixel_of_small t lx ly hsize, spritePixel_of_small s lx ly hsize, h.tile _ _ _ _ _ hy]
  | true =>
    have hrow : ∀ r, r % 8 < 8 := fun r => Nat.mod_lt r (by decide)
    cases hf : s.cfg.spriteFlip with
    | whole =>
      rw [spritePixel_of_big_whole lx ly hsize hf, spritePixel_of_big_whole lx ly hsize (h.cfg ▸ hf), h.cfg]
      exact h.tile _ _ _ _ _ (hrow _)
    | perTile =>
      rw [spritePixel_of_big_perTile lx ly hsize hf, spritePixel_of_big_perTile lx ly hsize (h.cfg ▸ hf), h.cfg]
      exact h.tile _ _ _ _ _ (hrow _)

theorem pixel_of_covers {sp : Sprite} {x y : Nat} (hcover : spriteCovers sp x y) :
    spritePixel t sp (x - sp.x.toNat) (y - sp.y.toNat) = spritePixel s sp (x - sp.x.toNat) (y - sp.y.toNat) := by
  obtain ⟨-, -, htop, hbottom⟩ := hcover
  exact h.pixel sp _ (by omega)

theorem shows_iff (sp : Sprite) (x y : Nat) : spriteShows t sp x y = true ↔ spriteShows s sp x y = true := by
  obtain ⟨-, hmask⟩ := h.background x y
  rw [spriteShows_iff, spriteShows_iff, spriteOpaque, spriteOpaque, hmask]
  exact and_congr_left fun _ => and_congr_right fun hcover => by rw [h.pixel_of_covers hcover]

theorem overlay (x y : Nat) (c : Rgb) {k : Nat} (hk : k < 16) : overlaySprite t x y c k = overlaySprite s x y c k := by
  simp only [overlaySprite, h.sprite k hk]
  refine ite_congr (propext (h.shows_iff _ x y)) (fun hshows => ?_) fun _ => rfl
  obtain ⟨⟨hcover, -⟩, -⟩ := spriteShows_iff.mp hshows
  rw [h.colour, h.pixel_of_covers hcover]

theorem pixelAt_eq (x y : Nat) : pixelAt t x y = pixelAt s x y := by
  obtain ⟨hd, hs, -⟩ := h.gates
  obtain ⟨hback, -⟩ := h.background x y
  have hsprites : ∀ c, (List.range 16).foldl (overlaySprite t x y) c = (List.range 16).foldl (overlaySprite s x y) c :=
    fun c => List.foldl_ext _ _ c fun c k hk => h.overlay x y c (List.mem_range.mp hk)
  simp only [pixelAt, hd, hs, hback, hsprites, h.colour]

theorem renderFrame_eq : renderFrame t = renderFrame s := renderFrame_eq_of_pixelAt h.cfg h.pixelAt_eq

end SamePicture

/-! ## Scrolling (R178, R186) -/

/-- The background sees the scrolls only modulo the screen. -/
theorem samePicture_of_scroll (s : State) {u v u' v' : Byte}
    (hx : ∀ x, (x + u'.toNat) % screenW s.cfg = (x + u.toNat) % screenW s.cfg)
    (hy : ∀ y, (y + v'.toNat) % screenH s.cfg = (y + v.toNat) % screenH s.cfg) :
    SamePicture { s with scrollX := u, scrollY := v } { s with scrollX := u', scrollY := v' } := by
  have hcell : bgCell { s with scrollX := u', scrollY := v' } = bgCell { s with scrollX := u, scrollY := v } := by
    funext x y
    simp only [bgCell, hx, hy]
  refine ⟨rfl, rfl, fun _ => rfl, fun x y => ?_, fun x y => by rw [hcell]; rfl, fun _ _ => rfl, fun _ _ _ _ _ _ => rfl⟩
  simp only [bgIndex, hcell, hx, hy]
  rfl

/-- Settles O59: adding congruent scrolls gives congruent source coordinates. -/
theorem scrollWrapsAround : Obligations.ScrollWrapsAround :=
  ⟨fun s _ _ h =>
      (samePicture_of_scroll s (v := s.scrollY) (fun x => Nat.ModEq.add_left x h) fun _ => rfl).renderFrame_eq,
    fun s _ _ h =>
      (samePicture_of_scroll s (u := s.scrollX) (fun _ => rfl) fun y => Nat.ModEq.add_left y h).renderFrame_eq⟩

/-! ## What the frame reads -/

/-- A row of a tile is four bytes of the tile store (R175, R183). -/
theorem tilePixel_congr {s t : State} (h : ∀ k, k < 8192 → vramByte t .tiles k = vramByte s .tiles k) (n : Byte)
    {r : Nat} (c : Nat) (hf vf : Bool) (hr : r < 8) : tilePixel t n r c hf vf = tilePixel s n r c hf vf := by
  have hn : n.toNat < 256 := n.isLt
  have hrow : (if vf = true then 7 - r else r) < 8 := by split <;> omega
  have hpair : ∀ k ∈ List.range 4, tilePair t (32 * n.toNat + 4 * (if vf = true then 7 - r else r)) k =
      tilePair s (32 * n.toNat + 4 * (if vf = true then 7 - r else r)) k := by
    intro k hk
    rw [List.mem_range] at hk
    rw [tilePair, h _ (by omega), tilePair]
  simp only [tilePixel, tileRow, List.flatMap_congr hpair]

/-- The rasterizer reads nothing but `ctrl`, the scrolls, the tile store, the cells of the screen, the slots and the
palette (R172 to R179). -/
theorem samePicture_of_vram {s t : State} (hcfg : t.cfg = s.cfg) (hctrl : t.ctrl = s.ctrl)
    (hx : t.scrollX = s.scrollX) (hy : t.scrollY = s.scrollY)
    (htiles : ∀ k, k < 8192 → vramByte t .tiles k = vramByte s .tiles k)
    (htmap : ∀ x y, vramByte t .tmap (bgCell s x y) = vramByte s .tmap (bgCell s x y))
    (htattr : ∀ x y, vramByte t .tattr (bgCell s x y) = vramByte s .tattr (bgCell s x y))
    (hoam : ∀ k, k < 256 → vramByte t .oam k = vramByte s .oam k)
    (hpal : ∀ k, k < 32 → vramByte t .pal k = vramByte s .pal k) : SamePicture s t := by
  have hcell : ∀ x y, bgCell t x y = bgCell s x y := fun x y => by simp only [bgCell, hcfg, hx, hy]
  have hattr : ∀ x y, cellAttr t (bgCell s x y) = cellAttr s (bgCell s x y) := htattr
  have htile := fun (n : Byte) (r c : Nat) (h v : Bool) => tilePixel_congr htiles n (r := r) c h v
  refine ⟨hcfg, hctrl, fun i => ?_, fun x y => ?_, fun x y => by rw [hcell, hattr],
    fun k hk => ?_, htile⟩
  · have hi : i.toNat < 16 := i.isLt
    simp only [palRgb, hpal (2 * i.toNat) (by omega), hpal (2 * i.toNat + 1) (by omega)]
  · simp only [bgIndex, hcell, hattr, htmap, hcfg, hx, hy]
    exact htile _ _ _ _ _ (Nat.mod_lt _ (by decide))
  · simp only [readSprite, hoam (16 * k) (by omega), hoam (16 * k + 1) (by omega), hoam (16 * k + 2) (by omega),
      hoam (16 * k + 3) (by omega)]

/-- The frame is a function of the configuration, storage, `ctrl` and the scrolls (R170, R185). -/
theorem renderFrame_congr {s t : State} (hcfg : t.cfg = s.cfg) (hmem : t.mem = s.mem) (hctrl : t.ctrl = s.ctrl)
    (hx : t.scrollX = s.scrollX) (hy : t.scrollY = s.scrollY) : renderFrame t = renderFrame s := by
  have hvram : ∀ q k, vramByte t q k = vramByte s q k := fun q k => by simp only [vramByte, hcfg, hmem]
  exact (samePicture_of_vram hcfg hctrl hx hy (fun k _ => hvram _ k) (fun _ _ => hvram _ _) (fun _ _ => hvram _ _)
    (fun k _ => hvram _ k) fun k _ => hvram _ k).renderFrame_eq

/-- The cells of the screen are the cells of the grid (R172, R187). -/
theorem bgCell_lt {s : State} (hc : s.cfg.wf = true) (x y : Nat) : bgCell s x y < 896 := by
  obtain ⟨-, -, -, -, -, hgrid⟩ := Config.wf_parts hc
  have hcols : 0 < s.cfg.mapCols := Nat.pos_of_ne_zero fun h => by simp [h] at hgrid
  have hrows : 0 < s.cfg.mapRows := Nat.pos_of_ne_zero fun h => by simp [h] at hgrid
  have hcol : (x + s.scrollX.toNat) % screenW s.cfg / 8 < s.cfg.mapCols :=
    Nat.div_lt_of_lt_mul (Nat.mod_lt _ (Nat.mul_pos (by decide) hcols))
  have hrow : (y + s.scrollY.toNat) % screenH s.cfg / 8 < s.cfg.mapRows :=
    Nat.div_lt_of_lt_mul (Nat.mod_lt _ (Nat.mul_pos (by decide) hrows))
  rw [bgCell, Nat.mul_comm, ← hgrid]
  exact pos_lt hcol hrow

/-- A byte of a region, inside every size the region may have, is not in RAM (R54, R56). -/
theorem vramByte_of_ram_write {s : State} {a : Word} (v : Byte) {q : Region} {k : Nat} (hc : s.cfg.wf = true)
    (ha : regionAt s a = some .ram) (hq : q ≠ .ram) (hk : ∀ n, q.sizeOk n = true → k < n) :
    vramByte (s.setMem (s.mem.write a.toNat v)) q k = vramByte s q k := by
  obtain ⟨w, hw, hr⟩ := regionAt_eq_some ha
  have hin := findWindow_handles hw
  simp only [windowHandles, Bool.and_eq_true, decide_eq_true_eq] at hin
  unfold vramByte regionBase
  rw [State.setMem_cfg, State.setMem_mem]
  cases hfind : s.cfg.map.find? (fun w => w.region == q) with
  | none => rfl
  | some u =>
    have hu := List.mem_of_find?_eq_some hfind
    have hur : u.region = q := by simpa using List.find?_some hfind
    obtain ⟨-, -, hsized, -⟩ := Config.wf_parts hc
    have hout := not_in_other_window hc hu (hk _ (hur ▸ hsized u hu)) (List.mem_of_find?_eq_some hw)
      (by rw [hr, hur]; exact hq.symm)
    exact Memory.read_write_other _ _ fun heq => hout (heq ▸ hin)

theorem renderFrame_of_ram_write {s : State} {a : Word} (v : Byte) (hc : s.cfg.wf = true)
    (ha : regionAt s a = some .ram) : renderFrame (s.setMem (s.mem.write a.toNat v)) = renderFrame s := by
  have hvram : ∀ (q : Region) (k : Nat), q ≠ .ram → (∀ n, q.sizeOk n = true → k < n) →
      vramByte (s.setMem (s.mem.write a.toNat v)) q k = vramByte s q k :=
    fun _ _ => vramByte_of_ram_write v hc ha
  have hfixed : ∀ {k size : Nat}, k < size → ∀ n, (n == size) = true → k < n := fun hk n hn => (beq_iff_eq.mp hn) ▸ hk
  exact (samePicture_of_vram (s := s) (t := s.setMem (s.mem.write a.toNat v)) rfl rfl rfl rfl
    (fun k hk => hvram .tiles k nofun (hfixed hk)) (fun x y => hvram .tmap _ nofun (hfixed (bgCell_lt hc x y)))
    (fun x y => hvram .tattr _ nofun (hfixed (bgCell_lt hc x y))) (fun k hk => hvram .oam k nofun (hfixed hk))
    fun k hk => hvram .pal k nofun (hfixed hk)).renderFrame_eq

theorem renderFrame_of_padCtrl_write (s : State) (v : Byte) : renderFrame (writePadCtrl s v) = renderFrame s := by
  obtain ⟨p, h⟩ := writePadCtrl_eq s v
  rw [h]
  exact renderFrame_congr rfl rfl rfl rfl rfl

/-- Settles O58: ROM and the latched pads discard the write, RAM is apart from the PPU's windows, and `pad_ctrl` and the
pads are not read. -/
theorem frameIgnoresOtherDevices : Obligations.FrameIgnoresOtherDevices := by
  refine ⟨fun s t a v r hc hr hdevice h => ?_, fun _ _ => renderFrame_congr⟩
  cases r with
  | rom => cases (busWrite_of_discarded (.inl hr)).symm.trans h; rfl
  | latched => cases (busWrite_of_discarded (.inr hr)).symm.trans h; rfl
  | ram => cases (busWrite_of_ram v hr).symm.trans h; exact renderFrame_of_ram_write v hc hr
  | padCtrl => cases (busWrite_of_padCtrl hr).symm.trans h; exact renderFrame_of_padCtrl_write s v
  | tiles | tmap | tattr | oam | pal | ctrl | status | scrollX | scrollY => exact absurd rfl hdevice

/-! ## The background's index and the highest sprite seen -/

/-- The background's index is a nibble of the tile its cell names (R186 to R188). -/
theorem bgIndex_toNat (s : State) (x y : Nat) :
    (bgIndex s x y).toNat =
      tileNibble s (vramByte s .tmap (bgCell s x y)).toNat ((y + s.scrollY.toNat) % screenH s.cfg % 8)
        ((x + s.scrollX.toNat) % screenW s.cfg % 8) ((cellAttr s (bgCell s x y)).getLsbD 4)
        ((cellAttr s (bgCell s x y)).getLsbD 5) :=
  tilePixel_toNat s _ _ _ _ (Nat.mod_lt _ (by decide))

/-- With the background on, what is seen of a sprite is what shows (R196, R197). -/
theorem spriteShows_of_bgOn {s : State} {sp : Sprite} {x y : Nat} (h : bgOff s = false) :
    spriteShows s sp x y = true ↔ spriteSeen s sp x y := by
  rw [spriteShows_iff, spriteSeen, bgMask, h, Bool.or_eq_true, Bool.not_eq_true', Bool.not_false, Bool.true_and]

/-- Settles O60: with nothing turned off a sprite seen is one that shows, and the highest one that shows gives the
pixel. -/
theorem highestVisibleSpriteWins : Obligations.HighestVisibleSpriteWins := by
  refine ⟨bgIndex_toNat, fun s x y hh hx hy => ?_⟩
  obtain ⟨hd, hs, hb⟩ := gates_of_ignored hh
  have hunseen : ∀ {k}, ¬ spriteSeen s (readSprite s k) x y → spriteShows s (readSprite s k) x y = false :=
    fun h => eq_false_of_ne_true ((spriteShows_of_bgOn hb).not.mpr h)
  simp only [renderFrame_at s hx hy, Option.some.injEq]
  refine ⟨fun hnone => ?_, fun k hk hseen habove => ?_⟩
  · exact (pixelAt_of_none_shows hd hs fun k hk => hunseen (hnone k hk)).trans (bgColour_of_bgOn hb)
  · exact pixelAt_of_highest_shows hd hs hk ((spriteShows_of_bgOn hb).mpr hseen)
      fun j hj hj' => hunseen (habove j hj hj')

end Sys2Proof.Machine
end

section
/-!
PROOFS. What the assembler makes of operands (spec/30_encoding.md R102, R103): a value in range is the field with that
value, and a line is the encoding of the instruction with its field.
-/
namespace Sys2Proof.Machine

/-! ## Fields -/

/-- A field's own unsigned value goes into it. -/
theorem unsignedField_toNat {n : Nat} (v : BitVec n) : unsignedField n (v.toNat : Int) = .ok v := by
  have hrange : 0 ≤ (v.toNat : Int) ∧ (v.toNat : Int) < 2 ^ n := ⟨Int.natCast_nonneg _, by exact_mod_cast v.isLt⟩
  rw [unsignedField, if_pos hrange, BitVec.ofInt_natCast, BitVec.ofNat_toNat, BitVec.setWidth_eq]

/-- An offset byte's own signed value goes into it (R94). -/
theorem offsetField_toInt (off : Byte) : offsetField off.toInt = .ok off := by
  have hlow : -128 ≤ off.toInt := BitVec.le_toInt off
  have hhigh : off.toInt < 128 := BitVec.toInt_lt
  rw [offsetField, if_pos ⟨hlow, by omega⟩, BitVec.ofInt_toInt]

theorem offsetField_of_outside {v : Int} (h : v < -128 ∨ 127 < v) : offsetField v = .error (.outOfRange v) :=
  if_neg (by omega)

/-- The distance of a label from `a + 2` is what goes into BRA's field (R102). -/
theorem branchField_label {ls : AsmLabels} {addr : Nat} {name : String} (a : Nat) (h : labelAddr ls name = .ok addr) :
    branchField ls a (some (.label name)) = offsetField ((addr : Int) - (a + 2 : Nat)) := by
  simp only [branchField, h, ok_bind]

/-! ## Lines -/

section

variable (ls : AsmLabels) (a : Nat)

/-- LIT and SYS take an unsigned byte, BRA a signed one. -/
theorem assembleInstr_byte (b : Byte) :
    assembleInstr ls a .lit (some (.number b.toNat)) = .ok [0x34, b] ∧
    assembleInstr ls a .sys (some (.number b.toNat)) = .ok [0x01, b] ∧
    assembleInstr ls a .bra (some (.number b.toInt)) = .ok [0x54, b] := by
  simp only [assembleInstr, numberField, branchField, unsignedField_toNat, offsetField_toInt, ok_bind, encode,
    Instr.opcode, Instr.operandBytes, and_self]

/-- LIT2, JMP and CALL take a word, the low byte first (R93). -/
theorem assembleInstr_word (hi lo : Byte) :
    assembleInstr ls a .lit2 (some (.number (joinBytes hi lo).toNat)) = .ok [0x35, lo, hi] ∧
    assembleInstr ls a .jmp (some (.number (joinBytes hi lo).toNat)) = .ok [0x50, lo, hi] ∧
    assembleInstr ls a .call (some (.number (joinBytes hi lo).toNat)) = .ok [0x51, lo, hi] := by
  simp only [assembleInstr, numberField, targetField, unsignedField_toNat, ok_bind, Except.ok.injEq]
  exact ⟨encode_of_word (mk := .lit2) rfl hi lo, encode_of_word (mk := .jmp) rfl hi lo,
    encode_of_word (mk := .call) rfl hi lo⟩

variable {ls} {addr : Nat} {name : String} (h : labelAddr ls name = .ok addr)

include h

theorem assembleInstr_bra_label {off : Byte} (hoff : (addr : Int) = a + 2 + off.toInt) :
    assembleInstr ls a .bra (some (.label name)) = .ok [0x54, off] := by
  have hdist : (addr : Int) - (a + 2 : Nat) = off.toInt := by omega
  simp only [assembleInstr, branchField_label a h, hdist, offsetField_toInt, ok_bind]
  rfl

theorem assembleInstr_bra_far (hfar : addr + 128 < a + 2 ∨ a + 2 + 127 < addr) :
    ∃ e, assembleInstr ls a .bra (some (.label name)) = .error e := by
  have hout : (addr : Int) - (a + 2 : Nat) < -128 ∨ 127 < (addr : Int) - (a + 2 : Nat) := by omega
  refine ⟨.outOfRange (addr - (a + 2 : Nat)), ?_⟩
  simp only [assembleInstr, branchField_label a h, offsetField_of_outside hout, error_bind]

end

/-- Settles O4: numbers by byte and by word, labels of BRA by their distance, and the two aliases by evaluation. -/
theorem assemblerOperands : Obligations.AssemblerOperands :=
  ⟨assembleInstr_byte, assembleInstr_word, fun _ a _ _ _ h => assembleInstr_bra_label a h,
    fun _ a _ _ => assembleInstr_bra_far a, fun _ _ => ⟨rfl, rfl⟩⟩

end Sys2Proof.Machine
end
